-- ==== Sys2Proof/Word.lean ====
section
/-! DEFINITION. The word types of TRPX-CORE (spec 10_state.md R22, 20_memory.md R59). -/

namespace Sys2Proof

/-- One byte of the buffer `BUF` (R59). -/
abbrev Byte := BitVec 8

/-- One 64-bit register or one cell of a value memory (R22, R30). -/
abbrev Word := BitVec 64

/-- A block width held in a 7-bit register, 0..64 (R22, R28, R29). -/
abbrev Width := BitVec 7

end Sys2Proof
end

