-- ==== Sys2Proof/Config.lean ====
section
/-! DEFINITION. What an implementation fixes (the open parameters of 92_eei_decisions.md) and the values
the spec leaves unspecified. Nothing here has a body a proof could look into. -/

namespace Sys2Proof.Config

/-- `BUF_CAP - 1` (R4, D5: OPEN, `1 ≤ BUF_CAP < 2^60`). DESIGN CHOICE, log entry 1. -/
opaque bufCapPred : Fin 1152921504606846975

/-- `VAL_CAP - 1` (R4, D6: OPEN, `1 ≤ VAL_CAP < 2^64`). DESIGN CHOICE, log entry 1. -/
opaque valCapPred : Fin 18446744073709551615

/-- `BUF_CAP`, the capacity of the byte buffer in bytes (R27). -/
def bufCap : Nat := bufCapPred.val + 1

/-- `VAL_CAP`, the capacity of `VIN` and of `VOUT` in cells (R30). -/
def valCap : Nat := valCapPred.val + 1

/-- What a byte of `BUF` that nobody has written reads as (R38, D27, U5): a free value. DESIGN CHOICE, log
entry 2. -/
opaque powerUpBuf : Nat → Byte

/-- What a cell of `VIN` that nobody has written reads as (R38, D27, U5): a free value. DESIGN CHOICE, log
entry 2. -/
opaque powerUpVin : Nat → Word

/-- What a cell of `VOUT` that nobody has written reads as (R38, D27, U5): a free value. DESIGN CHOICE, log
entry 2. -/
opaque powerUpVout : Nat → Word

/-- The value a byte of `BUF` holds after a hardware reset cut short a command that could write it
(R260, U22): a free value, fresh for every number it is applied to. DESIGN CHOICE,
log entry 5. -/
opaque freeByte : Nat → Byte

/-- The value a cell of `VOUT` holds after a hardware reset cut short a command that could write it
(R260, U22): a free value, fresh for every number it is applied to. DESIGN CHOICE,
log entry 5. -/
opaque freeCell : Nat → Word

end Sys2Proof.Config
end

