-- ==== Sys2Proof/Syntax.lean ====
section
/-! DEFINITION. The instructions: one constructor per row of spec/opcode_table.json. -/

namespace Sys2Proof

/-- The instructions of TRPX-CORE. The first fifteen and `illegal` are values written to `CMD`
(30_encoding.md R103, R104): their operands are in registers (R102), so they carry none. The others are
the block headers that stand in the bit stream (R93, R98), with their fields. -/
inductive Instr where
  /-- `RDBIT`, opcode 0x01 (R122). -/
  | rdbit
  /-- `RDBITS`, opcode 0x02 (R121). -/
  | rdbits
  /-- `WRBITS`, opcode 0x03 (R123). -/
  | wrbits
  /-- `POSBITS`, opcode 0x04 (R124). -/
  | posbits
  /-- `ALIGN`, opcode 0x05 (R125). -/
  | align
  /-- `SEEK`, opcode 0x06 (R126). -/
  | seek
  /-- `BLKWIDTH`, opcode 0x10 (R141). -/
  | blkwidth
  /-- `ENCBLK`, opcode 0x11 (R143). -/
  | encblk
  /-- `DECBLK`, opcode 0x12 (R145). -/
  | decblk
  /-- `ENCHDR`, opcode 0x20 (R161). -/
  | enchdr
  /-- `DECHDR`, opcode 0x21 (R163). -/
  | dechdr
  /-- `ENCFRAME`, opcode 0x30 (R182). -/
  | encframe
  /-- `DECFRAME`, opcode 0x31 (R184). -/
  | decframe
  /-- `SCANFRAME`, opcode 0x32 (R186). -/
  | scanframe
  /-- `RESET`, opcode 0x7F (R211). -/
  | reset
  /-- Stream form `REUSE`: the bit 1 (R93). -/
  | reuse
  /-- Stream form `ABS3`: flag 0, `a` in 0..6 (R93). -/
  | abs3 (a : BitVec 3)
  /-- Stream form `ABS5`: flag 0, `a = 7`, `b` in 0..2 (R93). -/
  | abs5 (b : BitVec 2)
  /-- Stream form `ABS11`: flag 0, `a = 7`, `b = 3`, `c` in 0..54 (R93). -/
  | abs11 (c : BitVec 6)
  /-- The reserved stream form `ABS11_ILLEGAL`: as `ABS11` with `c` in 55..63 (R98). -/
  | abs11Illegal (c : BitVec 6)
  /-- Any other 8-bit value written to `CMD` (R104). -/
  | illegal (opcode : Byte)
deriving DecidableEq, Repr

/-- The block header forms of the stream (R93, R98) by themselves: what header decoding answers. -/
inductive HeaderForm where
  | reuse
  | abs3 (a : BitVec 3)
  | abs5 (b : BitVec 2)
  | abs11 (c : BitVec 6)
  | abs11Illegal (c : BitVec 6)
deriving DecidableEq, Repr

/-- The instruction a header form is. -/
def HeaderForm.toInstr : HeaderForm → Instr
  | .reuse => .reuse
  | .abs3 a => .abs3 a
  | .abs5 b => .abs5 b
  | .abs11 c => .abs11 c
  | .abs11Illegal c => .abs11Illegal c

end Sys2Proof
end

