-- ==== Sys2Proof/Machine/State.lean ====
section
/-! DEFINITION. The state of TRPX-CORE (10_state.md R21, R22, R30), the state after reset (R38, R261), and
the reasons for which a step of the model stops. -/

namespace Sys2Proof.Machine

/-- The causes of the core's own faults (60_exceptions.md R220). Raising one is a next state of the machine:
it writes `STATUS` and `ERR` (R224); none of them ends a run of the model. -/
inductive FaultKind where
  /-- Code 1: a signed stream decoded into an unsigned sink (`DECBLK`, `DECFRAME`). -/
  | signednessMismatch
  /-- Code 2: the value source or sink is shorter than the command needs. -/
  | sizeMismatch
  /-- Code 3: reserved for a strict mode this hardware does not have; never raised (R220, R221). -/
  | widthTooNarrow
  /-- Code 4: a read or skip beyond `8 * BUF_LEN`. -/
  | readOverrun
  /-- Code 5: a write beyond `8 * BUF_LEN`. -/
  | writeOverrun
  /-- Code 6: an `ABS11` header with a width above 64. -/
  | widthOutOfRange
  /-- Code 7: an operand outside its legal range. -/
  | badArgument
  /-- Code 8: `BLOCK_SIZE = 0`. -/
  | badConfig
  /-- Code 9: a value written to `CMD` that is no opcode. -/
  | illegalCommand
deriving DecidableEq, Repr

/-- Why a step of the model ends in a fault. -/
inductive Fault where
  /-- Raised by a host access (not by any instruction) to a cell of `BUF` at or above `BUF_CAP`, or of `VIN`
  or `VOUT` at or above `VAL_CAP`: the cell does not exist and the access has no meaning (R37, U19).
  Safe: the model stops where the spec gives no behaviour. -/
  | absentCell
deriving DecidableEq, Repr

/-- Why a step of the model is refused. -/
inductive Refusal where
  /-- An instruction that has no meaning in the model yet. Safe: the model stops. -/
  | notModelled (mnemonic : String)
  /-- Raised by a host write (not by any instruction) of a value that does not fit in the register it is
  written to, where the spec says neither that the write is ignored nor what is kept (R22; DESIGN CHOICE, log entry
  6).
  Safe: the model stops where the spec gives no behaviour. -/
  | hostValueTooWide
deriving DecidableEq, Repr

/-- One access of the host (10_state.md R37, 44_system.md R212), or an assertion of the reset input
(70_reset_and_hazards.md R260). -/
inductive HostAction where
  /-- A host write of a register by number; a write to register 0, `CMD`, issues a command (R22, R23). -/
  | writeReg (number : Nat) (value : Word)
  /-- A host read of a register by number (R22). -/
  | readReg (number : Nat)
  /-- A host write of the byte `BUF[j]`. -/
  | writeBuf (j : Nat) (value : Byte)
  /-- A host read of the byte `BUF[j]`. -/
  | readBuf (j : Nat)
  /-- A host write of the cell `VIN[i]`. -/
  | writeVin (i : Nat) (value : Word)
  /-- A host read of the cell `VIN[i]`. -/
  | readVin (i : Nat)
  /-- A host write of the cell `VOUT[i]`. -/
  | writeVout (i : Nat) (value : Word)
  /-- A host read of the cell `VOUT[i]`. -/
  | readVout (i : Nat)
  /-- Hardware reset while no command runs (R260). -/
  | hardReset
  /-- Hardware reset while the command of this opcode, just issued, runs: the command is cut short
  (R227, R260, U22). -/
  | hardResetDuring (opcode : Byte)
deriving DecidableEq, Repr

/-- The state of the machine. The first eighteen fields are the registers of R22 (`CMD` holds nothing,
R23); then the three memories of R21; then three fields of the MODEL's own: what the host is still to
do, what its last read returned, and the number of free values used so far (DESIGN CHOICE, log
entries 3, 4, 5). -/
structure State where
  /-- Register 1, `STATUS`: bit 0 `FAULT` (R36). -/
  status : Byte
  /-- Register 2, `ERR`: the code of the first fault since reset (R36). -/
  err : Byte
  /-- Register 3, `CFG`: `SIGNED_MODE`, `SRC_CLASS`, `TGT_SIGNED`, `TGT_CLASS` (R24). -/
  cfg : Byte
  /-- Register 4, `BLOCK_SIZE` (R25). -/
  blockSize : Word
  /-- Register 5, `FRAME_LEN` (R26). -/
  frameLen : Word
  /-- Register 6, `BUF_LEN` (R27). -/
  bufLen : Word
  /-- Register 7, `MAX_W` (R28). -/
  maxW : Width
  /-- Register 8, `PREV_W` (R29). -/
  prevW : Width
  /-- Register 9, `CUR_W` (R29). -/
  curW : Width
  /-- Register 10, `CONSUMED` (R31). -/
  consumed : Word
  /-- Register 11, `POS`, the program counter of this hardware (R32). -/
  pos : Word
  /-- Register 12, `NEXT_OFF` (R33). -/
  nextOff : Word
  /-- Register 13, `A_VAL` (R34). -/
  aVal : Word
  /-- Register 14, `A_N` (R34). -/
  aN : Byte
  /-- Register 15, `A_K` (R34). -/
  aK : Word
  /-- Register 16, `A_IDX` (R34). -/
  aIdx : Word
  /-- Register 17, `A_OFF` (R34). -/
  aOff : Word
  /-- Register 18, `R_VAL` (R35). -/
  rVal : Word
  /-- The byte buffer `BUF`: the bytes somebody has written, addresses strictly rising (R27, R38). -/
  buf : List Host.Cell
  /-- The value source `VIN`: the cells somebody has written, indices strictly rising (R30, R38). -/
  vin : List (Nat × Word)
  /-- The value sink `VOUT`: the cells somebody has written, indices strictly rising (R30, R38). -/
  vout : List (Nat × Word)
  /-- MODEL's own: the accesses the host is still to make, first one first. -/
  host : List HostAction
  /-- MODEL's own: the value the host's last read returned, zero-extended. -/
  hostData : Word
  /-- MODEL's own: the number of the next free value (a counter). -/
  freeCount : Nat
deriving DecidableEq, Repr

/-- The machine right after reset (R38, R261): `BLOCK_SIZE = 12`, every other register 0, no cell of a
memory written by anybody, and no host access waiting. -/
def State.reset : State where
  status := 0#8
  err := 0#8
  cfg := 0#8
  blockSize := 12#64
  frameLen := 0#64
  bufLen := 0#64
  maxW := 0#7
  prevW := 0#7
  curW := 0#7
  consumed := 0#64
  pos := 0#64
  nextOff := 0#64
  aVal := 0#64
  aN := 0#8
  aK := 0#64
  aIdx := 0#64
  aOff := 0#64
  rVal := 0#64
  buf := []
  vin := []
  vout := []
  host := []
  hostData := 0#64
  freeCount := 0

end Sys2Proof.Machine
end

