-- ==== Sys2Proof/Machine/Flags.lean ====
section
/-! DEFINITION. The only flags of the core: `STATUS.FAULT` and the fault code in `ERR` (10_state.md R36,
60_exceptions.md R220). No operation has a condition code, carry, overflow or zero flag (R36). -/

namespace Sys2Proof.Machine

/-- `STATUS.FAULT` (R22, R36). -/
def State.faulted (s : State) : Bool := s.status.getLsbD 0

/-- The code a fault leaves in `ERR` (R220). -/
def FaultKind.code (k : FaultKind) : Byte :=
  match k with
  | .signednessMismatch => 1#8
  | .sizeMismatch => 2#8
  | .widthTooNarrow => 3#8
  | .readOverrun => 4#8
  | .writeOverrun => 5#8
  | .widthOutOfRange => 6#8
  | .badArgument => 7#8
  | .badConfig => 8#8
  | .illegalCommand => 9#8

/-- The flag effect of fault entry: `STATUS.FAULT <- 1`, `ERR <- code` (R224). -/
def setFaultFlags (k : FaultKind) (s : State) : State :=
  { s with status := s.status ||| 1#8, err := k.code }

end Sys2Proof.Machine
end

