-- ==== Sys2Proof/Machine/Numbers.lean ====
section
/-! DEFINITION. Integers and bit patterns (00_scope.md R6, R7): the number helpers the rules are written
in. -/

namespace Sys2Proof.Machine

/-- `bitlen(x)`: 0 for 0, else the `e` with `2^(e-1) ≤ x < 2^e`; it equals `ceil_log2(x + 1)` (R7). -/
def bitlen (x : Nat) : Nat := if x = 0 then 0 else Nat.log2 x + 1

/-- `sint_N(x)`: the two's complement value of an `N`-bit pattern (R6). -/
def sint (n x : Nat) : Int := if x < 2 ^ (n - 1) then (x : Int) else (x : Int) - 2 ^ n

/-- `pat_N(v) = v mod 2^N`: two's complement truncated to `N` bits (R6). -/
def pat (n : Nat) (v : Int) : Nat := (v % 2 ^ n).toNat

/-- `clamp(v, lo, hi)` (R6). -/
def clamp (v lo hi : Int) : Int := if v < lo then lo else if hi < v then hi else v

/-- The least multiple of 8 not below `p` (R125). -/
def alignUp (p : Nat) : Nat := 8 * ((p + 7) / 8)

end Sys2Proof.Machine
end

