-- ==== Sys2Proof/Machine/Ops.lean ====
section
/-! DEFINITION. The named operations over memories and registers: cell memories in canonical form, the two
buffer primitives (20_memory.md R60, R61), the two field operations (40_bit_cursor.md R120), raising a
fault and leaving the faulted state (60_exceptions.md R224, R225), and command acceptance (44_system.md
R210). -/

namespace Sys2Proof.Machine

/-! ### A memory as a list of cells -/

/-- What a memory holds at an address: `none` where nobody has written (R38). -/
def Memory.read? {w : Nat} (m : List (Nat × BitVec w)) (a : Nat) : Option (BitVec w) :=
  match m with
  | [] => none
  | (b, v) :: rest => if b = a then some v else Memory.read? rest a

/-- Writes a cell, keeping the addresses strictly rising. -/
def Memory.write {w : Nat} (m : List (Nat × BitVec w)) (a : Nat) (v : BitVec w) : List (Nat × BitVec w) :=
  match m with
  | [] => [(a, v)]
  | (b, u) :: rest =>
    if a < b then (a, v) :: (b, u) :: rest
    else if a = b then (a, v) :: rest
    else (b, u) :: Memory.write rest a v

/-- All addresses of a memory are at least `lo` and strictly rising. -/
def Memory.risingFrom {w : Nat} (lo : Nat) (m : List (Nat × BitVec w)) : Bool :=
  match m with
  | [] => true
  | (b, _) :: rest => decide (lo ≤ b) && Memory.risingFrom (b + 1) rest

/-- The canonical form: addresses strictly rising. An unlisted cell holds no value, so no entry can repeat
what an unlisted cell holds (DESIGN CHOICE, log entry 2). -/
def Memory.wf {w : Nat} (m : List (Nat × BitVec w)) : Bool := Memory.risingFrom 0 m

/-- Every listed address is below a capacity. -/
def Memory.below {w : Nat} (cap : Nat) (m : List (Nat × BitVec w)) : Bool :=
  m.all fun c => decide (c.1 < cap)

/-! ### The cells of the three memories -/

/-- The byte `BUF[j]`; the free value of an unwritten byte (R27, R38). -/
def State.bufByte (s : State) (j : Nat) : Byte := (Memory.read? s.buf j).getD (Config.powerUpBuf j)

/-- The cell `VIN[i]`; the free value of an unwritten cell (R30, R38). -/
def State.vinCell (s : State) (i : Nat) : Word := (Memory.read? s.vin i).getD (Config.powerUpVin i)

/-- The cell `VOUT[i]`; the free value of an unwritten cell (R30, R38). -/
def State.voutCell (s : State) (i : Nat) : Word := (Memory.read? s.vout i).getD (Config.powerUpVout i)

/-- `BUF[j] <- b`. -/
def State.putBuf (s : State) (j : Nat) (b : Byte) : State := { s with buf := Memory.write s.buf j b }

/-- `VIN[i] <- v`: a host write only, the core never writes `VIN` (R30). -/
def State.putVin (s : State) (i : Nat) (v : Word) : State := { s with vin := Memory.write s.vin i v }

/-- `VOUT[i] <- v` (R30, R66). -/
def State.putVout (s : State) (i : Nat) (v : Word) : State := { s with vout := Memory.write s.vout i v }

/-! ### The buffer primitives -/

/-- `bit(q)`: bit `q mod 8` of byte `q div 8` of the buffer (R5, R60). -/
def State.bufBit (s : State) (q : Nat) : Bool := (s.bufByte (q / 8)).getLsbD (q % 8)

/-- `MemRead(p, n)`: the field of `n` bits at bit address `p`, least significant bit first (R60). -/
def memRead (s : State) (p n : Nat) : Nat :=
  match n with
  | 0 => 0
  | n + 1 => (s.bufBit p).toNat + 2 * memRead s (p + 1) n

/-- ORs `count` bytes of the number `x`, least significant first, into `BUF[j ..]`. -/
def orBytes (count j x : Nat) (s : State) : State :=
  match count with
  | 0 => s
  | count + 1 => orBytes count (j + 1) (x / 256) (s.putBuf j (s.bufByte j ||| BitVec.ofNat 8 x))

/-- How many bytes a field of `n` bits at bit address `p` touches (R60, R61). -/
def bytesSpanned (p n : Nat) : Nat := if n = 0 then 0 else (p + n - 1) / 8 + 1 - p / 8

/-- `MemWrite(p, n, v)`: the bits of `v` are ORed into the buffer at bit address `p`; the byte form of
R61. -/
def memWrite (p n v : Nat) (s : State) : State := orBytes (bytesSpanned p n) (p / 8) (v * 2 ^ (p % 8)) s

/-! ### Raising a fault, and the way out of the faulted state -/

/-- Taking a fault: `raise F` of R224. `STATUS.FAULT` is set and `ERR` holds the code; nothing is saved,
no mode changes and control goes nowhere. -/
def raiseFault (k : FaultKind) (s : State) : State := setFaultFlags k s

/-- Every register returns to its reset value and the memories stay (R211, R225, R260): the only exit from
the faulted state. -/
def resetRegisters (s : State) : State :=
  { State.reset with
    buf := s.buf, vin := s.vin, vout := s.vout,
    host := s.host, hostData := s.hostData, freeCount := s.freeCount }

/-! ### Sequencing: an operation completes with a result, or raises a fault -/

/-- What a piece of a command's pseudocode comes to. -/
inductive Run (α : Type) where
  /-- It completed with a result. -/
  | done (a : α) (s : State)
  /-- It raised a fault, which ended the command in this state (R224, R229). -/
  | raised (s : State)

/-- One piece of pseudocode after another; a raised fault ends both. -/
def Run.bind {α β : Type} (r : Run α) (f : α → State → Run β) : Run β :=
  match r with
  | .done a s => f a s
  | .raised s => .raised s

/-- The state in which a command ended, completed or faulted. -/
def Run.state {α : Type} (r : Run α) : State :=
  match r with
  | .done _ s => s
  | .raised s => s

/-- `raise F` inside pseudocode (R224). -/
def raiseRun {α : Type} (k : FaultKind) (s : State) : Run α := .raised (raiseFault k s)

/-! ### The field operations -/

/-- `POS <- POS + n` (R32), modulo `2^64`, which no state in order reaches (DEDUCED, log entry 15). -/
def advance (n : Nat) (s : State) : State := { s with pos := s.pos + BitVec.ofNat 64 n }

/-- The bound of every buffer access: `POS + n ≤ 8 * BUF_LEN`, computed without wrap-around (R68). -/
def inBounds (s : State) (n : Nat) : Bool := decide (s.pos.toNat + n ≤ 8 * s.bufLen.toNat)

/-- `read_field(n)` (R120). -/
def readField (n : Nat) (s : State) : Run Nat :=
  if inBounds s n then .done (memRead s s.pos.toNat n) (advance n s) else raiseRun .readOverrun s

/-- `write_field(v, n)` (R120). -/
def writeField (v n : Nat) (s : State) : Run Unit :=
  if inBounds s n then .done () (advance n (memWrite s.pos.toNat n v s)) else raiseRun .writeOverrun s

/-- `POS <- 8 * ((POS + 7) div 8)` (R125). -/
def alignPos (s : State) : State := { s with pos := BitVec.ofNat 64 (alignUp s.pos.toNat) }

/-- `POS <- 8 * A_OFF` (R126, R181). -/
def seekPos (s : State) : State := { s with pos := BitVec.ofNat 64 (8 * s.aOff.toNat) }

/-- `R_VAL <- zext_64(v)` (R35). -/
def setResult (v : Nat) (s : State) : State := { s with rVal := BitVec.ofNat 64 v }

/-! ### Command acceptance -/

/-- The first check that fails, in the order in which a command's rule lists them (R223). -/
def firstFailing (checks : List (Bool × FaultKind)) : Option FaultKind :=
  match checks with
  | [] => none
  | (fails, k) :: rest => if fails then some k else firstFailing rest

/-- A command of an unfaulted core: its checks in order, then its pseudocode; a faulted core ignores the
command, with no state change at all (R210, R223). -/
def runCommand (checks : List (Bool × FaultKind)) (body : State → Run Unit) (s : State) :
    Host.Outcome State Fault Refusal :=
  if s.faulted then .next s
  else
    match firstFailing checks with
    | some k => .next (raiseFault k s)
    | none => .next (body s).state

end Sys2Proof.Machine
end

