-- ==== Sys2Proof/Machine/Operands.lean ====
section
/-! DEFINITION. The operand forms: the fields of `CFG` (10_state.md R24), the operand registers (R34), the
elements of the value memories (R30), and the checks on operands that commands share (60_exceptions.md
R223). -/

namespace Sys2Proof.Machine

/-! ### CFG fields -/

/-- `SIGNED_MODE`, bit 0 of `CFG` (R24). -/
def State.signedMode (s : State) : Bool := s.cfg.getLsbD 0

/-- `S = 8 * 2^SRC_CLASS`, the width of the source elements (R9, R24). -/
def State.srcWidth (s : State) : Nat := 8 * 2 ^ (s.cfg.extractLsb' 1 2).toNat

/-- `TGT_SIGNED`, bit 3 of `CFG` (R24). -/
def State.tgtSigned (s : State) : Bool := s.cfg.getLsbD 3

/-- `T = 8 * 2^TGT_CLASS`, the width of the sink elements (R9, R24). -/
def State.tgtWidth (s : State) : Nat := 8 * 2 ^ (s.cfg.extractLsb' 4 2).toNat

/-! ### Operand registers, as the numbers they hold -/

/-- The operand `n` or `w`: `A_N` (R34). -/
def State.opN (s : State) : Nat := s.aN.toNat

/-- The operand `k`: `A_K` (R34). -/
def State.opK (s : State) : Nat := s.aK.toNat

/-- The operand `idx`: `A_IDX` (R34). -/
def State.opIdx (s : State) : Nat := s.aIdx.toNat

/-! ### Elements of the value memories -/

/-- The integer value of element `i` of the source: the low `S` bits of `VIN[i]`, signed by
`SIGNED_MODE` (R30). -/
def State.sourceValue (s : State) (i : Nat) : Int :=
  let x := (s.vinCell i).toNat % 2 ^ s.srcWidth
  if s.signedMode then sint s.srcWidth x else (x : Int)

/-- The integer value of element `i` of the sink: the low `T` bits of `VOUT[i]`, signed by `TGT_SIGNED`
(R30). -/
def State.sinkValue (s : State) (i : Nat) : Int :=
  let x := (s.voutCell i).toNat % 2 ^ s.tgtWidth
  if s.tgtSigned then sint s.tgtWidth x else (x : Int)

/-! ### Checks -/

/-- `BadConfig`: `BLOCK_SIZE = 0` (R223). -/
def badBlockSize (s : State) : Bool × FaultKind := (decide (s.blockSize.toNat = 0), .badConfig)

/-- `BadArgument`: `A_N > 64` (R223). -/
def badWidth (s : State) : Bool × FaultKind := (decide (64 < s.opN), .badArgument)

/-- `BadArgument`: `A_K > BLOCK_SIZE` (R223). -/
def badCount (s : State) : Bool × FaultKind := (decide (s.blockSize.toNat < s.opK), .badArgument)

/-- `BadArgument`: `A_OFF > BUF_LEN` (R223). -/
def badOffset (s : State) : Bool × FaultKind := (decide (s.bufLen.toNat < s.aOff.toNat), .badArgument)

/-- `SignednessMismatch`: `SIGNED_MODE = 1` and `TGT_SIGNED = 0` (R220). A signed stream never gets
past it into an unsigned sink (DEDUCED, log entry 17). -/
def signedIntoUnsigned (s : State) : Bool × FaultKind := (s.signedMode && !s.tgtSigned, .signednessMismatch)

/-- `SizeMismatch` of a block command: `A_IDX + A_K > VAL_CAP` (R220). -/
def blockTooLong (s : State) : Bool × FaultKind := (decide (Config.valCap < s.opIdx + s.opK), .sizeMismatch)

/-- `SizeMismatch` of a frame command: `FRAME_LEN > VAL_CAP` (R220). -/
def frameTooLong (s : State) : Bool × FaultKind := (decide (Config.valCap < s.frameLen.toNat), .sizeMismatch)

end Sys2Proof.Machine
end

