-- ==== Sys2Proof/Machine/Cursor.lean ====
section
/-! DEFINITION. The bit cursor: `RDBIT`, `RDBITS`, `WRBITS`, `POSBITS`, `ALIGN`, `SEEK` (40_bit_cursor.md). -/

namespace Sys2Proof.Machine

/-- `R_VAL <- zext_64(read_field(n))`. -/
def readResult (n : Nat) (s : State) : Run Unit :=
  (readField n s).bind fun v s => .done () (setResult v s)

/-- `RDBIT` (R122). -/
def execRdbit (s : State) : Host.Outcome State Fault Refusal :=
  runCommand [] (readResult 1) s

/-- `RDBITS` (R121). -/
def execRdbits (s : State) : Host.Outcome State Fault Refusal :=
  runCommand [badWidth s] (readResult s.opN) s

/-- `WRBITS` (R123). -/
def execWrbits (s : State) : Host.Outcome State Fault Refusal :=
  runCommand [badWidth s] (writeField (s.aVal.toNat % 2 ^ s.opN) s.opN) s

/-- `POSBITS` (R124). -/
def execPosbits (s : State) : Host.Outcome State Fault Refusal :=
  runCommand [] (fun s => .done () (setResult s.pos.toNat s)) s

/-- `ALIGN` (R125). -/
def execAlign (s : State) : Host.Outcome State Fault Refusal :=
  runCommand [] (fun s => .done () (alignPos s)) s

/-- `SEEK` (R126). -/
def execSeek (s : State) : Host.Outcome State Fault Refusal :=
  runCommand [badOffset s] (fun s => .done () (seekPos s)) s

end Sys2Proof.Machine
end

