-- ==== Sys2Proof/Machine/Block.lean ====
section
/-! DEFINITION. The block codec: `BLKWIDTH`, `ENCBLK`, `DECBLK` (41_block_codec.md). -/

namespace Sys2Proof.Machine

/-! ### Required width -/

/-- The greatest `|v_i|` over the `k` source elements from `idx` on; 0 for `k = 0` (R140). In unsigned
mode the values are not negative and this is the greatest value. -/
def maxMagnitude (s : State) (idx k : Nat) : Nat :=
  match k with
  | 0 => 0
  | k + 1 => max (s.sourceValue idx).natAbs (maxMagnitude s (idx + 1) k)

/-- `block_width(idx, k)` (R140). -/
def blockWidth (s : State) (idx k : Nat) : Nat :=
  let m := maxMagnitude s idx k
  if s.signedMode then (if m = 0 then 0 else min (1 + bitlen m) s.srcWidth) else bitlen m

/-! ### Encode -/

/-- `enc_block(idx, k, w)` for `w ≥ 1`: the fields `pat_w(v_i)` in order (R142, R143). -/
def encFields (w idx k : Nat) (s : State) : Run Unit :=
  match k with
  | 0 => .done () s
  | k + 1 => (writeField (pat w (s.sourceValue idx)) w s).bind fun _ s => encFields w (idx + 1) k s

/-- `enc_block(idx, k, w)` (R143). -/
def encBlock (idx k w : Nat) (s : State) : Run Unit :=
  if w = 0 then .done () s else encFields w idx k s

/-! ### Decode -/

/-- `dec_value(f, w)`: the sink pattern of a field, sign-extended or saturated (R144). -/
def decValue (s : State) (f w : Nat) : Nat :=
  if s.signedMode then
    pat s.tgtWidth (clamp (sint w f) (-(2 ^ (s.tgtWidth - 1))) (2 ^ (s.tgtWidth - 1) - 1))
  else if s.tgtWidth < bitlen f then
    (if s.tgtSigned then 2 ^ (s.tgtWidth - 1) - 1 else 2 ^ s.tgtWidth - 1)
  else f

/-- One element of `dec_block`: with `w = 0` a zero is stored and nothing is read (R145). -/
def decElement (w i : Nat) (s : State) : Run Unit :=
  if w = 0 then .done () (s.putVout i 0#64)
  else (readField w s).bind fun f s => .done () (s.putVout i (BitVec.ofNat 64 (decValue s f w)))

/-- `dec_block(idx, k, w)` (R145). -/
def decBlock (idx k w : Nat) (s : State) : Run Unit :=
  match k with
  | 0 => .done () s
  | k + 1 => (decElement w idx s).bind fun _ s => decBlock (idx + 1) k w s

/-! ### The commands -/

/-- `BLKWIDTH` (R141). -/
def execBlkwidth (s : State) : Host.Outcome State Fault Refusal :=
  runCommand [badBlockSize s, badCount s, blockTooLong s]
    (fun s => .done () (setResult (blockWidth s s.opIdx s.opK) s)) s

/-- The checks of `ENCBLK` (R143, R223). -/
def encblkChecks (s : State) : List (Bool × FaultKind) :=
  [badBlockSize s, badWidth s, badCount s, blockTooLong s]

/-- `ENCBLK` (R143). -/
def execEncblk (s : State) : Host.Outcome State Fault Refusal :=
  runCommand (encblkChecks s) (encBlock s.opIdx s.opK s.opN) s

/-- The checks of `DECBLK` (R145, R223). -/
def decblkChecks (s : State) : List (Bool × FaultKind) :=
  [badBlockSize s, badWidth s, badCount s, signedIntoUnsigned s, blockTooLong s]

/-- `DECBLK` (R145). -/
def execDecblk (s : State) : Host.Outcome State Fault Refusal :=
  runCommand (decblkChecks s) (decBlock s.opIdx s.opK s.opN) s

end Sys2Proof.Machine
end

