-- ==== Sys2Proof/WellFormed.lean ====
section
/-! DEFINITION. The constraint column of spec/opcode_table.json: which terms of `Instr` stand for an
encoding. -/

namespace Sys2Proof

/-- The fifteen opcodes of 30_encoding.md R103. -/
def opcodes : List Byte :=
  [0x01#8, 0x02#8, 0x03#8, 0x04#8, 0x05#8, 0x06#8, 0x10#8, 0x11#8, 0x12#8, 0x20#8, 0x21#8, 0x30#8, 0x31#8,
    0x32#8, 0x7F#8]

/-- The field ranges of a header form (R93, R98). -/
def HeaderForm.wellFormed : HeaderForm → Bool
  | .reuse => true
  | .abs3 a => a != 7#3
  | .abs5 b => b != 3#2
  | .abs11 c => decide (c.toNat ≤ 54)
  | .abs11Illegal c => decide (55 ≤ c.toNat)

/-- Which instructions the table admits: a header's fields in their ranges (R93, R98), and `illegal`
only for a value that is no opcode of R103 (R104). -/
def Instr.wellFormed : Instr → Bool
  | .rdbit => true
  | .rdbits => true
  | .wrbits => true
  | .posbits => true
  | .align => true
  | .seek => true
  | .blkwidth => true
  | .encblk => true
  | .decblk => true
  | .enchdr => true
  | .dechdr => true
  | .encframe => true
  | .decframe => true
  | .scanframe => true
  | .reset => true
  | .reuse => true
  | .abs3 a => HeaderForm.wellFormed (.abs3 a)
  | .abs5 b => HeaderForm.wellFormed (.abs5 b)
  | .abs11 c => HeaderForm.wellFormed (.abs11 c)
  | .abs11Illegal c => HeaderForm.wellFormed (.abs11Illegal c)
  | .illegal op => !(opcodes.contains op)

end Sys2Proof
end

