-- ==== Sys2Proof/Decode.lean ====
section
/-! DEFINITION. Decoding: the command byte written to `CMD` (30_encoding.md R102 to R104) and the prefix
code of the block header (R93 to R98), and the encoder of both. -/

namespace Sys2Proof

/-! ### Commands -/

/-- The command an 8-bit value written to `CMD` stands for (R103); every value that is no opcode is
rejected by name as `illegal` (R104). -/
def decodeCommand (c : Byte) : Instr :=
  match c.toNat with
  | 0x01 => .rdbit
  | 0x02 => .rdbits
  | 0x03 => .wrbits
  | 0x04 => .posbits
  | 0x05 => .align
  | 0x06 => .seek
  | 0x10 => .blkwidth
  | 0x11 => .encblk
  | 0x12 => .decblk
  | 0x20 => .enchdr
  | 0x21 => .dechdr
  | 0x30 => .encframe
  | 0x31 => .decframe
  | 0x32 => .scanframe
  | 0x7F => .reset
  | _ => .illegal c

/-! ### Header fields: each step of 30_encoding.md R97 either ends the header or asks for the next field -/

/-- The 1-bit flag: 1 is `REUSE` (R97). -/
def headerOfFlag (flag : Nat) : Option HeaderForm :=
  if flag = 1 then some .reuse else none

/-- The 3-bit field `a`: 7 escapes (R95, R97). -/
def headerOfA (a : Nat) : Option HeaderForm :=
  if a < 7 then some (.abs3 (BitVec.ofNat 3 a)) else none

/-- The 2-bit field `b`: 3 escapes (R95, R97). -/
def headerOfB (b : Nat) : Option HeaderForm :=
  if b < 3 then some (.abs5 (BitVec.ofNat 2 b)) else none

/-- The 6-bit field `c`: widths above 64 are the reserved form (R98). -/
def headerOfC (c : Nat) : HeaderForm :=
  if c ≤ 54 then .abs11 (BitVec.ofNat 6 c) else .abs11Illegal (BitVec.ofNat 6 c)

/-- Why a bit string is no header. -/
inductive DecodeError where
  /-- The bits end inside the header. -/
  | truncated
  /-- Bits are left after the header. -/
  | trailing
deriving DecidableEq, Repr

/-- The number a stream bit string stands for: least significant bit first (00_scope.md R5). -/
def bitsToNat : List Bool → Nat
  | [] => 0
  | b :: bs => b.toNat + 2 * bitsToNat bs

/-- A field of `n` bits taken from a stream bit string. -/
def takeField (n : Nat) (bits : List Bool) : Except DecodeError (Nat × List Bool) :=
  if n ≤ bits.length then .ok (bitsToNat (bits.take n), bits.drop n) else .error .truncated

/-- The header that a stream bit string begins with, and the bits after it (R97). -/
def decodeHeader (bits : List Bool) : Except DecodeError (HeaderForm × List Bool) :=
  match takeField 1 bits with
  | .error e => .error e
  | .ok (flag, bits1) =>
    match headerOfFlag flag with
    | some f => .ok (f, bits1)
    | none =>
      match takeField 3 bits1 with
      | .error e => .error e
      | .ok (a, bits2) =>
        match headerOfA a with
        | some f => .ok (f, bits2)
        | none =>
          match takeField 2 bits2 with
          | .error e => .error e
          | .ok (b, bits3) =>
            match headerOfB b with
            | some f => .ok (f, bits3)
            | none =>
              match takeField 6 bits3 with
              | .error e => .error e
              | .ok (c, bits4) => .ok (headerOfC c, bits4)

/-! ### The encoder -/

/-- The length of a header form in bits, its flag included (R93, C10). -/
def HeaderForm.length : HeaderForm → Nat
  | .reuse => 1
  | .abs3 _ => 4
  | .abs5 _ => 6
  | .abs11 _ => 12
  | .abs11Illegal _ => 12

/-- The header as one integer `H`: bit `i` is the header bit at offset `i` (R94). -/
def HeaderForm.value : HeaderForm → Nat
  | .reuse => 1
  | .abs3 a => 2 * a.toNat
  | .abs5 b => 0x0E + 16 * b.toNat
  | .abs11 c => 0x3E + 64 * c.toNat
  | .abs11Illegal c => 0x3E + 64 * c.toNat

/-- The `n` stream bits of the number `v`, least significant bit first (R5). -/
def fieldBits (n v : Nat) : List Bool := (List.range n).map v.testBit

/-- The stream bits of a header form (R93). -/
def HeaderForm.bits (f : HeaderForm) : List Bool := fieldBits f.length f.value

/-- The words of an instruction: a byte for `CMD`, or bits of the stream. -/
inductive Code where
  | command (opcode : Byte)
  | header (bits : List Bool)
deriving DecidableEq, Repr

/-- The encoding of an instruction (R93, R103, R104). -/
def encode : Instr → Code
  | .rdbit => .command 0x01#8
  | .rdbits => .command 0x02#8
  | .wrbits => .command 0x03#8
  | .posbits => .command 0x04#8
  | .align => .command 0x05#8
  | .seek => .command 0x06#8
  | .blkwidth => .command 0x10#8
  | .encblk => .command 0x11#8
  | .decblk => .command 0x12#8
  | .enchdr => .command 0x20#8
  | .dechdr => .command 0x21#8
  | .encframe => .command 0x30#8
  | .decframe => .command 0x31#8
  | .scanframe => .command 0x32#8
  | .reset => .command 0x7F#8
  | .reuse => .header (HeaderForm.bits .reuse)
  | .abs3 a => .header (HeaderForm.bits (.abs3 a))
  | .abs5 b => .header (HeaderForm.bits (.abs5 b))
  | .abs11 c => .header (HeaderForm.bits (.abs11 c))
  | .abs11Illegal c => .header (HeaderForm.bits (.abs11Illegal c))
  | .illegal op => .command op

/-- Decoding whole: a command byte always stands for an instruction, a bit string does when it is
exactly one header. -/
def decode : Code → Except DecodeError Instr
  | .command c => .ok (decodeCommand c)
  | .header bits =>
    match decodeHeader bits with
    | .error e => .error e
    | .ok (f, []) => .ok f.toInstr
    | .ok (_, _ :: _) => .error .trailing

/-! ### The opcode table's words -/

/-- Which of the two spaces of the opcode table a word of `nbits` bits belongs to. The table numbers
command bytes and header bits alike, so a word of 8 bits may be meant either way: an opcode of R103 is a
command; any other byte that is a header of at most 8 bits with zeros above it is that header; every
other byte is an illegal command (DESIGN CHOICE, log entry 8). -/
def tableCode (nbits w : Nat) : Code :=
  let headerCode (n : Nat) : Code :=
    match decodeHeader (fieldBits n w) with
    | .ok (f, rest) => if rest.all (! ·) then .header f.bits else .header (fieldBits n w)
    | .error _ => .header (fieldBits n w)
  if nbits = 8 then
    if opcodes.contains (BitVec.ofNat 8 w) then .command (BitVec.ofNat 8 w)
    else
      match headerCode 8 with
      | .header bits => if bits.length < 8 then .header bits else .command (BitVec.ofNat 8 w)
      | c => c
  else headerCode (max nbits 1)

/-- The instruction the decoder reads from a word of the opcode table, numbered as the table numbers its
bits (bit 0 the first). -/
def decodeTableWord (nbits w : Nat) : Option Instr :=
  match decode (tableCode nbits w) with
  | .ok i => some i
  | .error _ => none

end Sys2Proof
end

