-- ==== Sys2Proof/Machine/Header.lean ====
section
/-! DEFINITION. The header code: `ENCHDR`, `DECHDR` and the stream forms `REUSE`, `ABS3`, `ABS5`, `ABS11`
and the reserved `ABS11` (42_header_code.md; 30_encoding.md R93 to R99). -/

namespace Sys2Proof.Machine

/-! ### Encode -/

/-- The form the encoder chooses for the width `w` after the width `prev`: `REUSE` exactly when they are
equal, else the one absolute form that holds `w` (R107, R160). -/
def formFor (w prev : Nat) : HeaderForm :=
  if w = prev then .reuse
  else if w < 7 then .abs3 (BitVec.ofNat 3 w)
  else if w < 10 then .abs5 (BitVec.ofNat 2 (w - 7))
  else .abs11 (BitVec.ofNat 6 (w - 10))

/-- `CUR_W <- w`, and `PREV_W <- w` if that is not what it holds already (R160). -/
def setEncodedWidth (w : Nat) (s : State) : State :=
  { s with
    prevW := if w ≠ s.prevW.toNat then BitVec.ofNat 7 w else s.prevW
    curW := BitVec.ofNat 7 w }

/-- `enc_header(w)`: the header goes out as one field (R160, D36). -/
def encHeader (w : Nat) (s : State) : Run Unit :=
  let form := formFor w s.prevW.toNat
  (writeField form.value form.length s).bind fun _ s => .done () (setEncodedWidth w s)

/-! ### Decode: fetching a form -/

/-- The fields of a header are fetched one after another, because its length is not known in advance; a
read that overruns leaves the position after the fields already read (R97, R162). -/
def fetchHeader (s : State) : Run HeaderForm :=
  (readField 1 s).bind fun flag s =>
  match headerOfFlag flag with
  | some f => .done f s
  | none =>
    (readField 3 s).bind fun a s =>
    match headerOfA a with
    | some f => .done f s
    | none =>
      (readField 2 s).bind fun b s =>
      match headerOfB b with
      | some f => .done f s
      | none => (readField 6 s).bind fun c s => .done (headerOfC c) s

/-! ### Decode: the effect of a fetched form, which answers the block's width -/

/-- The effect of an absolute form: `PREV_W <- w`, `CUR_W <- w` (R162). -/
def setDecodedWidth (w : Nat) (s : State) : Run Nat :=
  .done w { s with prevW := BitVec.ofNat 7 w, curW := BitVec.ofNat 7 w }

/-- `REUSE`: `w = PREV_W`, which stays (R95, R162). -/
def applyReuse (s : State) : Run Nat := .done s.prevW.toNat { s with curW := s.prevW }

/-- `ABS3`: `w = a` (R95, R162). -/
def applyAbs3 (a : BitVec 3) (s : State) : Run Nat := setDecodedWidth a.toNat s

/-- `ABS5`: `w = 7 + b` (R95, R162). -/
def applyAbs5 (b : BitVec 2) (s : State) : Run Nat := setDecodedWidth (7 + b.toNat) s

/-- `ABS11`: `w = 10 + c` (R95, R162). -/
def applyAbs11 (c : BitVec 6) (s : State) : Run Nat := setDecodedWidth (10 + c.toNat) s

/-- The reserved `ABS11`: `WidthOutOfRange`, `PREV_W` and `CUR_W` unchanged, whatever `c` is (R98). -/
def applyAbs11Illegal (_c : BitVec 6) (s : State) : Run Nat := raiseRun .widthOutOfRange s

/-- The effect of a header form whose bits have been read. -/
def applyHeader (f : HeaderForm) (s : State) : Run Nat :=
  match f with
  | .reuse => applyReuse s
  | .abs3 a => applyAbs3 a s
  | .abs5 b => applyAbs5 b s
  | .abs11 c => applyAbs11 c s
  | .abs11Illegal c => applyAbs11Illegal c s

/-- `dec_header()` (R162). -/
def decHeader (s : State) : Run Nat := (fetchHeader s).bind applyHeader

/-! ### The commands -/

/-- `ENCHDR` (R161). -/
def execEnchdr (s : State) : Host.Outcome State Fault Refusal :=
  runCommand [badWidth s] (encHeader s.opN) s

/-- `DECHDR` (R163). -/
def execDechdr (s : State) : Host.Outcome State Fault Refusal :=
  runCommand [] (fun s => (decHeader s).bind fun w s => .done () (setResult w s)) s

/-! ### The stream forms as instructions: the header at `POS` is passed and its effect follows -/

/-- A stream form of `n` bits executed at `POS`: the bits are passed, then `effect` follows. A faulted
core runs none (R210; DESIGN CHOICE, log entry 10). -/
def runHeader (n : Nat) (effect : State → Run Nat) (s : State) : Host.Outcome State Fault Refusal :=
  runCommand [] (fun s => (effect (advance n s)).bind fun _ s => .done () s) s

/-- `REUSE` (R93, R162). -/
def execReuse (s : State) : Host.Outcome State Fault Refusal := runHeader 1 applyReuse s

/-- `ABS3` (R93, R162). -/
def execAbs3 (a : BitVec 3) (s : State) : Host.Outcome State Fault Refusal := runHeader 4 (applyAbs3 a) s

/-- `ABS5` (R93, R162). -/
def execAbs5 (b : BitVec 2) (s : State) : Host.Outcome State Fault Refusal := runHeader 6 (applyAbs5 b) s

/-- `ABS11` (R93, R162). -/
def execAbs11 (c : BitVec 6) (s : State) : Host.Outcome State Fault Refusal := runHeader 12 (applyAbs11 c) s

/-- `ABS11_ILLEGAL` (R98). -/
def execAbs11Illegal (c : BitVec 6) (s : State) : Host.Outcome State Fault Refusal :=
  runHeader 12 (applyAbs11Illegal c) s

end Sys2Proof.Machine
end

