-- ==== Sys2Proof/Machine/Frame.lean ====
section
/-! DEFINITION. The frame codec: `ENCFRAME`, `DECFRAME`, `SCANFRAME` (43_frame_codec.md). -/

namespace Sys2Proof.Machine

/-! ### Common parts -/

/-- `frame_start()` (R181). -/
def frameStart (s : State) : State := { seekPos s with prevW := 0#7, consumed := 0#64 }

/-- `frame_end()` (R181). -/
def frameEnd (s : State) : State :=
  { alignPos s with nextOff := BitVec.ofNat 64 ((alignPos s).pos.toNat / 8) }

/-- `k = min(BLOCK_SIZE, FRAME_LEN - CONSUMED)` (R180). -/
def blockCount (s : State) : Nat := min s.blockSize.toNat (s.frameLen.toNat - s.consumed.toNat)

/-- `CONSUMED <- CONSUMED + k` (R180). -/
def consume (k : Nat) (s : State) : State := { s with consumed := s.consumed + BitVec.ofNat 64 k }

/-- `while CONSUMED < FRAME_LEN`: `block k` and then `CONSUMED <- CONSUMED + k`, at most `fuel` times.
Every block consumes at least one value, so `FRAME_LEN` times are enough (R180; DEDUCED, log entry
11). -/
def frameBlocks (block : Nat → State → Run Unit) (fuel : Nat) (s : State) : Run Unit :=
  match fuel with
  | 0 => .done () s
  | fuel + 1 =>
    if s.consumed.toNat < s.frameLen.toNat then
      (block (blockCount s) s).bind fun _ s1 => frameBlocks block fuel (consume (blockCount s) s1)
    else .done () s

/-- A frame command after its checks: start, blocks, end; a fault in a block leaves out the end (R181). -/
def runFrame (block : Nat → State → Run Unit) (s : State) : Run Unit :=
  (frameBlocks block s.frameLen.toNat (frameStart s)).bind fun _ s => .done () (frameEnd s)

/-! ### Encode -/

/-- `MAX_W <- max(MAX_W, w)` (R185). -/
def raiseMaxW (w : Nat) (s : State) : State := { s with maxW := BitVec.ofNat 7 (max s.maxW.toNat w) }

/-- One block of `ENCFRAME`: steps 1a to 1d (R182). -/
def encFrameBlock (k : Nat) (s : State) : Run Unit :=
  let w := blockWidth s s.consumed.toNat k
  (encHeader w s).bind fun _ s1 =>
  (encBlock s1.consumed.toNat k w s1).bind fun _ s2 => .done () (raiseMaxW w s2)

/-- The checks of `ENCFRAME` (R182, R223). -/
def encframeChecks (s : State) : List (Bool × FaultKind) := [badBlockSize s, badOffset s, frameTooLong s]

/-- `ENCFRAME` (R182). -/
def execEncframe (s : State) : Host.Outcome State Fault Refusal :=
  runCommand (encframeChecks s) (runFrame encFrameBlock) s

/-! ### Decode -/

/-- One block of `DECFRAME`: steps 2a and 2b (R184). -/
def decFrameBlock (k : Nat) (s : State) : Run Unit :=
  (decHeader s).bind fun w s1 => decBlock s1.consumed.toNat k w s1

/-- The checks of `DECFRAME` (R184, R223). -/
def decframeChecks (s : State) : List (Bool × FaultKind) :=
  [badBlockSize s, badOffset s, signedIntoUnsigned s, frameTooLong s]

/-- `DECFRAME` (R184). -/
def execDecframe (s : State) : Host.Outcome State Fault Refusal :=
  runCommand (decframeChecks s) (runFrame decFrameBlock) s

/-! ### Scan -/

/-- The payload skip of `SCANFRAME`: checked like a read, nothing is read (R186, D18). -/
def skipPayload (n : Nat) (s : State) : Run Unit :=
  if inBounds s n then .done () (advance n s) else raiseRun .readOverrun s

/-- One block of `SCANFRAME` (R186). -/
def scanFrameBlock (k : Nat) (s : State) : Run Unit :=
  (decHeader s).bind fun w s1 => skipPayload (w * k) s1

/-- The checks of `SCANFRAME` (R186, R223). -/
def scanframeChecks (s : State) : List (Bool × FaultKind) := [badBlockSize s, badOffset s]

/-- `SCANFRAME` (R186). -/
def execScanframe (s : State) : Host.Outcome State Fault Refusal :=
  runCommand (scanframeChecks s) (runFrame scanFrameBlock) s

end Sys2Proof.Machine
end

