-- ==== Sys2Proof/Machine/System.lean ====
section
/-! DEFINITION. System operations: `RESET` (44_system.md R211) and the illegal opcodes (30_encoding.md
R104). -/

namespace Sys2Proof.Machine

/-- `RESET`: accepted in every state, faulted or not (R210, R211). -/
def execReset (s : State) : Host.Outcome State Fault Refusal := .next (resetRegisters s)

/-- An opcode that is not in the map of R103 raises `IllegalCommand` and does nothing else (R104, R210). -/
def execIllegal (_opcode : Byte) (s : State) : Host.Outcome State Fault Refusal :=
  runCommand [(true, .illegalCommand)] (fun s => .done () s) s

end Sys2Proof.Machine
end

