-- ==== Sys2Proof/Machine/Dispatch.lean ====
section
/-! DEFINITION. What each instruction does: one arm per constructor of `Instr`. -/

namespace Sys2Proof.Machine

def exec (i : Instr) (s : State) : Host.Outcome State Fault Refusal :=
  match i with
  | .rdbit => Sys2Proof.Machine.execRdbit s
  | .rdbits => Sys2Proof.Machine.execRdbits s
  | .wrbits => Sys2Proof.Machine.execWrbits s
  | .posbits => Sys2Proof.Machine.execPosbits s
  | .align => Sys2Proof.Machine.execAlign s
  | .seek => Sys2Proof.Machine.execSeek s
  | .blkwidth => Sys2Proof.Machine.execBlkwidth s
  | .encblk => Sys2Proof.Machine.execEncblk s
  | .decblk => Sys2Proof.Machine.execDecblk s
  | .enchdr => Sys2Proof.Machine.execEnchdr s
  | .dechdr => Sys2Proof.Machine.execDechdr s
  | .encframe => Sys2Proof.Machine.execEncframe s
  | .decframe => Sys2Proof.Machine.execDecframe s
  | .scanframe => Sys2Proof.Machine.execScanframe s
  | .reset => Sys2Proof.Machine.execReset s
  | .reuse => Sys2Proof.Machine.execReuse s
  | .abs3 a => Sys2Proof.Machine.execAbs3 a s
  | .abs5 b => Sys2Proof.Machine.execAbs5 b s
  | .abs11 c => Sys2Proof.Machine.execAbs11 c s
  | .abs11Illegal c => Sys2Proof.Machine.execAbs11Illegal c s
  | .illegal opcode => Sys2Proof.Machine.execIllegal opcode s

end Sys2Proof.Machine
end

