-- ==== Sys2Proof/Machine/HostAccess.lean ====
section
/-! DEFINITION. What the host can do to the core (10_state.md R22 to R30, R37; 44_system.md R210, R212) and
the hardware reset (70_reset_and_hazards.md R260). -/

namespace Sys2Proof.Machine

/-! ### Register access -/

/-- What a host read of a register returns, zero-extended: `CMD` and absent registers read 0 (R22), `STATUS`
shows only its bit 0 (R22). A read has no side effect on the core (R66). -/
def readRegister (s : State) (number : Nat) : Word :=
  match number with
  | 1 => (s.status &&& 1#8).setWidth 64
  | 2 => s.err.setWidth 64
  | 3 => s.cfg.setWidth 64
  | 4 => s.blockSize
  | 5 => s.frameLen
  | 6 => s.bufLen
  | 7 => s.maxW.setWidth 64
  | 8 => s.prevW.setWidth 64
  | 9 => s.curW.setWidth 64
  | 10 => s.consumed
  | 11 => s.pos
  | 12 => s.nextOff
  | 13 => s.aVal
  | 14 => s.aN.setWidth 64
  | 15 => s.aK
  | 16 => s.aIdx
  | 17 => s.aOff
  | 18 => s.rVal
  | _ => 0#64

/-- A host write of an 8-bit register: what does not fit has no meaning (DESIGN CHOICE, log
entry 6). -/
def withByte (v : Word) (f : Byte → State) : Host.Outcome State Fault Refusal :=
  if v.toNat < 256 then .next (f (v.setWidth 8)) else .refused .hostValueTooWide

/-- A host write of a register other than `CMD`: `CFG` drops its reserved bits (R24), `BUF_LEN` ignores a
value above `BUF_CAP` (R27), `MAX_W` and `PREV_W` ignore a value above 64 (R28, R29), read-only and absent
registers ignore every write (R22). -/
def writeRegister (number : Nat) (v : Word) (s : State) : Host.Outcome State Fault Refusal :=
  match number with
  | 3 => withByte v fun b => { s with cfg := b &&& 0x3F#8 }
  | 4 => .next { s with blockSize := v }
  | 5 => .next { s with frameLen := v }
  | 6 => .next (if v.toNat ≤ Config.bufCap then { s with bufLen := v } else s)
  | 7 => .next (if v.toNat ≤ 64 then { s with maxW := v.setWidth 7 } else s)
  | 8 => .next (if v.toNat ≤ 64 then { s with prevW := v.setWidth 7 } else s)
  | 13 => .next { s with aVal := v }
  | 14 => withByte v fun b => { s with aN := b }
  | 15 => .next { s with aK := v }
  | 16 => .next { s with aIdx := v }
  | 17 => .next { s with aOff := v }
  | _ => .next s

/-- What the host's read returned. -/
def setHostData (v : Word) (s : State) : State := { s with hostData := v }

/-- An access to cell `a` of a memory of `cap` cells; a cell outside it does not exist (R37, U19;
DEDUCED, log entry 7). -/
def withCell (a cap : Nat) (t : State) : Host.Outcome State Fault Refusal :=
  if a < cap then .next t else .fault .absentCell

/-! ### Commands and resets -/

/-- The host writes an opcode to `CMD`: the command runs to its end before the write returns (R23, R210). -/
def issueCommand (c : Byte) (s : State) : Host.Outcome State Fault Refusal := exec (decodeCommand c) s

/-- The end state of a command, for working out what it could write. -/
def endState (c : Byte) (s : State) : State :=
  match issueCommand c s with
  | .next t => t
  | .fault _ => s
  | .refused _ => s

/-- Whether an unfaulted core starts the pseudocode of a command with these checks. -/
def starts (checks : List (Bool × FaultKind)) (s : State) : Bool :=
  !s.faulted && (firstFailing checks).isNone

/-- The bytes of `BUF` a command could write, from the first one on: an encode writes from where the
cursor stands when it starts to where it stands at its end (R229, R260, U22). -/
def couldWriteBuf (c : Byte) (s : State) : Nat × Nat :=
  let stop := ((endState c s).pos.toNat + 7) / 8
  let fromPos := if s.pos = (endState c s).pos then (0, 0) else (s.pos.toNat / 8, stop - s.pos.toNat / 8)
  match decodeCommand c with
  | .wrbits => fromPos
  | .encblk => fromPos
  | .enchdr => fromPos
  | .encframe => if starts (encframeChecks s) s then (s.aOff.toNat, stop - s.aOff.toNat) else (0, 0)
  | _ => (0, 0)

/-- The cells of `VOUT` a command could write, from the first one on (R145, R184, U22). -/
def couldWriteVout (c : Byte) (s : State) : Nat × Nat :=
  match decodeCommand c with
  | .decblk => if starts (decblkChecks s) s then (s.opIdx, s.opK) else (0, 0)
  | .decframe => if starts (decframeChecks s) s then (0, s.frameLen.toNat) else (0, 0)
  | _ => (0, 0)

/-- `count` bytes of `BUF` from `j` on take free values (U22). -/
def freeBuf (j count : Nat) (s : State) : State :=
  match count with
  | 0 => s
  | count + 1 =>
    freeBuf (j + 1) count { s.putBuf j (Config.freeByte s.freeCount) with freeCount := s.freeCount + 1 }

/-- `count` cells of `VOUT` from `i` on take free values (U22). -/
def freeVout (i count : Nat) (s : State) : State :=
  match count with
  | 0 => s
  | count + 1 =>
    freeVout (i + 1) count { s.putVout i (Config.freeCell s.freeCount) with freeCount := s.freeCount + 1 }

/-- A hardware reset while the command `c` runs: the registers take their reset values, and the cells the
command could write are unknown (R227, R260, U22; DESIGN CHOICE, log entry 5). -/
def resetDuring (c : Byte) (s : State) : State :=
  resetRegisters
    (freeVout (couldWriteVout c s).1 (couldWriteVout c s).2
      (freeBuf (couldWriteBuf c s).1 (couldWriteBuf c s).2 s))

/-! ### One access of the host -/

/-- What one host action does to the core (R37, R212). -/
def hostAct (a : HostAction) (s : State) : Host.Outcome State Fault Refusal :=
  match a with
  | .writeReg 0 v => if v.toNat < 256 then issueCommand (v.setWidth 8) s else .refused .hostValueTooWide
  | .writeReg number v => writeRegister number v s
  | .readReg number => .next (setHostData (readRegister s number) s)
  | .writeBuf j b => withCell j Config.bufCap (s.putBuf j b)
  | .readBuf j => withCell j Config.bufCap (setHostData ((s.bufByte j).setWidth 64) s)
  | .writeVin i v => withCell i Config.valCap (s.putVin i v)
  | .readVin i => withCell i Config.valCap (setHostData (s.vinCell i) s)
  | .writeVout i v => withCell i Config.valCap (s.putVout i v)
  | .readVout i => withCell i Config.valCap (setHostData (s.voutCell i) s)
  | .hardReset => .next (resetRegisters s)
  | .hardResetDuring c => .next (resetDuring c s)

/-- The host's next action and the state in which it finds the core; `none` when the host does nothing
(R260: the idle core waits). -/
def nextAction (s : State) : Option (HostAction × State) :=
  match s.host with
  | [] => none
  | a :: rest => some (a, { s with host := rest })

/-! ### Placing one instruction where the next step finds it -/

/-- Stores whole bytes, made of stream bits, from `BUF[j]` on; bits missing in the last byte are 0. -/
def storeBits (count j : Nat) (bits : List Bool) (s : State) : State :=
  match count with
  | 0 => s
  | count + 1 => storeBits count (j + 1) (bits.drop 8) (s.putBuf j (BitVec.ofNat 8 (bitsToNat (bits.take 8))))

/-- Stores the bits of a header at the cursor, zeros after them to the end of the byte, and makes
`BUF_LEN` cover them. -/
def placeHeader (bits : List Bool) (s : State) : State :=
  let j := s.pos.toNat / 8
  let all := (List.range (s.pos.toNat % 8)).map (fun b => s.bufBit (8 * j + b)) ++ bits
  let count := (all.length + 7) / 8
  { storeBits count j all s with bufLen := BitVec.ofNat 64 (max s.bufLen.toNat (j + count)) }

/-- Makes a write of the opcode `c` to `CMD` the host's next action. -/
def placeCommand (c : Byte) (s : State) : State :=
  { s with host := .writeReg 0 (c.setWidth 64) :: s.host }

/-- Places the words of an instruction so that the next step runs it: a command as the host's next write
to `CMD`; a block header in `BUF` at the cursor, with `DECHDR` as the next command, since a header is
fetched only by a command (R59, R183; DESIGN CHOICE, log entry 9). -/
def placeCode (c : Code) (s : State) : State :=
  match c with
  | .command opcode => placeCommand opcode s
  | .header bits => placeCommand 0x21#8 (placeHeader bits s)

end Sys2Proof.Machine
end

