-- ==== Sys2Proof/Machine/Step.lean ====
section
/-! DEFINITION. One step of the machine: the host's next action, which for a write of `CMD` is a whole
command (10_state.md R20, R37; 44_system.md R210). -/

namespace Sys2Proof.Machine

/-- One step: the host's next access is made and, if it issues a command, the command runs to its end
(R37, R210); with no access waiting the core stays idle (R260). -/
def step (s : State) : Host.Outcome State Fault Refusal :=
  match nextAction s with
  | none => .next s
  | some (a, s') => hostAct a s'

/-- `s` with the instruction whose bits are `w`, as spec/opcode_table.json numbers them, placed where the
next step finds it (DESIGN CHOICE, log entries 3 and 9). -/
def State.withFetchWord (s : State) (nbits w : Nat) : State := placeCode (tableCode nbits w) s

end Sys2Proof.Machine
end

