-- ==== Sys2Proof/Machine/DecoderMachine.lean ====
section
/-! DEFINITION. The decoder's state machine of 43_frame_codec.md R183, the small-step form of `DECFRAME` and
`SCANFRAME`. Its states are internal (R37, R183), so it is no part of `State`. -/

namespace Sys2Proof.Machine

/-- The two commands that run the machine of R183. -/
inductive DecoderCommand where
  | decframe
  | scanframe
deriving DecidableEq, Repr

/-- The states of R183, with what the pseudocode hands from one to the next. -/
inductive DecoderPhase where
  | readHeader
  /-- The width `w` and count `k` of the block whose payload is next. -/
  | readPayload (w k : Nat)
  | done
  /-- The command has completed. -/
  | complete
  /-- A fault ended the command. -/
  | faulted
deriving DecidableEq, Repr

/-- The start rows of R183. -/
def decoderStart (s : State) : DecoderPhase × State :=
  (if s.frameLen.toNat = 0 then .done else .readHeader, frameStart s)

/-- What `ReadPayload` does: decode the fields, or skip their bits (R183). -/
def decoderPayload (c : DecoderCommand) (w k : Nat) (s : State) : Run Unit :=
  match c with
  | .decframe => decBlock s.consumed.toNat k w s
  | .scanframe => skipPayload (w * k) s

/-- One transition of R183. -/
def decoderNext (c : DecoderCommand) (p : DecoderPhase × State) : DecoderPhase × State :=
  match p.1 with
  | .readHeader =>
    match decHeader p.2 with
    | .done w s => (.readPayload w (blockCount s), s)
    | .raised s => (.faulted, s)
  | .readPayload w k =>
    match decoderPayload c w k p.2 with
    | .done _ s =>
      (if s.frameLen.toNat ≤ (consume k s).consumed.toNat then .done else .readHeader, consume k s)
    | .raised s => (.faulted, s)
  | .done => (.complete, frameEnd p.2)
  | .complete => p
  | .faulted => p

/-- `n` transitions of R183. -/
def decoderRun (c : DecoderCommand) (n : Nat) (p : DecoderPhase × State) : DecoderPhase × State :=
  match n with
  | 0 => p
  | n + 1 => decoderRun c n (decoderNext c p)

end Sys2Proof.Machine
end

