-- ==== Sys2Proof/Machine/Layout.lean ====
section
/-! DEFINITION. The layout of a frame in the stream (30_encoding.md R90 to R97) and its size
(42_header_code.md R164, 43_frame_codec.md R188), as lists of bits: what the frame commands read and write,
said without a machine. -/

namespace Sys2Proof

/-- The width a header form gives after the width `prev` (R93, R95). -/
def HeaderForm.width (prev : Nat) (f : HeaderForm) : Nat :=
  match f with
  | .reuse => prev
  | .abs3 a => a.toNat
  | .abs5 b => 7 + b.toNat
  | .abs11 c => 10 + c.toNat
  | .abs11Illegal c => 10 + c.toNat

/-- Whether a decoder accepts the form (R98). -/
def HeaderForm.legal (f : HeaderForm) : Bool :=
  match f with
  | .reuse => true
  | .abs3 a => HeaderForm.wellFormed (.abs3 a)
  | .abs5 b => HeaderForm.wellFormed (.abs5 b)
  | .abs11 c => HeaderForm.wellFormed (.abs11 c)
  | .abs11Illegal _ => false

end Sys2Proof

namespace Sys2Proof.Machine

/-- `hdr_len(w, prev)` (R164). -/
def hdrLen (w prev : Nat) : Nat :=
  if w = prev then 1 else if w ≤ 6 then 4 else if w ≤ 9 then 6 else 12

/-- One block of a stream: its header, and its fields as numbers (R92). -/
structure StreamBlock where
  form : HeaderForm
  fields : List Nat
deriving DecidableEq, Repr

/-- The fields of a block, each of `w` bits (R92). -/
def payloadBits (w : Nat) (fields : List Nat) : List Bool := fields.flatMap (fieldBits w)

/-- The bits of the blocks of a frame, back to back (R91, R92, R95). -/
def blockBits (prev : Nat) (blocks : List StreamBlock) : List Bool :=
  match blocks with
  | [] => []
  | b :: rest =>
    b.form.bits ++ payloadBits (b.form.width prev) b.fields ++ blockBits (b.form.width prev) rest

/-- The width after the last block (R165). -/
def lastWidth (prev : Nat) (blocks : List StreamBlock) : Nat :=
  match blocks with
  | [] => prev
  | b :: rest => lastWidth (b.form.width prev) rest

/-- The greatest of `m` and the blocks' widths (R185). -/
def widest (m prev : Nat) (blocks : List StreamBlock) : Nat :=
  match blocks with
  | [] => m
  | b :: rest => widest (max m (b.form.width prev)) (b.form.width prev) rest

/-- The blocks cut `n` values into pieces of `size`, only the last one shorter (R91, R180). -/
def blocksCover (size n : Nat) (blocks : List StreamBlock) : Bool :=
  match blocks with
  | [] => decide (n = 0)
  | b :: rest =>
    decide (0 < n) && decide (b.fields.length = min size n) && blocksCover size (n - min size n) rest

/-- Every header is one a decoder accepts, and every field fits its width (R96, R98). -/
def blocksLegal (prev : Nat) (blocks : List StreamBlock) : Bool :=
  match blocks with
  | [] => true
  | b :: rest =>
    b.form.legal && b.fields.all (fun f => decide (f < 2 ^ b.form.width prev)) &&
      blocksLegal (b.form.width prev) rest

/-- The fields an encoder makes of the `k` source elements from `idx` on, under the width `w` (R96, R142). -/
def encodedFields (s : State) (w idx k : Nat) : List Nat :=
  (List.range k).map fun i => pat w (s.sourceValue (idx + i))

/-- The blocks an encoder makes of the source elements from `idx` on (R91, R107, R140, R142). -/
def encodedBlocks (s : State) (fuel idx prev : Nat) : List StreamBlock :=
  match fuel with
  | 0 => []
  | fuel + 1 =>
    if idx < s.frameLen.toNat then
      let k := min s.blockSize.toNat (s.frameLen.toNat - idx)
      let w := blockWidth s idx k
      ⟨formFor w prev, encodedFields s w idx k⟩ :: encodedBlocks s fuel (idx + k) w
    else []

/-- The blocks of the frame that `ENCFRAME` makes of `VIN` (R91, R182). -/
def encodedFrame (s : State) : List StreamBlock := encodedBlocks s s.frameLen.toNat 0 0

/-- The sink pattern a field of `w` bits decodes to: 0 where the width is 0 (R144, R145). -/
def decodedElement (s : State) (w f : Nat) : Nat := if w = 0 then 0 else decValue s f w

/-- The sink patterns the blocks decode to (R144, R145). -/
def decodedElements (s : State) (prev : Nat) (blocks : List StreamBlock) : List Nat :=
  match blocks with
  | [] => []
  | b :: rest =>
    b.fields.map (decodedElement s (b.form.width prev)) ++
      decodedElements s (b.form.width prev) rest

/-- `frame_bytes_max` (R188). -/
def frameBytesMax (s : State) : Nat :=
  let blocks := (s.frameLen.toNat + s.blockSize.toNat - 1) / s.blockSize.toNat
  let hdrMax := if s.srcWidth = 8 then 6 else 12
  (s.frameLen.toNat * s.srcWidth + hdrMax * blocks + 7) / 8

/-- The buffer holds these stream bits from bit address `p` on. -/
def holdsBits (s : State) (p : Nat) (bits : List Bool) : Prop :=
  ∀ i, i < bits.length → s.bufBit (p + i) = bits.getD i false

/-- The buffer changed from `s` to `t` by these stream bits ORed in at bit address `p`, and by nothing
else: a byte they do not touch holds what it held, and stays unwritten if it was (R61). -/
structure OredAt (s t : State) (p : Nat) (bits : List Bool) : Prop where
  bit : ∀ q, t.bufBit q = (s.bufBit q || (decide (p ≤ q) && bits.getD (q - p) false))
  outside : ∀ j, ¬(0 < bits.length ∧ p / 8 ≤ j ∧ 8 * j < p + bits.length) →
    Memory.read? t.buf j = Memory.read? s.buf j

/-- The sink changed from `s` to `t` by these patterns stored from cell `idx` on, and by nothing else: a
cell outside them holds what it held, and stays unwritten if it was (R30, R145). -/
structure StoredAt (s t : State) (idx : Nat) (values : List Nat) : Prop where
  cells : ∀ i, Memory.read? t.vout i =
    if idx ≤ i ∧ i < idx + values.length then some (BitVec.ofNat 64 (values.getD (i - idx) 0))
    else Memory.read? s.vout i

end Sys2Proof.Machine
end

