-- ==== Sys2Proof/Safety.lean ====
section
/-! DEFINITION. What the claims mean by an idle unfaulted core, by a command that completes, and by a state
in order. -/

namespace Sys2Proof.Machine

/-- The core accepts commands: `STATUS.FAULT = 0` (R36, R210). -/
abbrev Running (s : State) : Prop := s.faulted = false

/-- An access of `n` bits at `POS` is legal (R68). -/
abbrev Fits (s : State) (n : Nat) : Prop := s.pos.toNat + n ≤ 8 * s.bufLen.toNat

/-- `BUF_LEN ≤ BUF_CAP` (R27). -/
abbrev BufLenInCap (s : State) : Prop := s.bufLen.toNat ≤ Config.bufCap

/-- `8 * BUF_LEN` does not reach `2^64`, so no bit address wraps (R32). Every state in order is such a
state, because `BUF_LEN ≤ BUF_CAP < 2^60` (R27, D5). -/
abbrev NoWrap (s : State) : Prop := 8 * s.bufLen.toNat < 2 ^ 64

/-- The state a fault of this code leaves, the command having come as far as `s`: `STATUS.FAULT` is set,
`ERR` holds the code, and nothing else happens (R224). -/
def faultedWith (code : Byte) (s : State) : State := { s with status := s.status ||| 1#8, err := code }

/-- The flags agree: no fault and code 0, or a fault and the code of one the core raises (R36, R220). -/
abbrev FlagsAgree (s : State) : Prop :=
  (s.status = 0#8 ∧ s.err = 0#8) ∨
    (s.status = 1#8 ∧ s.err ≠ 0#8 ∧ s.err ≠ 3#8 ∧ s.err.toNat ≤ 9)

/-- The state is in order: the flags agree (R36); `CFG`'s reserved bits are 0 (R24); the width registers
hold 0..64 (R28, R29); `BUF_LEN` and the cursor stay inside the buffer (R27, R32); the memories are
canonical and hold only cells that exist (R27, R30). -/
structure State.Inv (s : State) : Prop where
  flags : FlagsAgree s
  cfg : s.cfg &&& 0xC0#8 = 0#8
  maxW : s.maxW.toNat ≤ 64
  prevW : s.prevW.toNat ≤ 64
  curW : s.curW.toNat ≤ 64
  bufLen : BufLenInCap s
  pos : s.pos.toNat ≤ 8 * Config.bufCap
  bufWf : Memory.wf s.buf = true
  vinWf : Memory.wf s.vin = true
  voutWf : Memory.wf s.vout = true
  bufBelow : Memory.below Config.bufCap s.buf = true
  vinBelow : Memory.below Config.valCap s.vin = true
  voutBelow : Memory.below Config.valCap s.vout = true

end Sys2Proof.Machine

namespace Sys2Proof

/-- The fault codes each instruction may raise (60_exceptions.md R220; the stream forms: R98). -/
def Instr.faultCodes (i : Instr) : List Byte :=
  match i with
  | .rdbit => [4#8]
  | .rdbits => [4#8, 7#8]
  | .wrbits => [5#8, 7#8]
  | .posbits => []
  | .align => []
  | .seek => [7#8]
  | .blkwidth => [2#8, 7#8, 8#8]
  | .encblk => [2#8, 5#8, 7#8, 8#8]
  | .decblk => [1#8, 2#8, 4#8, 7#8, 8#8]
  | .enchdr => [5#8, 7#8]
  | .dechdr => [4#8, 6#8]
  | .encframe => [2#8, 5#8, 7#8, 8#8]
  | .decframe => [1#8, 2#8, 4#8, 6#8, 7#8, 8#8]
  | .scanframe => [4#8, 6#8, 7#8, 8#8]
  | .reset => []
  | .reuse => []
  | .abs3 _ => []
  | .abs5 _ => []
  | .abs11 _ => []
  | .abs11Illegal _ => [6#8]
  | .illegal _ => [9#8]

end Sys2Proof
end

