-- ==== Sys2Proof/Certificates/Slice0/Obligations.lean ====
section
/-! DEFINITION. The statements for the provers. -/

section

open Sys2Proof Sys2Proof.Machine

/-! ### Encoding -/

/-- A few words written out from the opcode map (R103, R104) and the header forms (R93, R94, R98) decode to
what they stand for. -/
def Obligations.SampleWordsDecode : Prop :=
  decode (.command 0x02#8) = .ok .rdbits ∧
  decode (.command 0x12#8) = .ok .decblk ∧
  decode (.command 0x32#8) = .ok .scanframe ∧
  decode (.command 0x7F#8) = .ok .reset ∧
  decode (.command 0x00#8) = .ok (.illegal 0x00#8) ∧
  decode (.header [true]) = .ok .reuse ∧
  decode (.header [false, true, true, false]) = .ok (.abs3 3#3) ∧
  decode (.header [false, true, true, true, true, false]) = .ok (.abs5 1#2) ∧
  decode (.header [false, true, true, true, true, true, false, false, true, false, true, false]) =
    .ok (.abs11 20#6) ∧
  decode (.header [false, true, true, true, true, true, true, true, true, false, true, true]) =
    .ok (.abs11Illegal 55#6)

/-- Decode and encode are inverse to each other, over all instructions and all codes: a well-formed
instruction is decoded from its encoding, and whatever code decodes is the encoding of the well-formed
instruction it decodes to (R93, R98, R103, R104). -/
def Obligations.DecodeInvertsEncode : Prop :=
  (∀ i : Instr, i.wellFormed = true → decode (encode i) = .ok i) ∧
  (∀ (c : Code) (i : Instr), decode c = .ok i → i.wellFormed = true ∧ encode i = c)

/-- The decoder finds the end of a header without looking further: whatever bits follow a header, it is
the header that is decoded and those bits that are left (R97); so no header is a prefix of another (R166,
law 2). -/
def Obligations.HeaderDecodesBeforeAnyBits : Prop :=
  (∀ (f : HeaderForm) (rest : List Bool), f.wellFormed = true →
    decodeHeader (f.bits ++ rest) = .ok (f, rest)) ∧
  (∀ f g : HeaderForm, f.wellFormed = true → g.wellFormed = true → f.bits <+: g.bits → f = g)

/-- For a fixed `PREV_W` the encoder's headers of different widths are different bit strings, and each is
as long as `hdr_len` says (R164, R166 law 3). -/
def Obligations.HeadersOfDifferentWidthsDiffer : Prop :=
  ∀ (prev w : Nat), w ≤ 64 →
    (formFor w prev).bits.length = hdrLen w prev ∧
    (∀ v, v ≤ 64 → (formFor w prev).bits = (formFor v prev).bits → w = v)

/-! ### The bit cursor -/

/-- `RDBITS`, opcode 0x02 (R121): `A_N > 64` is `BadArgument`, a field beyond the buffer is `ReadOverrun`,
both with nothing else changed; otherwise `R_VAL` is the field at `POS`, least significant bit first, and
`POS` moves past it. -/
def Obligations.RdbitsReadsAField : Prop :=
  decodeCommand 0x02#8 = .rdbits ∧
  ∀ s : State, Running s →
    (64 < s.aN.toNat → exec .rdbits s = .next (faultedWith 7#8 s)) ∧
    (s.aN.toNat ≤ 64 → ¬Fits s s.aN.toNat → exec .rdbits s = .next (faultedWith 4#8 s)) ∧
    (s.aN.toNat ≤ 64 → Fits s s.aN.toNat →
      ∃ v : Word, (∀ i, v.getLsbD i = (decide (i < s.aN.toNat) && s.bufBit (s.pos.toNat + i))) ∧
        exec .rdbits s = .next { s with rVal := v, pos := s.pos + BitVec.ofNat 64 s.aN.toNat })

/-- `RDBIT`, opcode 0x01 (R122): the bit at `POS`, and the same as `RDBITS` with `n = 1` whatever `A_N`
holds. -/
def Obligations.RdbitReadsOneBit : Prop :=
  decodeCommand 0x01#8 = .rdbit ∧
  ∀ s : State, Running s →
    (Fits s 1 → exec .rdbit s =
      .next { s with rVal := if s.bufBit s.pos.toNat then 1#64 else 0#64, pos := s.pos + 1#64 }) ∧
    (¬Fits s 1 → exec .rdbit s = .next (faultedWith 4#8 s)) ∧
    (∃ t, exec .rdbits { s with aN := 1#8 } = .next t ∧ exec .rdbit s = .next { t with aN := s.aN })

/-- `WRBITS`, opcode 0x03 (R123): `A_N > 64` is `BadArgument`, a field beyond the buffer is `WriteOverrun`,
both with nothing else changed; otherwise the low `A_N` bits of `A_VAL` are ORed in at `POS`, every byte the
field does not touch keeps what it holds, and `POS` moves past the field. -/
def Obligations.WrbitsOrsAField : Prop :=
  decodeCommand 0x03#8 = .wrbits ∧
  ∀ s : State, Running s →
    (64 < s.aN.toNat → exec .wrbits s = .next (faultedWith 7#8 s)) ∧
    (s.aN.toNat ≤ 64 → ¬Fits s s.aN.toNat → exec .wrbits s = .next (faultedWith 5#8 s)) ∧
    (s.aN.toNat ≤ 64 → Fits s s.aN.toNat →
      ∃ t : State, exec .wrbits s = .next t ∧
        t = { s with buf := t.buf, pos := s.pos + BitVec.ofNat 64 s.aN.toNat } ∧
        (∀ q, t.bufBit q = (s.bufBit q ||
          (decide (s.pos.toNat ≤ q ∧ q < s.pos.toNat + s.aN.toNat) && s.aVal.getLsbD (q - s.pos.toNat)))) ∧
        (∀ j, ¬(0 < s.aN.toNat ∧ s.pos.toNat / 8 ≤ j ∧ j ≤ (s.pos.toNat + s.aN.toNat - 1) / 8) →
          Memory.read? t.buf j = Memory.read? s.buf j))

/-- `POSBITS`, opcode 0x04 (R124): `R_VAL <- POS` and nothing else. -/
def Obligations.PosbitsReportsThePosition : Prop :=
  decodeCommand 0x04#8 = .posbits ∧
  ∀ s : State, Running s → exec .posbits s = .next { s with rVal := s.pos }

/-- `ALIGN`, opcode 0x05 (R125): `POS` becomes the least multiple of 8 not below it and nothing else
changes; no fault, no bounds check, and inside the buffer it stays inside. The premise leaves out the last
seven positions below `2^64`, which no state in order has (R32). -/
def Obligations.AlignRoundsThePositionUp : Prop :=
  decodeCommand 0x05#8 = .align ∧
  ∀ s : State, Running s → s.pos.toNat ≤ 2 ^ 64 - 8 →
    ∃ p : Word, exec .align s = .next { s with pos := p } ∧
      p.toNat = 8 * ((s.pos.toNat + 7) / 8) ∧ p.toNat % 8 = 0 ∧ s.pos.toNat ≤ p.toNat ∧
      (∀ q, q % 8 = 0 → s.pos.toNat ≤ q → p.toNat ≤ q) ∧
      (s.pos.toNat ≤ 8 * s.bufLen.toNat → p.toNat ≤ 8 * s.bufLen.toNat)

/-- `SEEK`, opcode 0x06 (R126): `A_OFF > BUF_LEN` is `BadArgument` with nothing else changed; otherwise
`POS` is `8 * A_OFF` and nothing else changes. -/
def Obligations.SeekPlacesTheCursor : Prop :=
  decodeCommand 0x06#8 = .seek ∧
  ∀ s : State, Running s → NoWrap s →
    (s.bufLen.toNat < s.aOff.toNat → exec .seek s = .next (faultedWith 7#8 s)) ∧
    (s.aOff.toNat ≤ s.bufLen.toNat →
      ∃ p : Word, exec .seek s = .next { s with pos := p } ∧ p.toNat = 8 * s.aOff.toNat)

/-- Write then read (R127, law 1): `WRBITS` and then `RDBITS` from the same position returns the bits that
were there ORed with the low `n` bits of `A_VAL`; on zero bits, exactly those. -/
def Obligations.ReadAfterWrite : Prop :=
  ∀ s : State, Running s → NoWrap s → s.aN.toNat ≤ 64 → Fits s s.aN.toNat →
    ∃ t u, exec .wrbits s = .next t ∧ exec .rdbits { t with pos := s.pos } = .next u ∧
      u.pos = t.pos ∧
      (∀ i, i < s.aN.toNat → u.rVal.getLsbD i = (s.bufBit (s.pos.toNat + i) || s.aVal.getLsbD i)) ∧
      ((∀ i, i < s.aN.toNat → s.bufBit (s.pos.toNat + i) = false) →
        u.rVal.toNat = s.aVal.toNat % 2 ^ s.aN.toNat)

/-- Concatenation of writes (R127, law 2): two fields written one after the other leave the buffer and the
position that one write of the joined field leaves. -/
def Obligations.WritesConcatenate : Prop :=
  ∀ (s : State) (v1 v2 : Word) (n1 n2 : Nat), Running s → NoWrap s → n1 + n2 ≤ 64 → Fits s (n1 + n2) →
    ∃ t1 t2 u,
      exec .wrbits { s with aVal := v1, aN := BitVec.ofNat 8 n1 } = .next t1 ∧
      exec .wrbits { t1 with aVal := v2, aN := BitVec.ofNat 8 n2 } = .next t2 ∧
      exec .wrbits { s with
        aVal := BitVec.ofNat 64 (v1.toNat % 2 ^ n1 + v2.toNat % 2 ^ n2 * 2 ^ n1),
        aN := BitVec.ofNat 8 (n1 + n2) } = .next u ∧
      t2.pos = u.pos ∧ (∀ j, t2.bufByte j = u.bufByte j) ∧
      t2.faulted = false ∧ u.faulted = false

/-- Concatenation of reads (R62, R127 law 2): two fields read one after the other are the halves of the
field read at once. -/
def Obligations.ReadsConcatenate : Prop :=
  ∀ (s : State) (n1 n2 : Nat), Running s → NoWrap s → n1 + n2 ≤ 64 → Fits s (n1 + n2) →
    ∃ t1 t2 u,
      exec .rdbits { s with aN := BitVec.ofNat 8 n1 } = .next t1 ∧
      exec .rdbits { t1 with aN := BitVec.ofNat 8 n2 } = .next t2 ∧
      exec .rdbits { s with aN := BitVec.ofNat 8 (n1 + n2) } = .next u ∧
      t2.pos = u.pos ∧ u.rVal.toNat = t1.rVal.toNat + t2.rVal.toNat * 2 ^ n1 ∧
      t2.faulted = false ∧ u.faulted = false

/-! ### The block codec -/

/-- `BLKWIDTH`, opcode 0x10 (R140, R141): its checks in order, each with nothing else changed; otherwise
`R_VAL` is the width the greatest magnitude `M` of the block asks for, and nothing else changes. -/
def Obligations.BlkwidthComputesTheWidth : Prop :=
  decodeCommand 0x10#8 = .blkwidth ∧
  ∀ s : State, Running s →
    (s.blockSize = 0#64 → exec .blkwidth s = .next (faultedWith 8#8 s)) ∧
    (s.blockSize ≠ 0#64 → s.blockSize.toNat < s.aK.toNat → exec .blkwidth s = .next (faultedWith 7#8 s)) ∧
    (s.blockSize ≠ 0#64 → s.aK.toNat ≤ s.blockSize.toNat → Config.valCap < s.aIdx.toNat + s.aK.toNat →
      exec .blkwidth s = .next (faultedWith 2#8 s)) ∧
    (s.blockSize ≠ 0#64 → s.aK.toNat ≤ s.blockSize.toNat → s.aIdx.toNat + s.aK.toNat ≤ Config.valCap →
      ∃ M : Nat,
        (∀ i, i < s.aK.toNat → (s.sourceValue (s.aIdx.toNat + i)).natAbs ≤ M) ∧
        (M = 0 ∨ ∃ i, i < s.aK.toNat ∧ (s.sourceValue (s.aIdx.toNat + i)).natAbs = M) ∧
        exec .blkwidth s = .next
          { s with
            rVal := BitVec.ofNat 64
              (if s.signedMode then (if M = 0 then 0 else min (1 + bitlen M) s.srcWidth) else bitlen M) })

/-- The width of a block holds each of its values, is at most the source width, is never 1 for signed
values, and is 0 only for zeros (R140). -/
def Obligations.BlockWidthHoldsEveryValue : Prop :=
  ∀ (s : State) (idx k : Nat),
    blockWidth s idx k ≤ s.srcWidth ∧
    (s.signedMode = true → blockWidth s idx k ≠ 1) ∧
    (blockWidth s idx k = 0 ↔ ∀ i, i < k → s.sourceValue (idx + i) = 0) ∧
    (∀ i, i < k → ∀ w, blockWidth s idx k ≤ w → 0 < w →
      (if s.signedMode then sint w (pat w (s.sourceValue (idx + i))) else
        (pat w (s.sourceValue (idx + i)) : Int)) = s.sourceValue (idx + i))

/-- `ENCBLK` that fits, or has a width of 0 or no value to write (R142, R143): the fields of the block are
ORed in at `POS` and `POS` moves past them; nothing else changes, and a width of 0 or no value changes
nothing at all, wherever `POS` is. -/
def Obligations.EncblkWritesTheFields : Prop :=
  ∀ s : State, Running s → NoWrap s → s.blockSize ≠ 0#64 → s.aN.toNat ≤ 64 →
    s.aK.toNat ≤ s.blockSize.toNat → s.aIdx.toNat + s.aK.toNat ≤ Config.valCap →
    (s.aN.toNat = 0 ∨ s.aK.toNat = 0 ∨ Fits s (s.aK.toNat * s.aN.toNat)) →
    ∃ t : State, exec .encblk s = .next t ∧
      t = { s with buf := t.buf, pos := s.pos + BitVec.ofNat 64 (s.aK.toNat * s.aN.toNat) } ∧
      OredAt s t s.pos.toNat
        (payloadBits s.aN.toNat (encodedFields s s.aN.toNat s.aIdx.toNat s.aK.toNat))

/-- `ENCBLK` that overruns (R143, R229): the fields that fit stay written, `POS` is at the start of the
field that did not, and the fault is `WriteOverrun`. -/
def Obligations.EncblkOverrunKeepsWholeFields : Prop :=
  ∀ (s : State) (m : Nat), Running s → NoWrap s → s.blockSize ≠ 0#64 → s.aN.toNat ≤ 64 →
    s.aK.toNat ≤ s.blockSize.toNat → s.aIdx.toNat + s.aK.toNat ≤ Config.valCap →
    s.aN.toNat ≠ 0 → m < s.aK.toNat → (m = 0 ∨ Fits s (m * s.aN.toNat)) →
    ¬Fits s (m * s.aN.toNat + s.aN.toNat) →
    ∃ t : State, exec .encblk s = .next t ∧
      t = faultedWith 5#8 { s with buf := t.buf, pos := s.pos + BitVec.ofNat 64 (m * s.aN.toNat) } ∧
      OredAt s t s.pos.toNat (payloadBits s.aN.toNat (encodedFields s s.aN.toNat s.aIdx.toNat m))

/-- `DECBLK` that fits, or has a width of 0 or no value to read (R144, R145): each field at `POS` becomes
its sink pattern, zero-extended to a cell, in order from `VOUT[A_IDX]` on; `POS` moves past them; nothing
else changes. With a width of 0 the cells become 0 and nothing is read, and with no value nothing changes at
all, wherever `POS` is. -/
def Obligations.DecblkStoresTheValues : Prop :=
  ∀ s : State, Running s → NoWrap s → s.blockSize ≠ 0#64 → s.aN.toNat ≤ 64 →
    s.aK.toNat ≤ s.blockSize.toNat → (s.signedMode = true → s.tgtSigned = true) →
    s.aIdx.toNat + s.aK.toNat ≤ Config.valCap →
    (s.aN.toNat = 0 ∨ s.aK.toNat = 0 ∨ Fits s (s.aK.toNat * s.aN.toNat)) →
    ∃ t : State, exec .decblk s = .next t ∧
      t = { s with vout := t.vout, pos := s.pos + BitVec.ofNat 64 (s.aK.toNat * s.aN.toNat) } ∧
      StoredAt s t s.aIdx.toNat ((List.range s.aK.toNat).map fun i =>
        if s.aN.toNat = 0 then 0
        else decValue s (memRead s (s.pos.toNat + i * s.aN.toNat) s.aN.toNat) s.aN.toNat)

/-- `DECBLK` that overruns (R145, R229): the elements before the field that does not fit stay written,
`POS` is at the start of that field, and the fault is `ReadOverrun`. -/
def Obligations.DecblkOverrunKeepsWholeElements : Prop :=
  ∀ (s : State) (m : Nat), Running s → NoWrap s → s.blockSize ≠ 0#64 → s.aN.toNat ≤ 64 →
    s.aK.toNat ≤ s.blockSize.toNat → (s.signedMode = true → s.tgtSigned = true) →
    s.aIdx.toNat + s.aK.toNat ≤ Config.valCap →
    s.aN.toNat ≠ 0 → m < s.aK.toNat → (m = 0 ∨ Fits s (m * s.aN.toNat)) →
    ¬Fits s (m * s.aN.toNat + s.aN.toNat) →
    ∃ t : State, exec .decblk s = .next t ∧
      t = faultedWith 4#8 { s with vout := t.vout, pos := s.pos + BitVec.ofNat 64 (m * s.aN.toNat) } ∧
      StoredAt s t s.aIdx.toNat ((List.range m).map fun i =>
        decValue s (memRead s (s.pos.toNat + i * s.aN.toNat) s.aN.toNat) s.aN.toNat)

/-- The checks of the block commands, in the order of R223: `BadConfig`, then `BadArgument`, then
`SignednessMismatch`, then `SizeMismatch`; each changes nothing else. -/
def Obligations.BlockCommandCheckOrder : Prop :=
  ∀ s : State, Running s →
    (s.blockSize = 0#64 →
      exec .encblk s = .next (faultedWith 8#8 s) ∧ exec .decblk s = .next (faultedWith 8#8 s)) ∧
    (s.blockSize ≠ 0#64 → 64 < s.aN.toNat ∨ s.blockSize.toNat < s.aK.toNat →
      exec .encblk s = .next (faultedWith 7#8 s) ∧ exec .decblk s = .next (faultedWith 7#8 s)) ∧
    (s.blockSize ≠ 0#64 → s.aN.toNat ≤ 64 → s.aK.toNat ≤ s.blockSize.toNat →
      s.signedMode = true → s.tgtSigned = false → exec .decblk s = .next (faultedWith 1#8 s)) ∧
    (s.blockSize ≠ 0#64 → s.aN.toNat ≤ 64 → s.aK.toNat ≤ s.blockSize.toNat →
      Config.valCap < s.aIdx.toNat + s.aK.toNat →
      exec .encblk s = .next (faultedWith 2#8 s) ∧
      ((s.signedMode = true → s.tgtSigned = true) → exec .decblk s = .next (faultedWith 2#8 s)))

/-- `dec_value` (R144, R146 law 2): the result is a `T`-bit pattern; a signed field is sign-extended and
clamped to the sink; an unsigned field is kept when its bits fit the sink, and becomes the sink's maximum
when they do not. So in a signed sink the kept pattern of an unsigned field may read as a negative number
(conflict C6, log entry 14). That a signed field decodes the same way when the sink is unsigned, which no
command asks for, is the model's (log entry 17). -/
def Obligations.DecodedValuesSaturate : Prop :=
  ∀ (s : State) (f w : Nat), 0 < w → f < 2 ^ w →
    decValue s f w < 2 ^ s.tgtWidth ∧
    (s.signedMode = true →
      sint s.tgtWidth (decValue s f w) =
        clamp (sint w f) (-(2 ^ (s.tgtWidth - 1))) (2 ^ (s.tgtWidth - 1) - 1)) ∧
    (s.signedMode = true → w ≤ s.tgtWidth → sint s.tgtWidth (decValue s f w) = sint w f) ∧
    (s.signedMode = false → f < 2 ^ s.tgtWidth → decValue s f w = f) ∧
    (s.signedMode = false → 2 ^ s.tgtWidth ≤ f →
      decValue s f w = if s.tgtSigned then 2 ^ (s.tgtWidth - 1) - 1 else 2 ^ s.tgtWidth - 1)

/-- Round trip of a block (R146, law 1): `ENCBLK` onto zero bits with a width that is enough, and then
`DECBLK` from the same position into a sink that can hold the values, gives every value back. -/
def Obligations.BlockRoundTrip : Prop :=
  ∀ s : State, Running s → NoWrap s → s.blockSize ≠ 0#64 → s.aN.toNat ≤ 64 →
    s.aK.toNat ≤ s.blockSize.toNat → s.aIdx.toNat + s.aK.toNat ≤ Config.valCap →
    (s.aN.toNat = 0 ∨ s.aK.toNat = 0 ∨ Fits s (s.aK.toNat * s.aN.toNat)) →
    (∀ i, i < s.aK.toNat * s.aN.toNat → s.bufBit (s.pos.toNat + i) = false) →
    blockWidth s s.aIdx.toNat s.aK.toNat ≤ s.aN.toNat →
    (s.tgtSigned = s.signedMode ∧ (s.srcWidth ≤ s.tgtWidth ∨ s.aN.toNat ≤ s.tgtWidth) ∨
      s.signedMode = false ∧ s.tgtSigned = true ∧ (s.srcWidth < s.tgtWidth ∨ s.aN.toNat < s.tgtWidth)) →
    ∃ t u, exec .encblk s = .next t ∧ exec .decblk { t with pos := s.pos } = .next u ∧
      t.faulted = false ∧ u.faulted = false ∧ u.pos = t.pos ∧
      ∀ i, i < s.aK.toNat → u.sinkValue (s.aIdx.toNat + i) = s.sourceValue (s.aIdx.toNat + i)

/-! ### The header code -/

/-- `ENCHDR`, opcode 0x20 (R160, R161): `A_N > 64` is `BadArgument`, a header beyond the buffer is
`WriteOverrun`, both with nothing else changed; otherwise the header `H` of `L` bits that the rule gives is
ORed in at `POS`, `POS` moves past it, and `PREV_W` and `CUR_W` are the width. -/
def Obligations.EnchdrWritesTheHeader : Prop :=
  decodeCommand 0x20#8 = .enchdr ∧
  ∀ (s : State) (w H L : Nat), Running s → w = s.aN.toNat →
    (H, L) = (if w = s.prevW.toNat then (1, 1)
      else if w < 7 then (2 * w, 4)
      else if w < 10 then (0x0E + 16 * (w - 7), 6)
      else (0x3E + 64 * (w - 10), 12)) →
    (64 < w → exec .enchdr s = .next (faultedWith 7#8 s)) ∧
    (w ≤ 64 → ¬Fits s L → exec .enchdr s = .next (faultedWith 5#8 s)) ∧
    (w ≤ 64 → Fits s L →
      ∃ t : State, exec .enchdr s = .next t ∧
        t = { s with
          buf := t.buf, pos := s.pos + BitVec.ofNat 64 L,
          prevW := BitVec.ofNat 7 w, curW := BitVec.ofNat 7 w } ∧
        OredAt s t s.pos.toNat (fieldBits L H))

/-- `DECHDR` of a legal header at `POS` (R95, R162, R163): `R_VAL`, `PREV_W` and `CUR_W` are the width it
gives, `POS` moves past it, and nothing else changes. -/
def Obligations.DechdrDecodesTheHeader : Prop :=
  ∀ (s : State) (f : HeaderForm), Running s → NoWrap s → f.legal = true → Fits s f.length →
    holdsBits s s.pos.toNat f.bits →
    exec .dechdr s = .next
      { s with
        rVal := BitVec.ofNat 64 (f.width s.prevW.toNat), pos := s.pos + BitVec.ofNat 64 f.length,
        prevW := BitVec.ofNat 7 (f.width s.prevW.toNat), curW := BitVec.ofNat 7 (f.width s.prevW.toNat) }

/-- `DECHDR` of an `ABS11` header whose width is above 64 (R98, R162): `WidthOutOfRange`, with `POS` past
the twelve bits and nothing else changed. -/
def Obligations.DechdrRefusesWidthsAbove64 : Prop :=
  ∀ (s : State) (c : BitVec 6), Running s → NoWrap s → 54 < c.toNat → Fits s 12 →
    holdsBits s s.pos.toNat
      ([false, true, true, true, true, true] ++ (List.range 6).map fun i => c.getLsbD i) →
    exec .dechdr s = .next (faultedWith 6#8 { s with pos := s.pos + 12#64 })

/-- `DECHDR` at the end of the buffer (R97, R162): it stops at the first of its fields that does not fit,
with `ReadOverrun`, `POS` after the fields already read, and nothing else changed. -/
def Obligations.DechdrStopsAtTheFirstMissingField : Prop :=
  ∀ (s : State) (p : List Bool) (n : Nat), Running s → NoWrap s →
    (p, n) ∈ [([], 1), ([false], 3), ([false, true, true, true], 2),
      ([false, true, true, true, true, true], 6)] →
    holdsBits s s.pos.toNat p → (p = [] ∨ Fits s p.length) → ¬Fits s (p.length + n) →
    exec .dechdr s = .next (faultedWith 4#8 { s with pos := s.pos + BitVec.ofNat 64 p.length })

/-- The stream forms (R93, R98): each passes its bits and sets the width registers to its width; the
reserved form passes its bits, raises `WidthOutOfRange` and leaves the width registers. That a form runs by
itself, without a bound and without `R_VAL`, is the model's choice (log entry 10). -/
def Obligations.StreamFormsSetTheWidth : Prop :=
  ∀ s : State, Running s →
    exec .reuse s = .next { s with pos := s.pos + 1#64, curW := s.prevW } ∧
    (∀ a : BitVec 3, a.toNat ≤ 6 → exec (.abs3 a) s = .next
      { s with pos := s.pos + 4#64, prevW := a.setWidth 7, curW := a.setWidth 7 }) ∧
    (∀ b : BitVec 2, b.toNat ≤ 2 → exec (.abs5 b) s = .next
      { s with pos := s.pos + 6#64, prevW := 7#7 + b.setWidth 7, curW := 7#7 + b.setWidth 7 }) ∧
    (∀ c : BitVec 6, c.toNat ≤ 54 → exec (.abs11 c) s = .next
      { s with pos := s.pos + 12#64, prevW := 10#7 + c.setWidth 7, curW := 10#7 + c.setWidth 7 }) ∧
    (∀ c : BitVec 6, 55 ≤ c.toNat →
      exec (.abs11Illegal c) s = .next (faultedWith 6#8 { s with pos := s.pos + 12#64 }))

/-- `DECHDR` runs the stream form that stands at `POS` (R97, R162): the state is the one that form leaves,
and unless it faults `R_VAL` is its width. What a form does by itself is the model's choice (log entry
10). -/
def Obligations.DechdrRunsTheFormAtPos : Prop :=
  ∀ (s : State) (bits rest : List Bool) (f : HeaderForm), Running s → NoWrap s →
    holdsBits s s.pos.toNat bits → Fits s bits.length → decodeHeader bits = .ok (f, rest) →
    ∃ t, exec f.toInstr s = .next t ∧
      exec .dechdr s = .next (if t.faulted then t else { t with rVal := t.curW.setWidth 64 })

/-- Round trip of a header (R166, law 1): `ENCHDR` onto zero bits and then `DECHDR` from the same position
with the same `PREV_W` returns the width, passes exactly the `hdr_len` bits written, and leaves `PREV_W` at
the width on both sides. -/
def Obligations.HeaderRoundTrip : Prop :=
  ∀ s : State, Running s → NoWrap s → s.aN.toNat ≤ 64 →
    Fits s (hdrLen s.aN.toNat s.prevW.toNat) →
    (∀ i, i < hdrLen s.aN.toNat s.prevW.toNat → s.bufBit (s.pos.toNat + i) = false) →
    ∃ t u, exec .enchdr s = .next t ∧
      exec .dechdr { t with pos := s.pos, prevW := s.prevW } = .next u ∧
      t.faulted = false ∧ u.faulted = false ∧
      u.rVal.toNat = s.aN.toNat ∧ t.prevW.toNat = s.aN.toNat ∧ u.prevW.toNat = s.aN.toNat ∧
      t.pos = s.pos + BitVec.ofNat 64 (hdrLen s.aN.toNat s.prevW.toNat) ∧ u.pos = t.pos

/-! ### The frame codec -/

/-- `ENCFRAME` that fits (R181, R182, R185; the layout of R91 to R96): the bits of the frame are ORed in
from byte `A_OFF` on; `POS` is the next byte boundary and `NEXT_OFF` its byte; `CONSUMED` is `FRAME_LEN`;
`PREV_W` and `CUR_W` are the last block's width; `MAX_W` is the greatest of what it was and the widths;
nothing else changes. -/
def Obligations.EncframeWritesTheLayout : Prop :=
  ∀ (s : State) (blocks : List StreamBlock), Running s → NoWrap s → s.blockSize ≠ 0#64 →
    s.aOff.toNat ≤ s.bufLen.toNat → s.frameLen.toNat ≤ Config.valCap → blocks = encodedFrame s →
    8 * s.aOff.toNat + (blockBits 0 blocks).length ≤ 8 * s.bufLen.toNat →
    ∃ t : State, exec .encframe s = .next t ∧
      t = { s with
        buf := t.buf,
        pos := BitVec.ofNat 64 (8 * (s.aOff.toNat + ((blockBits 0 blocks).length + 7) / 8)),
        nextOff := BitVec.ofNat 64 (s.aOff.toNat + ((blockBits 0 blocks).length + 7) / 8),
        prevW := BitVec.ofNat 7 (lastWidth 0 blocks),
        curW := if blocks = [] then s.curW else BitVec.ofNat 7 (lastWidth 0 blocks),
        consumed := s.frameLen,
        maxW := BitVec.ofNat 7 (widest s.maxW.toNat 0 blocks) } ∧
      OredAt s t (8 * s.aOff.toNat) (blockBits 0 blocks)

/-- The frame an encoder makes is one a decoder accepts: its blocks cut the frame as R91 says, every
header is legal, every field fits its width, and no header repeats the width before it in an absolute form
(R91, R96, R107, R180). -/
def Obligations.EncodedFrameIsLegalAndCanonical : Prop :=
  ∀ s : State, s.blockSize ≠ 0#64 →
    blocksCover s.blockSize.toNat s.frameLen.toNat (encodedFrame s) = true ∧
    blocksLegal 0 (encodedFrame s) = true ∧
    (encodedFrame s).length = (s.frameLen.toNat + s.blockSize.toNat - 1) / s.blockSize.toNat ∧
    (∀ before b after, encodedFrame s = before ++ b :: after →
      (b.form = .reuse ↔ b.form.width (lastWidth 0 before) = lastWidth 0 before))

/-- `ENCFRAME` that overruns (R182, R229): the blocks before stay written, and of the block that does not
fit either nothing (its header did not fit, the first case) or its header and the fields that fit (the
second); `POS` is at the start of the field that did not fit, `CONSUMED` and `MAX_W` count the blocks fully
written, `NEXT_OFF` is unchanged. -/
def Obligations.EncframeOverrunKeepsWholeFields : Prop :=
  ∀ s : State, Running s → NoWrap s → s.blockSize ≠ 0#64 →
    s.aOff.toNat ≤ s.bufLen.toNat → s.frameLen.toNat ≤ Config.valCap →
    8 * s.bufLen.toNat < 8 * s.aOff.toNat + (blockBits 0 (encodedFrame s)).length →
    ∃ (before after : List StreamBlock) (b : StreamBlock) (n w : Nat) (t : State),
      encodedFrame s = before ++ b :: after ∧ exec .encframe s = .next t ∧
      (n = (blockBits 0 before).length ∧ w = lastWidth 0 before ∧
          8 * s.bufLen.toNat < 8 * s.aOff.toNat + n + b.form.length ∨
        w = b.form.width (lastWidth 0 before) ∧
          ∃ j, j < b.fields.length ∧ n = (blockBits 0 before).length + b.form.length + j * w ∧
            8 * s.bufLen.toNat < 8 * s.aOff.toNat + n + w) ∧
      8 * s.aOff.toNat + n ≤ 8 * s.bufLen.toNat ∧
      t = faultedWith 5#8
        { s with
          buf := t.buf,
          pos := BitVec.ofNat 64 (8 * s.aOff.toNat + n),
          prevW := BitVec.ofNat 7 w,
          curW := if n = 0 then s.curW else BitVec.ofNat 7 w,
          consumed := BitVec.ofNat 64 (before.map (·.fields.length)).sum,
          maxW := BitVec.ofNat 7 (widest s.maxW.toNat 0 before) } ∧
      OredAt s t (8 * s.aOff.toNat) ((blockBits 0 (encodedFrame s)).take n)

/-- The size of an encoded frame (R188): its bits are the sum over its blocks of header and payload, and it
never needs more than `frame_bytes_max` bytes. -/
def Obligations.FrameSizeIsBounded : Prop :=
  ∀ s : State, s.blockSize ≠ 0#64 →
    ((blockBits 0 (encodedFrame s)).length + 7) / 8 ≤ frameBytesMax s ∧
    (∀ before b after, encodedFrame s = before ++ b :: after →
      (blockBits 0 (before ++ [b])).length = (blockBits 0 before).length +
        hdrLen (b.form.width (lastWidth 0 before)) (lastWidth 0 before) +
        b.fields.length * b.form.width (lastWidth 0 before))

/-- `DECFRAME` of a legal stream (R144, R181, R184): the blocks' sink patterns are stored from `VOUT[0]`
on; `POS` is the next byte boundary and `NEXT_OFF` its byte; `CONSUMED` is `FRAME_LEN`; `PREV_W` and `CUR_W`
are the last block's width; nothing else changes. -/
def Obligations.DecframeDecodesTheLayout : Prop :=
  ∀ (s : State) (blocks : List StreamBlock), Running s → NoWrap s → s.blockSize ≠ 0#64 →
    s.aOff.toNat ≤ s.bufLen.toNat → (s.signedMode = true → s.tgtSigned = true) →
    s.frameLen.toNat ≤ Config.valCap →
    blocksCover s.blockSize.toNat s.frameLen.toNat blocks = true → blocksLegal 0 blocks = true →
    8 * s.aOff.toNat + (blockBits 0 blocks).length ≤ 8 * s.bufLen.toNat →
    holdsBits s (8 * s.aOff.toNat) (blockBits 0 blocks) →
    ∃ t : State, exec .decframe s = .next t ∧
      t = { s with
        vout := t.vout,
        pos := BitVec.ofNat 64 (8 * (s.aOff.toNat + ((blockBits 0 blocks).length + 7) / 8)),
        nextOff := BitVec.ofNat 64 (s.aOff.toNat + ((blockBits 0 blocks).length + 7) / 8),
        prevW := BitVec.ofNat 7 (lastWidth 0 blocks),
        curW := if blocks = [] then s.curW else BitVec.ofNat 7 (lastWidth 0 blocks),
        consumed := s.frameLen } ∧
      StoredAt s t 0 (decodedElements s 0 blocks)

/-- `SCANFRAME` of a legal stream (R181, R186): `POS` is the next byte boundary after the frame and
`NEXT_OFF` its byte; `CONSUMED` is `FRAME_LEN`; `PREV_W` and `CUR_W` are the last block's width; nothing
else changes, whatever `CFG` holds and whatever the capacity of the value memories. -/
def Obligations.ScanframeSkipsTheLayout : Prop :=
  ∀ (s : State) (blocks : List StreamBlock), Running s → NoWrap s → s.blockSize ≠ 0#64 →
    s.aOff.toNat ≤ s.bufLen.toNat →
    blocksCover s.blockSize.toNat s.frameLen.toNat blocks = true → blocksLegal 0 blocks = true →
    8 * s.aOff.toNat + (blockBits 0 blocks).length ≤ 8 * s.bufLen.toNat →
    holdsBits s (8 * s.aOff.toNat) (blockBits 0 blocks) →
    exec .scanframe s = .next
      { s with
        pos := BitVec.ofNat 64 (8 * (s.aOff.toNat + ((blockBits 0 blocks).length + 7) / 8)),
        nextOff := BitVec.ofNat 64 (s.aOff.toNat + ((blockBits 0 blocks).length + 7) / 8),
        prevW := BitVec.ofNat 7 (lastWidth 0 blocks),
        curW := if blocks = [] then s.curW else BitVec.ofNat 7 (lastWidth 0 blocks),
        consumed := s.frameLen }

/-- A reserved header in a stream (R98, R184, R186): after whole blocks that leave values of the frame to
come, it ends `DECFRAME` and `SCANFRAME` with `WidthOutOfRange`, `POS` twelve bits past its start,
`CONSUMED` counting the blocks before it and `NEXT_OFF` unchanged; the elements `DECFRAME` decoded before it
stay. -/
def Obligations.FramesStopAtAReservedHeader : Prop :=
  ∀ (s : State) (blocks : List StreamBlock) (c : BitVec 6) (n : Nat), Running s → NoWrap s →
    s.blockSize ≠ 0#64 → s.aOff.toNat ≤ s.bufLen.toNat → 55 ≤ c.toNat → n < s.frameLen.toNat →
    blocksCover s.blockSize.toNat n blocks = true → n % s.blockSize.toNat = 0 →
    blocksLegal 0 blocks = true →
    8 * s.aOff.toNat + (blockBits 0 blocks).length + 12 ≤ 8 * s.bufLen.toNat →
    holdsBits s (8 * s.aOff.toNat) (blockBits 0 blocks ++ HeaderForm.bits (.abs11Illegal c)) →
    exec .scanframe s = .next (faultedWith 6#8
      { s with
        pos := BitVec.ofNat 64 (8 * s.aOff.toNat + (blockBits 0 blocks).length + 12),
        prevW := BitVec.ofNat 7 (lastWidth 0 blocks),
        curW := if blocks = [] then s.curW else BitVec.ofNat 7 (lastWidth 0 blocks),
        consumed := BitVec.ofNat 64 n }) ∧
    ((s.signedMode = true → s.tgtSigned = true) → s.frameLen.toNat ≤ Config.valCap →
      ∃ t : State, exec .decframe s = .next t ∧
        t = faultedWith 6#8
          { s with
            vout := t.vout,
            pos := BitVec.ofNat 64 (8 * s.aOff.toNat + (blockBits 0 blocks).length + 12),
            prevW := BitVec.ofNat 7 (lastWidth 0 blocks),
            curW := if blocks = [] then s.curW else BitVec.ofNat 7 (lastWidth 0 blocks),
            consumed := BitVec.ofNat 64 n } ∧
        StoredAt s t 0 (decodedElements s 0 blocks))

/-- Scan and decode agree (R187): when the signedness and size checks pass, `DECFRAME` and `SCANFRAME` fault
alike, with the same code, or both complete with the same `POS`, `PREV_W`, `CUR_W`, `CONSUMED` and
`NEXT_OFF`; and when `DECFRAME` completes, those checks passed and both complete so. -/
def Obligations.ScanAndDecodeAgree : Prop :=
  ∀ s : State, Running s → NoWrap s →
    ∃ t u, exec .decframe s = .next t ∧ exec .scanframe s = .next u ∧
      ((s.signedMode = true → s.tgtSigned = true) ∧ s.frameLen.toNat ≤ Config.valCap →
        t.faulted = u.faulted ∧ t.err = u.err) ∧
      (t.faulted = false →
        (s.signedMode = true → s.tgtSigned = true) ∧ s.frameLen.toNat ≤ Config.valCap ∧
        u.faulted = false ∧ t.pos = u.pos ∧ t.prevW = u.prevW ∧ t.curW = u.curW ∧
        t.consumed = u.consumed ∧ t.nextOff = u.nextOff)

/-- Round trip of a frame (R189, law 1): `ENCFRAME` into zero bits that are enough, and then `DECFRAME` from
the same offset into a sink of the stream's signedness with `T ≥ S`, both complete, write every value of the
source to the sink and report the same `NEXT_OFF`. -/
def Obligations.FrameRoundTrip : Prop :=
  ∀ s : State, Running s → NoWrap s → s.blockSize ≠ 0#64 → s.aOff.toNat ≤ s.bufLen.toNat →
    s.frameLen.toNat ≤ Config.valCap → s.tgtSigned = s.signedMode → s.srcWidth ≤ s.tgtWidth →
    8 * s.aOff.toNat + (blockBits 0 (encodedFrame s)).length ≤ 8 * s.bufLen.toNat →
    (∀ q, 8 * s.aOff.toNat ≤ q → q < 8 * s.bufLen.toNat → s.bufBit q = false) →
    ∃ t u, exec .encframe s = .next t ∧ exec .decframe t = .next u ∧
      t.faulted = false ∧ u.faulted = false ∧ u.nextOff = t.nextOff ∧
      ∀ i, i < s.frameLen.toNat → u.sinkValue i = s.sourceValue i

/-- The decoder's state machine (R183) comes to the same end as `DECFRAME` and `SCANFRAME`: from its start
row, within two transitions for each value and two more, it completes or faults in exactly the state the
command leaves. -/
def Obligations.DecoderMachineAgrees : Prop :=
  ∀ (s : State) (c : DecoderCommand) (i : Instr), Running s →
    (i = match c with
      | .decframe => Instr.decframe
      | .scanframe => Instr.scanframe) →
    s.blockSize ≠ 0#64 → s.aOff.toNat ≤ s.bufLen.toNat →
    (c = .decframe → (s.signedMode = true → s.tgtSigned = true) ∧ s.frameLen.toNat ≤ Config.valCap) →
    exec i s = .next (decoderRun c (2 * s.frameLen.toNat + 2) (decoderStart s)).2 ∧
    (decoderRun c (2 * s.frameLen.toNat + 2) (decoderStart s)).1 =
      (if (decoderRun c (2 * s.frameLen.toNat + 2) (decoderStart s)).2.faulted then .faulted else .complete)

/-- The checks of the frame commands, in the order of R223: `BadConfig`, `BadArgument`,
`SignednessMismatch` (`DECFRAME` only), `SizeMismatch` (not `SCANFRAME`); each changes nothing else. -/
def Obligations.FrameCommandCheckOrder : Prop :=
  ∀ s : State, Running s →
    (s.blockSize = 0#64 →
      exec .encframe s = .next (faultedWith 8#8 s) ∧ exec .decframe s = .next (faultedWith 8#8 s) ∧
      exec .scanframe s = .next (faultedWith 8#8 s)) ∧
    (s.blockSize ≠ 0#64 → s.bufLen.toNat < s.aOff.toNat →
      exec .encframe s = .next (faultedWith 7#8 s) ∧ exec .decframe s = .next (faultedWith 7#8 s) ∧
      exec .scanframe s = .next (faultedWith 7#8 s)) ∧
    (s.blockSize ≠ 0#64 → s.aOff.toNat ≤ s.bufLen.toNat →
      (s.signedMode = true → s.tgtSigned = false → exec .decframe s = .next (faultedWith 1#8 s)) ∧
      (Config.valCap < s.frameLen.toNat →
        exec .encframe s = .next (faultedWith 2#8 s) ∧
        ((s.signedMode = true → s.tgtSigned = true) → exec .decframe s = .next (faultedWith 2#8 s))))

/-- `SCANFRAME` does not look at `CFG`, `VIN`, `VOUT`, `MAX_W`, the operand registers other than `A_OFF`, or
the width, position and count left by an earlier command: changing them changes nothing else in what it does
(R181, R186). -/
def Obligations.ScanframeIgnoresValuesAndClasses : Prop :=
  ∀ (s t : State) (cfg aN : Byte) (vin vout : List (Nat × Word)) (maxW prevW : Width)
    (pos consumed aVal aK aIdx : Word),
    Running s → firstFailing (scanframeChecks s) = none → exec .scanframe s = .next t →
    exec .scanframe { s with
      cfg := cfg, vin := vin, vout := vout, maxW := maxW, prevW := prevW, pos := pos,
      consumed := consumed, aVal := aVal, aN := aN, aK := aK, aIdx := aIdx } =
      .next { t with
        cfg := cfg, vin := vin, vout := vout, maxW := maxW, aVal := aVal, aN := aN, aK := aK,
        aIdx := aIdx }

/-- `DECFRAME` looks neither at `VIN` nor at `MAX_W` nor at `SRC_CLASS`, and starts from `PREV_W = 0`
whatever came before (R181, R184, R190). -/
def Obligations.DecframeIgnoresTheSource : Prop :=
  ∀ (s t : State) (cfg : Byte) (vin : List (Nat × Word)) (maxW prevW : Width) (pos consumed : Word),
    Running s → firstFailing (decframeChecks s) = none → cfg &&& 0xF9#8 = s.cfg &&& 0xF9#8 →
    exec .decframe s = .next t →
    exec .decframe { s with
      cfg := cfg, vin := vin, maxW := maxW, prevW := prevW, pos := pos, consumed := consumed } =
      .next { t with cfg := cfg, vin := vin, maxW := maxW }

/-! ### Rules about every instruction -/

/-- `MAX_W` (R28, R185): only `ENCFRAME` and `RESET` change it, and `ENCFRAME` never lowers it. -/
def Obligations.MaxWOnlyGrowsByEncframe : Prop :=
  ∀ (i : Instr) (s t : State), exec i s = .next t →
    (i ≠ .encframe → i ≠ .reset → t.maxW = s.maxW) ∧
    (i = .encframe → s.maxW.toNat ≤ t.maxW.toNat)

/-- What the core never writes (R27, R30, R34): the configuration and operand registers, `BUF_LEN` and
`VIN`, except that `RESET` gives those registers their reset values (R211); and it leaves the model's own
fields (log entries 3, 4, 5). -/
def Obligations.CoreLeavesHostState : Prop :=
  ∀ (i : Instr) (s t : State), exec i s = .next t →
    t.vin = s.vin ∧ t.host = s.host ∧ t.hostData = s.hostData ∧ t.freeCount = s.freeCount ∧
    (i ≠ .reset →
      t.cfg = s.cfg ∧ t.blockSize = s.blockSize ∧ t.frameLen = s.frameLen ∧ t.bufLen = s.bufLen ∧
      t.aVal = s.aVal ∧ t.aN = s.aN ∧ t.aK = s.aK ∧ t.aIdx = s.aIdx ∧ t.aOff = s.aOff) ∧
    (i = .reset →
      t.cfg = 0#8 ∧ t.blockSize = 12#64 ∧ t.frameLen = 0#64 ∧ t.bufLen = 0#64 ∧
      t.aVal = 0#64 ∧ t.aN = 0#8 ∧ t.aK = 0#64 ∧ t.aIdx = 0#64 ∧ t.aOff = 0#64)

/-- Which instructions write `R_VAL`, `NEXT_OFF`, `CONSUMED`, `PREV_W` and `CUR_W` (R31, R33, R35, R165, the
results column of R103), and that one that faults leaves `R_VAL` and `NEXT_OFF`. -/
def Obligations.ResultRegistersHaveFewWriters : Prop :=
  ∀ (i : Instr) (s t : State), exec i s = .next t → i ≠ .reset →
    (t.rVal = s.rVal ∨ t.faulted = false ∧
      i ∈ [Instr.rdbit, Instr.rdbits, Instr.posbits, Instr.blkwidth, Instr.dechdr]) ∧
    (t.nextOff = s.nextOff ∨ t.faulted = false ∧ i ∈ [Instr.encframe, Instr.decframe, Instr.scanframe]) ∧
    (t.consumed = s.consumed ∨ i ∈ [Instr.encframe, Instr.decframe, Instr.scanframe]) ∧
    (i ∈ [Instr.rdbit, Instr.rdbits, Instr.wrbits, Instr.posbits, Instr.align, Instr.seek, Instr.blkwidth,
        Instr.encblk, Instr.decblk] →
      t.prevW = s.prevW ∧ t.curW = s.curW) ∧
    (i ∈ [Instr.posbits, Instr.blkwidth] → t.pos = s.pos)

/-- `BUF` (R61, R66): no instruction clears a bit of it; only `WRBITS`, `ENCBLK`, `ENCHDR` and `ENCFRAME`
change it at all; and no byte at or above `BUF_LEN` ever changes. -/
def Obligations.BufferBitsAreNeverCleared : Prop :=
  ∀ (i : Instr) (s t : State), exec i s = .next t →
    (∀ q, s.bufBit q = true → t.bufBit q = true) ∧
    (i ∉ [Instr.wrbits, Instr.encblk, Instr.enchdr, Instr.encframe] → t.buf = s.buf) ∧
    (∀ j, s.bufLen.toNat ≤ j → Memory.read? t.buf j = Memory.read? s.buf j)

/-- `VOUT` (R30, R145, R184): only `DECBLK` and `DECFRAME` change it, and only the cells of the block or of
the frame. -/
def Obligations.OnlyDecodesWriteTheSink : Prop :=
  ∀ (i : Instr) (s t : State), exec i s = .next t →
    (i ≠ .decblk → i ≠ .decframe → t.vout = s.vout) ∧
    (i = .decblk → ∀ a, a < s.aIdx.toNat ∨ s.aIdx.toNat + s.aK.toNat ≤ a →
      Memory.read? t.vout a = Memory.read? s.vout a) ∧
    (i = .decframe → ∀ a, s.frameLen.toNat ≤ a → Memory.read? t.vout a = Memory.read? s.vout a)

/-- `POS` (R32): it is below `2^63 + 8` before an instruction and after it, and no bit address wraps; it
never decreases but by `SEEK`, a frame command or `RESET`; and no command leaves it beyond `8 * BUF_LEN` if
it was not beyond it. -/
def Obligations.PositionStaysInBounds : Prop :=
  ∀ (i : Instr) (s t : State), s.Inv → exec i s = .next t →
    NoWrap s ∧ s.pos.toNat < 2 ^ 63 + 8 ∧ t.pos.toNat < 2 ^ 63 + 8 ∧
    (i ∉ [Instr.seek, Instr.encframe, Instr.decframe, Instr.scanframe, Instr.reset] →
      s.pos.toNat ≤ t.pos.toNat) ∧
    (i ∈ [Instr.rdbit, Instr.rdbits, Instr.wrbits, Instr.posbits, Instr.align, Instr.seek, Instr.blkwidth,
        Instr.encblk, Instr.decblk, Instr.enchdr, Instr.dechdr, Instr.encframe, Instr.decframe,
        Instr.scanframe] →
      s.pos.toNat ≤ 8 * s.bufLen.toNat → t.pos.toNat ≤ 8 * t.bufLen.toNat)

/-- The faulted core (R36, R210, R225): every instruction but `RESET` leaves it exactly as it is, and
`RESET` leaves the faulted state. For the stream forms this is the model's choice (log entry 10). -/
def Obligations.FaultedCoreObeysOnlyReset : Prop :=
  ∀ (i : Instr) (s : State), s.faulted = true →
    (i ≠ .reset → exec i s = .next s) ∧
    (∃ t, exec .reset s = .next t ∧ t.faulted = false ∧ t.err = 0#8)

/-- Fault causes (R220, R36): an instruction that an unfaulted core runs either leaves `STATUS` and `ERR`
alone or faults with one of the codes the rule lists for it, and the reserved stream form with the code of
R98 (log entry 10). -/
def Obligations.EachInstructionHasItsFaults : Prop :=
  ∀ (i : Instr) (s t : State), Running s → i ≠ .reset → exec i s = .next t →
    (t.status = s.status ∧ t.err = s.err) ∨
      (t.status = s.status ||| 1#8 ∧ t.err ∈ i.faultCodes)

/-- `RESET` (R211): every register takes its reset value, faulted core or not, and the three memories keep
every cell. -/
def Obligations.ResetRestoresTheRegisters : Prop :=
  ∀ s : State, exec .reset s = .next
    { status := 0#8, err := 0#8, cfg := 0#8, blockSize := 12#64, frameLen := 0#64, bufLen := 0#64,
      maxW := 0#7, prevW := 0#7, curW := 0#7, consumed := 0#64, pos := 0#64, nextOff := 0#64, aVal := 0#64,
      aN := 0#8, aK := 0#64, aIdx := 0#64, aOff := 0#64, rVal := 0#64, buf := s.buf, vin := s.vin,
      vout := s.vout, host := s.host, hostData := s.hostData, freeCount := s.freeCount }

/-- Illegal commands (R104): every 8-bit value that is none of the fifteen opcodes is illegal, and no opcode
is; writing an illegal one to `CMD` raises `IllegalCommand` and does nothing else. That the write stands in
a list of the host's accesses is the model's choice (log entry 3). -/
def Obligations.IllegalCommandsFault : Prop :=
  ∀ (s : State) (c : Byte) (rest : List HostAction), Running s →
    (c ∈ opcodes → ∀ d, decodeCommand c ≠ .illegal d) ∧
    (c ∉ opcodes →
      decodeCommand c = .illegal c ∧ exec (.illegal c) s = .next (faultedWith 9#8 s) ∧
      step { s with host := .writeReg 0 (c.setWidth 64) :: rest } =
        .next (faultedWith 9#8 { s with host := rest }))

/-! ### Reset values, invariant and step -/

/-- The registers right after reset (R38, R261). That the memories then hold no written cell is the model's
reading of a reset at power-up (log entries 2, 19). -/
def Obligations.ResetValues : Prop :=
  (∀ n, n ≠ 4 → readRegister State.reset n = 0#64) ∧ readRegister State.reset 4 = 12#64 ∧
    State.reset.faulted = false ∧ State.reset.signedMode = false ∧ State.reset.tgtSigned = false ∧
    State.reset.srcWidth = 8 ∧ State.reset.tgtWidth = 8 ∧
    (∀ j, Memory.read? State.reset.buf j = none ∧ Memory.read? State.reset.vin j = none ∧
      Memory.read? State.reset.vout j = none)

/-- The state right after reset is in order. -/
def Obligations.ResetIsInOrder : Prop := State.reset.Inv

/-- Every step keeps the state in order: flags that agree (R36), legal widths (R28, R29), `CFG`'s reserved
bits zero (R24), `BUF_LEN` and `POS` inside the buffer (R27, R32), and memories in canonical form that hold
only cells that exist (R27, R30). The canonical form is the model's choice (log entry 2). -/
def Obligations.StepKeepsOrder : Prop :=
  ∀ s t : State, s.Inv → step s = .next t → t.Inv

/-- A step runs the decoded command (R20, R23, R37, R210): when the host's next access writes the opcode `c`
to `CMD`, the step is the instruction that `c` decodes to, run in the state with that access done; with no
access waiting the core stays as it is. That the host's accesses stand in a list is the model's choice (log
entry 3). -/
def Obligations.StepRunsTheDecodedCommand : Prop :=
  ∀ (s : State) (c : Byte) (rest : List HostAction),
    (∀ i, decode (.command c) = .ok i →
      step { s with host := .writeReg 0 (c.setWidth 64) :: rest } = exec i { s with host := rest }) ∧
    (s.host = [] → step s = .next s)

/-- Host writes of registers (R22, R24, R27, R28, R29): `CFG` keeps its six low bits; `BUF_LEN`, `MAX_W` and
`PREV_W` ignore a value out of range; the other RW registers take the value; read-only and absent registers
ignore it; nothing else changes. That the host's accesses stand in a list is the model's choice (log entry
3). -/
def Obligations.HostWritesRegisters : Prop :=
  ∀ (s : State) (v : Word) (b : Byte) (rest : List HostAction),
    step { s with host := .writeReg 3 (b.setWidth 64) :: rest } =
      .next { s with host := rest, cfg := b &&& 0x3F#8 } ∧
    step { s with host := .writeReg 4 v :: rest } = .next { s with host := rest, blockSize := v } ∧
    step { s with host := .writeReg 5 v :: rest } = .next { s with host := rest, frameLen := v } ∧
    step { s with host := .writeReg 6 v :: rest } =
      .next { s with host := rest, bufLen := if v.toNat ≤ Config.bufCap then v else s.bufLen } ∧
    step { s with host := .writeReg 7 v :: rest } =
      .next { s with host := rest, maxW := if v.toNat ≤ 64 then v.setWidth 7 else s.maxW } ∧
    step { s with host := .writeReg 8 v :: rest } =
      .next { s with host := rest, prevW := if v.toNat ≤ 64 then v.setWidth 7 else s.prevW } ∧
    step { s with host := .writeReg 13 v :: rest } = .next { s with host := rest, aVal := v } ∧
    step { s with host := .writeReg 14 (b.setWidth 64) :: rest } = .next { s with host := rest, aN := b } ∧
    step { s with host := .writeReg 15 v :: rest } = .next { s with host := rest, aK := v } ∧
    step { s with host := .writeReg 16 v :: rest } = .next { s with host := rest, aIdx := v } ∧
    step { s with host := .writeReg 17 v :: rest } = .next { s with host := rest, aOff := v } ∧
    (∀ n, n ∈ [1, 2, 9, 10, 11, 12, 18] ∨ 19 ≤ n →
      step { s with host := .writeReg n v :: rest } = .next { s with host := rest })

/-- Host accesses of memory cells (R30, R37, R212): a cell that exists takes the value written, every other
cell keeps its own, and a read returns what the cell holds without changing the core. The list of accesses
and the place of what was read are the model's choice (log entries 3, 4). -/
def Obligations.HostAccessesCells : Prop :=
  ∀ (s : State) (a : Nat) (b : Byte) (v : Word) (rest : List HostAction),
    (a < Config.bufCap →
      ∃ t, step { s with host := .writeBuf a b :: rest } = .next t ∧
        t = { s with host := rest, buf := t.buf } ∧
        t.bufByte a = b ∧ (∀ j, j ≠ a → Memory.read? t.buf j = Memory.read? s.buf j) ∧
        step { s with host := .readBuf a :: rest } =
          .next { s with host := rest, hostData := (s.bufByte a).setWidth 64 }) ∧
    (a < Config.valCap →
      ∃ t u, step { s with host := .writeVin a v :: rest } = .next t ∧
        t = { s with host := rest, vin := t.vin } ∧
        t.vinCell a = v ∧ (∀ j, j ≠ a → Memory.read? t.vin j = Memory.read? s.vin j) ∧
        step { s with host := .writeVout a v :: rest } = .next u ∧
        u = { s with host := rest, vout := u.vout } ∧
        u.voutCell a = v ∧ (∀ j, j ≠ a → Memory.read? u.vout j = Memory.read? s.vout j) ∧
        step { s with host := .readVin a :: rest } =
          .next { s with host := rest, hostData := s.vinCell a } ∧
        step { s with host := .readVout a :: rest } =
          .next { s with host := rest, hostData := s.voutCell a })

/-- Hardware reset (R227, R260): while no command runs it does what `RESET` does, and while one runs it
ends with the registers at their reset values and `VIN` as it was; a command that writes no memory leaves
the memories, and one that writes leaves every byte before its first and every cell it could not write. That
the cells outside those are unchanged, and that the reset is an access of the list, are the model's choice
(log entries 3, 5). -/
def Obligations.HardResetWins : Prop :=
  ∀ (s : State) (c : Byte) (rest : List HostAction),
    step { s with host := .hardReset :: rest } = exec .reset { s with host := rest } ∧
    ∃ t, step { s with host := .hardResetDuring c :: rest } = .next t ∧
      t = { State.reset with
        buf := t.buf, vin := s.vin, vout := t.vout, host := rest, hostData := s.hostData,
        freeCount := t.freeCount } ∧
      (c ∉ [0x03#8, 0x11#8, 0x20#8, 0x30#8] → t.buf = s.buf) ∧
      (c ∉ [0x12#8, 0x31#8] → t.vout = s.vout) ∧
      (c ∈ [0x03#8, 0x11#8, 0x20#8] → ∀ j, j < s.pos.toNat / 8 →
        Memory.read? t.buf j = Memory.read? s.buf j) ∧
      (c = 0x30#8 → ∀ j, j < s.aOff.toNat → Memory.read? t.buf j = Memory.read? s.buf j) ∧
      (c = 0x12#8 → ∀ a, a < s.aIdx.toNat ∨ s.aIdx.toNat + s.aK.toNat ≤ a →
        Memory.read? t.vout a = Memory.read? s.vout a) ∧
      (c = 0x31#8 → ∀ a, s.frameLen.toNat ≤ a → Memory.read? t.vout a = Memory.read? s.vout a)

/-- Host reads of registers (R22, R37, R66): a read returns what the register holds and changes nothing
else; `STATUS` shows only `FAULT`, and `CMD` and absent registers read 0. The list of accesses, the place of
what was read and the zeros above a narrow register are the model's choice (log entries 3, 4). -/
def Obligations.HostReadsRegisters : Prop :=
  ∀ (s : State) (n : Nat) (rest : List HostAction),
    ∃ v : Word,
      step { s with host := .readReg n :: rest } = .next { s with host := rest, hostData := v } ∧
      (n = 0 ∨ 19 ≤ n → v = 0#64) ∧
      (n = 1 → v = if s.faulted then 1#64 else 0#64) ∧
      (n = 2 → v.toNat = s.err.toNat) ∧
      (n = 3 → v.toNat = s.cfg.toNat) ∧
      (n = 4 → v = s.blockSize) ∧
      (n = 5 → v = s.frameLen) ∧
      (n = 6 → v = s.bufLen) ∧
      (n = 7 → v.toNat = s.maxW.toNat) ∧
      (n = 8 → v.toNat = s.prevW.toNat) ∧
      (n = 9 → v.toNat = s.curW.toNat) ∧
      (n = 10 → v = s.consumed) ∧
      (n = 11 → v = s.pos) ∧
      (n = 12 → v = s.nextOff) ∧
      (n = 13 → v = s.aVal) ∧
      (n = 14 → v.toNat = s.aN.toNat) ∧
      (n = 15 → v = s.aK) ∧
      (n = 16 → v = s.aIdx) ∧
      (n = 17 → v = s.aOff) ∧
      (n = 18 → v = s.rVal)

end
end

