-- ==== Sys2Proof/Laws/Numbers.lean ====
section
/-! SUPPORT. The number helpers meet their definitions in the spec (00_scope.md R6, R7). -/

namespace Sys2Proof.Machine

@[simp] theorem bitlen_zero : bitlen 0 = 0 := rfl

/-- `bitlen(x)` is the `e` with `2^(e-1) ≤ x < 2^e` (R7). -/
theorem bitlen_spec {x : Nat} (hx : x ≠ 0) : 1 ≤ bitlen x ∧ 2 ^ (bitlen x - 1) ≤ x ∧ x < 2 ^ bitlen x := by
  unfold bitlen
  rw [if_neg hx]
  exact ⟨by omega, by simpa using Nat.log2_self_le hx, Nat.lt_log2_self⟩

/-- A number fits `n` bits exactly when its bit length is at most `n` (R7). -/
theorem bitlen_le_iff {x n : Nat} : bitlen x ≤ n ↔ x < 2 ^ n := by
  by_cases hx : x = 0
  · subst hx
    simp
  · obtain ⟨h1, h2, h3⟩ := bitlen_spec hx
    constructor
    · intro h
      exact Nat.lt_of_lt_of_le h3 (Nat.pow_le_pow_right (by omega) h)
    · intro h
      by_contra hn
      have : 2 ^ n ≤ 2 ^ (bitlen x - 1) := Nat.pow_le_pow_right (by omega) (by omega)
      omega

theorem bitlen_eq_zero {x : Nat} : bitlen x = 0 ↔ x = 0 := by
  have := @bitlen_le_iff x 0
  simp only [Nat.le_zero, Nat.pow_zero, Nat.lt_one_iff] at this
  exact this

theorem pat_lt (n : Nat) (v : Int) : pat n v < 2 ^ n := by
  unfold pat
  have hpos : (0 : Int) < 2 ^ n := by positivity
  have h1 := Int.emod_nonneg v hpos.ne'
  have h2 := Int.emod_lt_of_pos v hpos
  have : ((v % 2 ^ n).toNat : Int) < ((2 ^ n : Nat) : Int) := by
    rw [Int.toNat_of_nonneg h1]
    exact_mod_cast h2
  exact_mod_cast this

theorem pat_natCast (n x : Nat) : pat n (x : Int) = x % 2 ^ n := by
  unfold pat
  have : ((x : Int) % 2 ^ n) = ((x % 2 ^ n : Nat) : Int) := by push_cast; rfl
  rw [this, Int.toNat_natCast]

/-- `sint_N` reads back any value of the range of `N`-bit two's complement (R6). -/
theorem sint_pat {n : Nat} (hn : 0 < n) {v : Int} (hlo : -(2 ^ (n - 1)) ≤ v) (hhi : v < 2 ^ (n - 1)) :
    sint n (pat n v) = v := by
  have hp : (2 : Int) ^ n = 2 * 2 ^ (n - 1) := by
    rw [← pow_succ']
    congr 1
    omega
  have hpos : (0 : Int) < 2 ^ (n - 1) := by positivity
  have hc : ((2 ^ (n - 1) : Nat) : Int) = 2 ^ (n - 1) := by push_cast; rfl
  unfold sint pat
  by_cases h0 : 0 ≤ v
  · have hm : v % 2 ^ n = v := Int.emod_eq_of_lt h0 (by omega)
    rw [hm, if_pos (by have := Int.toNat_of_nonneg h0; omega)]
    exact Int.toNat_of_nonneg h0
  · have hm : v % 2 ^ n = v + 2 ^ n := by
      rw [← Int.add_emod_right]
      exact Int.emod_eq_of_lt (by omega) (by omega)
    have hnn : 0 ≤ v + 2 ^ n := by omega
    rw [hm, if_neg (by have := Int.toNat_of_nonneg hnn; omega), Int.toNat_of_nonneg hnn]
    omega

/-- `pat_N` undoes `sint_N` (R6). -/
theorem pat_sint {n x : Nat} (hx : x < 2 ^ n) : pat n (sint n x) = x := by
  unfold sint
  split
  · rw [pat_natCast, Nat.mod_eq_of_lt hx]
  · unfold pat
    have : ((x : Int) - 2 ^ n) % 2 ^ n = x := by
      rw [Int.sub_emod_right]
      exact Int.emod_eq_of_lt (by omega) (by exact_mod_cast hx)
    rw [this, Int.toNat_natCast]

/-- The range of `sint_N` (R6). -/
theorem sint_range {n x : Nat} (hn : 0 < n) (hx : x < 2 ^ n) :
    -(2 ^ (n - 1)) ≤ sint n x ∧ sint n x < 2 ^ (n - 1) := by
  have hp : (2 : Nat) ^ n = 2 * 2 ^ (n - 1) := by
    rw [← pow_succ']
    congr 1
    omega
  have hpz : (2 : Int) ^ n = 2 * 2 ^ (n - 1) := by exact_mod_cast hp
  have hc : ((2 ^ (n - 1) : Nat) : Int) = 2 ^ (n - 1) := by push_cast; rfl
  unfold sint
  split <;> constructor <;> omega

/-- `clamp` answers a value of the range (R6). -/
theorem clamp_range {v lo hi : Int} (h : lo ≤ hi) : lo ≤ clamp v lo hi ∧ clamp v lo hi ≤ hi := by
  unfold clamp
  split
  · exact ⟨le_refl _, h⟩
  · split <;> constructor <;> omega

/-- `clamp` keeps a value of the range (R6). -/
theorem clamp_of_mem {v lo hi : Int} (h1 : lo ≤ v) (h2 : v ≤ hi) : clamp v lo hi = v := by
  unfold clamp
  rw [if_neg (by omega), if_neg (by omega)]

/-- The aligned position is the least multiple of 8 not below the position (R125, R127). -/
theorem alignUp_spec (p : Nat) : alignUp p % 8 = 0 ∧ p ≤ alignUp p ∧ alignUp p < p + 8 := by
  unfold alignUp
  omega

end Sys2Proof.Machine
end

