-- ==== Sys2Proof/Laws/State.lean ====
section
/-! SUPPORT. What every field of the state is after every named update: one lemma per field per update. -/

namespace Sys2Proof.Machine

/-! ### `putBuf` -/

@[simp] theorem State.putBuf_status (s : State) (j : Nat) (b : Byte) : (s.putBuf j b).status = s.status := rfl
@[simp] theorem State.putBuf_err (s : State) (j : Nat) (b : Byte) : (s.putBuf j b).err = s.err := rfl
@[simp] theorem State.putBuf_cfg (s : State) (j : Nat) (b : Byte) : (s.putBuf j b).cfg = s.cfg := rfl
@[simp] theorem State.putBuf_blockSize (s : State) (j : Nat) (b : Byte) :
    (s.putBuf j b).blockSize = s.blockSize := rfl
@[simp] theorem State.putBuf_frameLen (s : State) (j : Nat) (b : Byte) :
    (s.putBuf j b).frameLen = s.frameLen := rfl
@[simp] theorem State.putBuf_bufLen (s : State) (j : Nat) (b : Byte) : (s.putBuf j b).bufLen = s.bufLen := rfl
@[simp] theorem State.putBuf_maxW (s : State) (j : Nat) (b : Byte) : (s.putBuf j b).maxW = s.maxW := rfl
@[simp] theorem State.putBuf_prevW (s : State) (j : Nat) (b : Byte) : (s.putBuf j b).prevW = s.prevW := rfl
@[simp] theorem State.putBuf_curW (s : State) (j : Nat) (b : Byte) : (s.putBuf j b).curW = s.curW := rfl
@[simp] theorem State.putBuf_consumed (s : State) (j : Nat) (b : Byte) :
    (s.putBuf j b).consumed = s.consumed := rfl
@[simp] theorem State.putBuf_pos (s : State) (j : Nat) (b : Byte) : (s.putBuf j b).pos = s.pos := rfl
@[simp] theorem State.putBuf_nextOff (s : State) (j : Nat) (b : Byte) :
    (s.putBuf j b).nextOff = s.nextOff := rfl
@[simp] theorem State.putBuf_aVal (s : State) (j : Nat) (b : Byte) : (s.putBuf j b).aVal = s.aVal := rfl
@[simp] theorem State.putBuf_aN (s : State) (j : Nat) (b : Byte) : (s.putBuf j b).aN = s.aN := rfl
@[simp] theorem State.putBuf_aK (s : State) (j : Nat) (b : Byte) : (s.putBuf j b).aK = s.aK := rfl
@[simp] theorem State.putBuf_aIdx (s : State) (j : Nat) (b : Byte) : (s.putBuf j b).aIdx = s.aIdx := rfl
@[simp] theorem State.putBuf_aOff (s : State) (j : Nat) (b : Byte) : (s.putBuf j b).aOff = s.aOff := rfl
@[simp] theorem State.putBuf_rVal (s : State) (j : Nat) (b : Byte) : (s.putBuf j b).rVal = s.rVal := rfl
@[simp] theorem State.putBuf_buf (s : State) (j : Nat) (b : Byte) :
    (s.putBuf j b).buf = Memory.write s.buf j b := rfl
@[simp] theorem State.putBuf_vin (s : State) (j : Nat) (b : Byte) : (s.putBuf j b).vin = s.vin := rfl
@[simp] theorem State.putBuf_vout (s : State) (j : Nat) (b : Byte) : (s.putBuf j b).vout = s.vout := rfl
@[simp] theorem State.putBuf_host (s : State) (j : Nat) (b : Byte) : (s.putBuf j b).host = s.host := rfl
@[simp] theorem State.putBuf_hostData (s : State) (j : Nat) (b : Byte) :
    (s.putBuf j b).hostData = s.hostData := rfl
@[simp] theorem State.putBuf_freeCount (s : State) (j : Nat) (b : Byte) :
    (s.putBuf j b).freeCount = s.freeCount := rfl

/-! ### `putVin` -/

@[simp] theorem State.putVin_status (s : State) (i : Nat) (v : Word) : (s.putVin i v).status = s.status := rfl
@[simp] theorem State.putVin_err (s : State) (i : Nat) (v : Word) : (s.putVin i v).err = s.err := rfl
@[simp] theorem State.putVin_cfg (s : State) (i : Nat) (v : Word) : (s.putVin i v).cfg = s.cfg := rfl
@[simp] theorem State.putVin_blockSize (s : State) (i : Nat) (v : Word) :
    (s.putVin i v).blockSize = s.blockSize := rfl
@[simp] theorem State.putVin_frameLen (s : State) (i : Nat) (v : Word) :
    (s.putVin i v).frameLen = s.frameLen := rfl
@[simp] theorem State.putVin_bufLen (s : State) (i : Nat) (v : Word) : (s.putVin i v).bufLen = s.bufLen := rfl
@[simp] theorem State.putVin_maxW (s : State) (i : Nat) (v : Word) : (s.putVin i v).maxW = s.maxW := rfl
@[simp] theorem State.putVin_prevW (s : State) (i : Nat) (v : Word) : (s.putVin i v).prevW = s.prevW := rfl
@[simp] theorem State.putVin_curW (s : State) (i : Nat) (v : Word) : (s.putVin i v).curW = s.curW := rfl
@[simp] theorem State.putVin_consumed (s : State) (i : Nat) (v : Word) :
    (s.putVin i v).consumed = s.consumed := rfl
@[simp] theorem State.putVin_pos (s : State) (i : Nat) (v : Word) : (s.putVin i v).pos = s.pos := rfl
@[simp] theorem State.putVin_nextOff (s : State) (i : Nat) (v : Word) :
    (s.putVin i v).nextOff = s.nextOff := rfl
@[simp] theorem State.putVin_aVal (s : State) (i : Nat) (v : Word) : (s.putVin i v).aVal = s.aVal := rfl
@[simp] theorem State.putVin_aN (s : State) (i : Nat) (v : Word) : (s.putVin i v).aN = s.aN := rfl
@[simp] theorem State.putVin_aK (s : State) (i : Nat) (v : Word) : (s.putVin i v).aK = s.aK := rfl
@[simp] theorem State.putVin_aIdx (s : State) (i : Nat) (v : Word) : (s.putVin i v).aIdx = s.aIdx := rfl
@[simp] theorem State.putVin_aOff (s : State) (i : Nat) (v : Word) : (s.putVin i v).aOff = s.aOff := rfl
@[simp] theorem State.putVin_rVal (s : State) (i : Nat) (v : Word) : (s.putVin i v).rVal = s.rVal := rfl
@[simp] theorem State.putVin_buf (s : State) (i : Nat) (v : Word) : (s.putVin i v).buf = s.buf := rfl
@[simp] theorem State.putVin_vin (s : State) (i : Nat) (v : Word) :
    (s.putVin i v).vin = Memory.write s.vin i v := rfl
@[simp] theorem State.putVin_vout (s : State) (i : Nat) (v : Word) : (s.putVin i v).vout = s.vout := rfl
@[simp] theorem State.putVin_host (s : State) (i : Nat) (v : Word) : (s.putVin i v).host = s.host := rfl
@[simp] theorem State.putVin_hostData (s : State) (i : Nat) (v : Word) :
    (s.putVin i v).hostData = s.hostData := rfl
@[simp] theorem State.putVin_freeCount (s : State) (i : Nat) (v : Word) :
    (s.putVin i v).freeCount = s.freeCount := rfl

/-! ### `putVout` -/

@[simp] theorem State.putVout_status (s : State) (i : Nat) (v : Word) : (s.putVout i v).status = s.status := rfl
@[simp] theorem State.putVout_err (s : State) (i : Nat) (v : Word) : (s.putVout i v).err = s.err := rfl
@[simp] theorem State.putVout_cfg (s : State) (i : Nat) (v : Word) : (s.putVout i v).cfg = s.cfg := rfl
@[simp] theorem State.putVout_blockSize (s : State) (i : Nat) (v : Word) :
    (s.putVout i v).blockSize = s.blockSize := rfl
@[simp] theorem State.putVout_frameLen (s : State) (i : Nat) (v : Word) :
    (s.putVout i v).frameLen = s.frameLen := rfl
@[simp] theorem State.putVout_bufLen (s : State) (i : Nat) (v : Word) : (s.putVout i v).bufLen = s.bufLen := rfl
@[simp] theorem State.putVout_maxW (s : State) (i : Nat) (v : Word) : (s.putVout i v).maxW = s.maxW := rfl
@[simp] theorem State.putVout_prevW (s : State) (i : Nat) (v : Word) : (s.putVout i v).prevW = s.prevW := rfl
@[simp] theorem State.putVout_curW (s : State) (i : Nat) (v : Word) : (s.putVout i v).curW = s.curW := rfl
@[simp] theorem State.putVout_consumed (s : State) (i : Nat) (v : Word) :
    (s.putVout i v).consumed = s.consumed := rfl
@[simp] theorem State.putVout_pos (s : State) (i : Nat) (v : Word) : (s.putVout i v).pos = s.pos := rfl
@[simp] theorem State.putVout_nextOff (s : State) (i : Nat) (v : Word) :
    (s.putVout i v).nextOff = s.nextOff := rfl
@[simp] theorem State.putVout_aVal (s : State) (i : Nat) (v : Word) : (s.putVout i v).aVal = s.aVal := rfl
@[simp] theorem State.putVout_aN (s : State) (i : Nat) (v : Word) : (s.putVout i v).aN = s.aN := rfl
@[simp] theorem State.putVout_aK (s : State) (i : Nat) (v : Word) : (s.putVout i v).aK = s.aK := rfl
@[simp] theorem State.putVout_aIdx (s : State) (i : Nat) (v : Word) : (s.putVout i v).aIdx = s.aIdx := rfl
@[simp] theorem State.putVout_aOff (s : State) (i : Nat) (v : Word) : (s.putVout i v).aOff = s.aOff := rfl
@[simp] theorem State.putVout_rVal (s : State) (i : Nat) (v : Word) : (s.putVout i v).rVal = s.rVal := rfl
@[simp] theorem State.putVout_buf (s : State) (i : Nat) (v : Word) : (s.putVout i v).buf = s.buf := rfl
@[simp] theorem State.putVout_vin (s : State) (i : Nat) (v : Word) : (s.putVout i v).vin = s.vin := rfl
@[simp] theorem State.putVout_vout (s : State) (i : Nat) (v : Word) :
    (s.putVout i v).vout = Memory.write s.vout i v := rfl
@[simp] theorem State.putVout_host (s : State) (i : Nat) (v : Word) : (s.putVout i v).host = s.host := rfl
@[simp] theorem State.putVout_hostData (s : State) (i : Nat) (v : Word) :
    (s.putVout i v).hostData = s.hostData := rfl
@[simp] theorem State.putVout_freeCount (s : State) (i : Nat) (v : Word) :
    (s.putVout i v).freeCount = s.freeCount := rfl

/-! ### `raiseFault` -/

@[simp] theorem raiseFault_status (k : FaultKind) (s : State) :
    (raiseFault k s).status = s.status ||| 1#8 := rfl
@[simp] theorem raiseFault_err (k : FaultKind) (s : State) : (raiseFault k s).err = k.code := rfl
@[simp] theorem raiseFault_cfg (k : FaultKind) (s : State) : (raiseFault k s).cfg = s.cfg := rfl
@[simp] theorem raiseFault_blockSize (k : FaultKind) (s : State) :
    (raiseFault k s).blockSize = s.blockSize := rfl
@[simp] theorem raiseFault_frameLen (k : FaultKind) (s : State) : (raiseFault k s).frameLen = s.frameLen := rfl
@[simp] theorem raiseFault_bufLen (k : FaultKind) (s : State) : (raiseFault k s).bufLen = s.bufLen := rfl
@[simp] theorem raiseFault_maxW (k : FaultKind) (s : State) : (raiseFault k s).maxW = s.maxW := rfl
@[simp] theorem raiseFault_prevW (k : FaultKind) (s : State) : (raiseFault k s).prevW = s.prevW := rfl
@[simp] theorem raiseFault_curW (k : FaultKind) (s : State) : (raiseFault k s).curW = s.curW := rfl
@[simp] theorem raiseFault_consumed (k : FaultKind) (s : State) : (raiseFault k s).consumed = s.consumed := rfl
@[simp] theorem raiseFault_pos (k : FaultKind) (s : State) : (raiseFault k s).pos = s.pos := rfl
@[simp] theorem raiseFault_nextOff (k : FaultKind) (s : State) : (raiseFault k s).nextOff = s.nextOff := rfl
@[simp] theorem raiseFault_aVal (k : FaultKind) (s : State) : (raiseFault k s).aVal = s.aVal := rfl
@[simp] theorem raiseFault_aN (k : FaultKind) (s : State) : (raiseFault k s).aN = s.aN := rfl
@[simp] theorem raiseFault_aK (k : FaultKind) (s : State) : (raiseFault k s).aK = s.aK := rfl
@[simp] theorem raiseFault_aIdx (k : FaultKind) (s : State) : (raiseFault k s).aIdx = s.aIdx := rfl
@[simp] theorem raiseFault_aOff (k : FaultKind) (s : State) : (raiseFault k s).aOff = s.aOff := rfl
@[simp] theorem raiseFault_rVal (k : FaultKind) (s : State) : (raiseFault k s).rVal = s.rVal := rfl
@[simp] theorem raiseFault_buf (k : FaultKind) (s : State) : (raiseFault k s).buf = s.buf := rfl
@[simp] theorem raiseFault_vin (k : FaultKind) (s : State) : (raiseFault k s).vin = s.vin := rfl
@[simp] theorem raiseFault_vout (k : FaultKind) (s : State) : (raiseFault k s).vout = s.vout := rfl
@[simp] theorem raiseFault_host (k : FaultKind) (s : State) : (raiseFault k s).host = s.host := rfl
@[simp] theorem raiseFault_hostData (k : FaultKind) (s : State) : (raiseFault k s).hostData = s.hostData := rfl
@[simp] theorem raiseFault_freeCount (k : FaultKind) (s : State) :
    (raiseFault k s).freeCount = s.freeCount := rfl

/-! ### `advance` -/

@[simp] theorem advance_status (n : Nat) (s : State) : (advance n s).status = s.status := rfl
@[simp] theorem advance_err (n : Nat) (s : State) : (advance n s).err = s.err := rfl
@[simp] theorem advance_cfg (n : Nat) (s : State) : (advance n s).cfg = s.cfg := rfl
@[simp] theorem advance_blockSize (n : Nat) (s : State) : (advance n s).blockSize = s.blockSize := rfl
@[simp] theorem advance_frameLen (n : Nat) (s : State) : (advance n s).frameLen = s.frameLen := rfl
@[simp] theorem advance_bufLen (n : Nat) (s : State) : (advance n s).bufLen = s.bufLen := rfl
@[simp] theorem advance_maxW (n : Nat) (s : State) : (advance n s).maxW = s.maxW := rfl
@[simp] theorem advance_prevW (n : Nat) (s : State) : (advance n s).prevW = s.prevW := rfl
@[simp] theorem advance_curW (n : Nat) (s : State) : (advance n s).curW = s.curW := rfl
@[simp] theorem advance_consumed (n : Nat) (s : State) : (advance n s).consumed = s.consumed := rfl
@[simp] theorem advance_pos (n : Nat) (s : State) : (advance n s).pos = s.pos + BitVec.ofNat 64 n := rfl
@[simp] theorem advance_nextOff (n : Nat) (s : State) : (advance n s).nextOff = s.nextOff := rfl
@[simp] theorem advance_aVal (n : Nat) (s : State) : (advance n s).aVal = s.aVal := rfl
@[simp] theorem advance_aN (n : Nat) (s : State) : (advance n s).aN = s.aN := rfl
@[simp] theorem advance_aK (n : Nat) (s : State) : (advance n s).aK = s.aK := rfl
@[simp] theorem advance_aIdx (n : Nat) (s : State) : (advance n s).aIdx = s.aIdx := rfl
@[simp] theorem advance_aOff (n : Nat) (s : State) : (advance n s).aOff = s.aOff := rfl
@[simp] theorem advance_rVal (n : Nat) (s : State) : (advance n s).rVal = s.rVal := rfl
@[simp] theorem advance_buf (n : Nat) (s : State) : (advance n s).buf = s.buf := rfl
@[simp] theorem advance_vin (n : Nat) (s : State) : (advance n s).vin = s.vin := rfl
@[simp] theorem advance_vout (n : Nat) (s : State) : (advance n s).vout = s.vout := rfl
@[simp] theorem advance_host (n : Nat) (s : State) : (advance n s).host = s.host := rfl
@[simp] theorem advance_hostData (n : Nat) (s : State) : (advance n s).hostData = s.hostData := rfl
@[simp] theorem advance_freeCount (n : Nat) (s : State) : (advance n s).freeCount = s.freeCount := rfl

/-! ### `alignPos` -/

@[simp] theorem alignPos_status (s : State) : (alignPos s).status = s.status := rfl
@[simp] theorem alignPos_err (s : State) : (alignPos s).err = s.err := rfl
@[simp] theorem alignPos_cfg (s : State) : (alignPos s).cfg = s.cfg := rfl
@[simp] theorem alignPos_blockSize (s : State) : (alignPos s).blockSize = s.blockSize := rfl
@[simp] theorem alignPos_frameLen (s : State) : (alignPos s).frameLen = s.frameLen := rfl
@[simp] theorem alignPos_bufLen (s : State) : (alignPos s).bufLen = s.bufLen := rfl
@[simp] theorem alignPos_maxW (s : State) : (alignPos s).maxW = s.maxW := rfl
@[simp] theorem alignPos_prevW (s : State) : (alignPos s).prevW = s.prevW := rfl
@[simp] theorem alignPos_curW (s : State) : (alignPos s).curW = s.curW := rfl
@[simp] theorem alignPos_consumed (s : State) : (alignPos s).consumed = s.consumed := rfl
@[simp] theorem alignPos_pos (s : State) : (alignPos s).pos = BitVec.ofNat 64 (alignUp s.pos.toNat) := rfl
@[simp] theorem alignPos_nextOff (s : State) : (alignPos s).nextOff = s.nextOff := rfl
@[simp] theorem alignPos_aVal (s : State) : (alignPos s).aVal = s.aVal := rfl
@[simp] theorem alignPos_aN (s : State) : (alignPos s).aN = s.aN := rfl
@[simp] theorem alignPos_aK (s : State) : (alignPos s).aK = s.aK := rfl
@[simp] theorem alignPos_aIdx (s : State) : (alignPos s).aIdx = s.aIdx := rfl
@[simp] theorem alignPos_aOff (s : State) : (alignPos s).aOff = s.aOff := rfl
@[simp] theorem alignPos_rVal (s : State) : (alignPos s).rVal = s.rVal := rfl
@[simp] theorem alignPos_buf (s : State) : (alignPos s).buf = s.buf := rfl
@[simp] theorem alignPos_vin (s : State) : (alignPos s).vin = s.vin := rfl
@[simp] theorem alignPos_vout (s : State) : (alignPos s).vout = s.vout := rfl
@[simp] theorem alignPos_host (s : State) : (alignPos s).host = s.host := rfl
@[simp] theorem alignPos_hostData (s : State) : (alignPos s).hostData = s.hostData := rfl
@[simp] theorem alignPos_freeCount (s : State) : (alignPos s).freeCount = s.freeCount := rfl

/-! ### `seekPos` -/

@[simp] theorem seekPos_status (s : State) : (seekPos s).status = s.status := rfl
@[simp] theorem seekPos_err (s : State) : (seekPos s).err = s.err := rfl
@[simp] theorem seekPos_cfg (s : State) : (seekPos s).cfg = s.cfg := rfl
@[simp] theorem seekPos_blockSize (s : State) : (seekPos s).blockSize = s.blockSize := rfl
@[simp] theorem seekPos_frameLen (s : State) : (seekPos s).frameLen = s.frameLen := rfl
@[simp] theorem seekPos_bufLen (s : State) : (seekPos s).bufLen = s.bufLen := rfl
@[simp] theorem seekPos_maxW (s : State) : (seekPos s).maxW = s.maxW := rfl
@[simp] theorem seekPos_prevW (s : State) : (seekPos s).prevW = s.prevW := rfl
@[simp] theorem seekPos_curW (s : State) : (seekPos s).curW = s.curW := rfl
@[simp] theorem seekPos_consumed (s : State) : (seekPos s).consumed = s.consumed := rfl
@[simp] theorem seekPos_pos (s : State) : (seekPos s).pos = BitVec.ofNat 64 (8 * s.aOff.toNat) := rfl
@[simp] theorem seekPos_nextOff (s : State) : (seekPos s).nextOff = s.nextOff := rfl
@[simp] theorem seekPos_aVal (s : State) : (seekPos s).aVal = s.aVal := rfl
@[simp] theorem seekPos_aN (s : State) : (seekPos s).aN = s.aN := rfl
@[simp] theorem seekPos_aK (s : State) : (seekPos s).aK = s.aK := rfl
@[simp] theorem seekPos_aIdx (s : State) : (seekPos s).aIdx = s.aIdx := rfl
@[simp] theorem seekPos_aOff (s : State) : (seekPos s).aOff = s.aOff := rfl
@[simp] theorem seekPos_rVal (s : State) : (seekPos s).rVal = s.rVal := rfl
@[simp] theorem seekPos_buf (s : State) : (seekPos s).buf = s.buf := rfl
@[simp] theorem seekPos_vin (s : State) : (seekPos s).vin = s.vin := rfl
@[simp] theorem seekPos_vout (s : State) : (seekPos s).vout = s.vout := rfl
@[simp] theorem seekPos_host (s : State) : (seekPos s).host = s.host := rfl
@[simp] theorem seekPos_hostData (s : State) : (seekPos s).hostData = s.hostData := rfl
@[simp] theorem seekPos_freeCount (s : State) : (seekPos s).freeCount = s.freeCount := rfl

/-! ### `setResult` -/

@[simp] theorem setResult_status (v : Nat) (s : State) : (setResult v s).status = s.status := rfl
@[simp] theorem setResult_err (v : Nat) (s : State) : (setResult v s).err = s.err := rfl
@[simp] theorem setResult_cfg (v : Nat) (s : State) : (setResult v s).cfg = s.cfg := rfl
@[simp] theorem setResult_blockSize (v : Nat) (s : State) : (setResult v s).blockSize = s.blockSize := rfl
@[simp] theorem setResult_frameLen (v : Nat) (s : State) : (setResult v s).frameLen = s.frameLen := rfl
@[simp] theorem setResult_bufLen (v : Nat) (s : State) : (setResult v s).bufLen = s.bufLen := rfl
@[simp] theorem setResult_maxW (v : Nat) (s : State) : (setResult v s).maxW = s.maxW := rfl
@[simp] theorem setResult_prevW (v : Nat) (s : State) : (setResult v s).prevW = s.prevW := rfl
@[simp] theorem setResult_curW (v : Nat) (s : State) : (setResult v s).curW = s.curW := rfl
@[simp] theorem setResult_consumed (v : Nat) (s : State) : (setResult v s).consumed = s.consumed := rfl
@[simp] theorem setResult_pos (v : Nat) (s : State) : (setResult v s).pos = s.pos := rfl
@[simp] theorem setResult_nextOff (v : Nat) (s : State) : (setResult v s).nextOff = s.nextOff := rfl
@[simp] theorem setResult_aVal (v : Nat) (s : State) : (setResult v s).aVal = s.aVal := rfl
@[simp] theorem setResult_aN (v : Nat) (s : State) : (setResult v s).aN = s.aN := rfl
@[simp] theorem setResult_aK (v : Nat) (s : State) : (setResult v s).aK = s.aK := rfl
@[simp] theorem setResult_aIdx (v : Nat) (s : State) : (setResult v s).aIdx = s.aIdx := rfl
@[simp] theorem setResult_aOff (v : Nat) (s : State) : (setResult v s).aOff = s.aOff := rfl
@[simp] theorem setResult_rVal (v : Nat) (s : State) : (setResult v s).rVal = BitVec.ofNat 64 v := rfl
@[simp] theorem setResult_buf (v : Nat) (s : State) : (setResult v s).buf = s.buf := rfl
@[simp] theorem setResult_vin (v : Nat) (s : State) : (setResult v s).vin = s.vin := rfl
@[simp] theorem setResult_vout (v : Nat) (s : State) : (setResult v s).vout = s.vout := rfl
@[simp] theorem setResult_host (v : Nat) (s : State) : (setResult v s).host = s.host := rfl
@[simp] theorem setResult_hostData (v : Nat) (s : State) : (setResult v s).hostData = s.hostData := rfl
@[simp] theorem setResult_freeCount (v : Nat) (s : State) : (setResult v s).freeCount = s.freeCount := rfl

/-! ### `setEncodedWidth` -/

@[simp] theorem setEncodedWidth_status (w : Nat) (s : State) : (setEncodedWidth w s).status = s.status := rfl
@[simp] theorem setEncodedWidth_err (w : Nat) (s : State) : (setEncodedWidth w s).err = s.err := rfl
@[simp] theorem setEncodedWidth_cfg (w : Nat) (s : State) : (setEncodedWidth w s).cfg = s.cfg := rfl
@[simp] theorem setEncodedWidth_blockSize (w : Nat) (s : State) :
    (setEncodedWidth w s).blockSize = s.blockSize := rfl
@[simp] theorem setEncodedWidth_frameLen (w : Nat) (s : State) :
    (setEncodedWidth w s).frameLen = s.frameLen := rfl
@[simp] theorem setEncodedWidth_bufLen (w : Nat) (s : State) : (setEncodedWidth w s).bufLen = s.bufLen := rfl
@[simp] theorem setEncodedWidth_maxW (w : Nat) (s : State) : (setEncodedWidth w s).maxW = s.maxW := rfl
@[simp] theorem setEncodedWidth_prevW (w : Nat) (s : State) :
    (setEncodedWidth w s).prevW = if w ≠ s.prevW.toNat then BitVec.ofNat 7 w else s.prevW := rfl
@[simp] theorem setEncodedWidth_curW (w : Nat) (s : State) :
    (setEncodedWidth w s).curW = BitVec.ofNat 7 w := rfl
@[simp] theorem setEncodedWidth_consumed (w : Nat) (s : State) :
    (setEncodedWidth w s).consumed = s.consumed := rfl
@[simp] theorem setEncodedWidth_pos (w : Nat) (s : State) : (setEncodedWidth w s).pos = s.pos := rfl
@[simp] theorem setEncodedWidth_nextOff (w : Nat) (s : State) : (setEncodedWidth w s).nextOff = s.nextOff := rfl
@[simp] theorem setEncodedWidth_aVal (w : Nat) (s : State) : (setEncodedWidth w s).aVal = s.aVal := rfl
@[simp] theorem setEncodedWidth_aN (w : Nat) (s : State) : (setEncodedWidth w s).aN = s.aN := rfl
@[simp] theorem setEncodedWidth_aK (w : Nat) (s : State) : (setEncodedWidth w s).aK = s.aK := rfl
@[simp] theorem setEncodedWidth_aIdx (w : Nat) (s : State) : (setEncodedWidth w s).aIdx = s.aIdx := rfl
@[simp] theorem setEncodedWidth_aOff (w : Nat) (s : State) : (setEncodedWidth w s).aOff = s.aOff := rfl
@[simp] theorem setEncodedWidth_rVal (w : Nat) (s : State) : (setEncodedWidth w s).rVal = s.rVal := rfl
@[simp] theorem setEncodedWidth_buf (w : Nat) (s : State) : (setEncodedWidth w s).buf = s.buf := rfl
@[simp] theorem setEncodedWidth_vin (w : Nat) (s : State) : (setEncodedWidth w s).vin = s.vin := rfl
@[simp] theorem setEncodedWidth_vout (w : Nat) (s : State) : (setEncodedWidth w s).vout = s.vout := rfl
@[simp] theorem setEncodedWidth_host (w : Nat) (s : State) : (setEncodedWidth w s).host = s.host := rfl
@[simp] theorem setEncodedWidth_hostData (w : Nat) (s : State) :
    (setEncodedWidth w s).hostData = s.hostData := rfl
@[simp] theorem setEncodedWidth_freeCount (w : Nat) (s : State) :
    (setEncodedWidth w s).freeCount = s.freeCount := rfl

/-! ### `frameStart` -/

@[simp] theorem frameStart_status (s : State) : (frameStart s).status = s.status := rfl
@[simp] theorem frameStart_err (s : State) : (frameStart s).err = s.err := rfl
@[simp] theorem frameStart_cfg (s : State) : (frameStart s).cfg = s.cfg := rfl
@[simp] theorem frameStart_blockSize (s : State) : (frameStart s).blockSize = s.blockSize := rfl
@[simp] theorem frameStart_frameLen (s : State) : (frameStart s).frameLen = s.frameLen := rfl
@[simp] theorem frameStart_bufLen (s : State) : (frameStart s).bufLen = s.bufLen := rfl
@[simp] theorem frameStart_maxW (s : State) : (frameStart s).maxW = s.maxW := rfl
@[simp] theorem frameStart_prevW (s : State) : (frameStart s).prevW = 0#7 := rfl
@[simp] theorem frameStart_curW (s : State) : (frameStart s).curW = s.curW := rfl
@[simp] theorem frameStart_consumed (s : State) : (frameStart s).consumed = 0#64 := rfl
@[simp] theorem frameStart_pos (s : State) : (frameStart s).pos = BitVec.ofNat 64 (8 * s.aOff.toNat) := rfl
@[simp] theorem frameStart_nextOff (s : State) : (frameStart s).nextOff = s.nextOff := rfl
@[simp] theorem frameStart_aVal (s : State) : (frameStart s).aVal = s.aVal := rfl
@[simp] theorem frameStart_aN (s : State) : (frameStart s).aN = s.aN := rfl
@[simp] theorem frameStart_aK (s : State) : (frameStart s).aK = s.aK := rfl
@[simp] theorem frameStart_aIdx (s : State) : (frameStart s).aIdx = s.aIdx := rfl
@[simp] theorem frameStart_aOff (s : State) : (frameStart s).aOff = s.aOff := rfl
@[simp] theorem frameStart_rVal (s : State) : (frameStart s).rVal = s.rVal := rfl
@[simp] theorem frameStart_buf (s : State) : (frameStart s).buf = s.buf := rfl
@[simp] theorem frameStart_vin (s : State) : (frameStart s).vin = s.vin := rfl
@[simp] theorem frameStart_vout (s : State) : (frameStart s).vout = s.vout := rfl
@[simp] theorem frameStart_host (s : State) : (frameStart s).host = s.host := rfl
@[simp] theorem frameStart_hostData (s : State) : (frameStart s).hostData = s.hostData := rfl
@[simp] theorem frameStart_freeCount (s : State) : (frameStart s).freeCount = s.freeCount := rfl

/-! ### `frameEnd` -/

@[simp] theorem frameEnd_status (s : State) : (frameEnd s).status = s.status := rfl
@[simp] theorem frameEnd_err (s : State) : (frameEnd s).err = s.err := rfl
@[simp] theorem frameEnd_cfg (s : State) : (frameEnd s).cfg = s.cfg := rfl
@[simp] theorem frameEnd_blockSize (s : State) : (frameEnd s).blockSize = s.blockSize := rfl
@[simp] theorem frameEnd_frameLen (s : State) : (frameEnd s).frameLen = s.frameLen := rfl
@[simp] theorem frameEnd_bufLen (s : State) : (frameEnd s).bufLen = s.bufLen := rfl
@[simp] theorem frameEnd_maxW (s : State) : (frameEnd s).maxW = s.maxW := rfl
@[simp] theorem frameEnd_prevW (s : State) : (frameEnd s).prevW = s.prevW := rfl
@[simp] theorem frameEnd_curW (s : State) : (frameEnd s).curW = s.curW := rfl
@[simp] theorem frameEnd_consumed (s : State) : (frameEnd s).consumed = s.consumed := rfl
@[simp] theorem frameEnd_pos (s : State) : (frameEnd s).pos = BitVec.ofNat 64 (alignUp s.pos.toNat) := rfl
@[simp] theorem frameEnd_nextOff (s : State) :
    (frameEnd s).nextOff = BitVec.ofNat 64 ((BitVec.ofNat 64 (alignUp s.pos.toNat)).toNat / 8) := rfl
@[simp] theorem frameEnd_aVal (s : State) : (frameEnd s).aVal = s.aVal := rfl
@[simp] theorem frameEnd_aN (s : State) : (frameEnd s).aN = s.aN := rfl
@[simp] theorem frameEnd_aK (s : State) : (frameEnd s).aK = s.aK := rfl
@[simp] theorem frameEnd_aIdx (s : State) : (frameEnd s).aIdx = s.aIdx := rfl
@[simp] theorem frameEnd_aOff (s : State) : (frameEnd s).aOff = s.aOff := rfl
@[simp] theorem frameEnd_rVal (s : State) : (frameEnd s).rVal = s.rVal := rfl
@[simp] theorem frameEnd_buf (s : State) : (frameEnd s).buf = s.buf := rfl
@[simp] theorem frameEnd_vin (s : State) : (frameEnd s).vin = s.vin := rfl
@[simp] theorem frameEnd_vout (s : State) : (frameEnd s).vout = s.vout := rfl
@[simp] theorem frameEnd_host (s : State) : (frameEnd s).host = s.host := rfl
@[simp] theorem frameEnd_hostData (s : State) : (frameEnd s).hostData = s.hostData := rfl
@[simp] theorem frameEnd_freeCount (s : State) : (frameEnd s).freeCount = s.freeCount := rfl

/-! ### `consume` -/

@[simp] theorem consume_status (k : Nat) (s : State) : (consume k s).status = s.status := rfl
@[simp] theorem consume_err (k : Nat) (s : State) : (consume k s).err = s.err := rfl
@[simp] theorem consume_cfg (k : Nat) (s : State) : (consume k s).cfg = s.cfg := rfl
@[simp] theorem consume_blockSize (k : Nat) (s : State) : (consume k s).blockSize = s.blockSize := rfl
@[simp] theorem consume_frameLen (k : Nat) (s : State) : (consume k s).frameLen = s.frameLen := rfl
@[simp] theorem consume_bufLen (k : Nat) (s : State) : (consume k s).bufLen = s.bufLen := rfl
@[simp] theorem consume_maxW (k : Nat) (s : State) : (consume k s).maxW = s.maxW := rfl
@[simp] theorem consume_prevW (k : Nat) (s : State) : (consume k s).prevW = s.prevW := rfl
@[simp] theorem consume_curW (k : Nat) (s : State) : (consume k s).curW = s.curW := rfl
@[simp] theorem consume_consumed (k : Nat) (s : State) :
    (consume k s).consumed = s.consumed + BitVec.ofNat 64 k := rfl
@[simp] theorem consume_pos (k : Nat) (s : State) : (consume k s).pos = s.pos := rfl
@[simp] theorem consume_nextOff (k : Nat) (s : State) : (consume k s).nextOff = s.nextOff := rfl
@[simp] theorem consume_aVal (k : Nat) (s : State) : (consume k s).aVal = s.aVal := rfl
@[simp] theorem consume_aN (k : Nat) (s : State) : (consume k s).aN = s.aN := rfl
@[simp] theorem consume_aK (k : Nat) (s : State) : (consume k s).aK = s.aK := rfl
@[simp] theorem consume_aIdx (k : Nat) (s : State) : (consume k s).aIdx = s.aIdx := rfl
@[simp] theorem consume_aOff (k : Nat) (s : State) : (consume k s).aOff = s.aOff := rfl
@[simp] theorem consume_rVal (k : Nat) (s : State) : (consume k s).rVal = s.rVal := rfl
@[simp] theorem consume_buf (k : Nat) (s : State) : (consume k s).buf = s.buf := rfl
@[simp] theorem consume_vin (k : Nat) (s : State) : (consume k s).vin = s.vin := rfl
@[simp] theorem consume_vout (k : Nat) (s : State) : (consume k s).vout = s.vout := rfl
@[simp] theorem consume_host (k : Nat) (s : State) : (consume k s).host = s.host := rfl
@[simp] theorem consume_hostData (k : Nat) (s : State) : (consume k s).hostData = s.hostData := rfl
@[simp] theorem consume_freeCount (k : Nat) (s : State) : (consume k s).freeCount = s.freeCount := rfl

/-! ### `raiseMaxW` -/

@[simp] theorem raiseMaxW_status (w : Nat) (s : State) : (raiseMaxW w s).status = s.status := rfl
@[simp] theorem raiseMaxW_err (w : Nat) (s : State) : (raiseMaxW w s).err = s.err := rfl
@[simp] theorem raiseMaxW_cfg (w : Nat) (s : State) : (raiseMaxW w s).cfg = s.cfg := rfl
@[simp] theorem raiseMaxW_blockSize (w : Nat) (s : State) : (raiseMaxW w s).blockSize = s.blockSize := rfl
@[simp] theorem raiseMaxW_frameLen (w : Nat) (s : State) : (raiseMaxW w s).frameLen = s.frameLen := rfl
@[simp] theorem raiseMaxW_bufLen (w : Nat) (s : State) : (raiseMaxW w s).bufLen = s.bufLen := rfl
@[simp] theorem raiseMaxW_maxW (w : Nat) (s : State) :
    (raiseMaxW w s).maxW = BitVec.ofNat 7 (max s.maxW.toNat w) := rfl
@[simp] theorem raiseMaxW_prevW (w : Nat) (s : State) : (raiseMaxW w s).prevW = s.prevW := rfl
@[simp] theorem raiseMaxW_curW (w : Nat) (s : State) : (raiseMaxW w s).curW = s.curW := rfl
@[simp] theorem raiseMaxW_consumed (w : Nat) (s : State) : (raiseMaxW w s).consumed = s.consumed := rfl
@[simp] theorem raiseMaxW_pos (w : Nat) (s : State) : (raiseMaxW w s).pos = s.pos := rfl
@[simp] theorem raiseMaxW_nextOff (w : Nat) (s : State) : (raiseMaxW w s).nextOff = s.nextOff := rfl
@[simp] theorem raiseMaxW_aVal (w : Nat) (s : State) : (raiseMaxW w s).aVal = s.aVal := rfl
@[simp] theorem raiseMaxW_aN (w : Nat) (s : State) : (raiseMaxW w s).aN = s.aN := rfl
@[simp] theorem raiseMaxW_aK (w : Nat) (s : State) : (raiseMaxW w s).aK = s.aK := rfl
@[simp] theorem raiseMaxW_aIdx (w : Nat) (s : State) : (raiseMaxW w s).aIdx = s.aIdx := rfl
@[simp] theorem raiseMaxW_aOff (w : Nat) (s : State) : (raiseMaxW w s).aOff = s.aOff := rfl
@[simp] theorem raiseMaxW_rVal (w : Nat) (s : State) : (raiseMaxW w s).rVal = s.rVal := rfl
@[simp] theorem raiseMaxW_buf (w : Nat) (s : State) : (raiseMaxW w s).buf = s.buf := rfl
@[simp] theorem raiseMaxW_vin (w : Nat) (s : State) : (raiseMaxW w s).vin = s.vin := rfl
@[simp] theorem raiseMaxW_vout (w : Nat) (s : State) : (raiseMaxW w s).vout = s.vout := rfl
@[simp] theorem raiseMaxW_host (w : Nat) (s : State) : (raiseMaxW w s).host = s.host := rfl
@[simp] theorem raiseMaxW_hostData (w : Nat) (s : State) : (raiseMaxW w s).hostData = s.hostData := rfl
@[simp] theorem raiseMaxW_freeCount (w : Nat) (s : State) : (raiseMaxW w s).freeCount = s.freeCount := rfl

/-! ### `setHostData` -/

@[simp] theorem setHostData_status (v : Word) (s : State) : (setHostData v s).status = s.status := rfl
@[simp] theorem setHostData_err (v : Word) (s : State) : (setHostData v s).err = s.err := rfl
@[simp] theorem setHostData_cfg (v : Word) (s : State) : (setHostData v s).cfg = s.cfg := rfl
@[simp] theorem setHostData_blockSize (v : Word) (s : State) : (setHostData v s).blockSize = s.blockSize := rfl
@[simp] theorem setHostData_frameLen (v : Word) (s : State) : (setHostData v s).frameLen = s.frameLen := rfl
@[simp] theorem setHostData_bufLen (v : Word) (s : State) : (setHostData v s).bufLen = s.bufLen := rfl
@[simp] theorem setHostData_maxW (v : Word) (s : State) : (setHostData v s).maxW = s.maxW := rfl
@[simp] theorem setHostData_prevW (v : Word) (s : State) : (setHostData v s).prevW = s.prevW := rfl
@[simp] theorem setHostData_curW (v : Word) (s : State) : (setHostData v s).curW = s.curW := rfl
@[simp] theorem setHostData_consumed (v : Word) (s : State) : (setHostData v s).consumed = s.consumed := rfl
@[simp] theorem setHostData_pos (v : Word) (s : State) : (setHostData v s).pos = s.pos := rfl
@[simp] theorem setHostData_nextOff (v : Word) (s : State) : (setHostData v s).nextOff = s.nextOff := rfl
@[simp] theorem setHostData_aVal (v : Word) (s : State) : (setHostData v s).aVal = s.aVal := rfl
@[simp] theorem setHostData_aN (v : Word) (s : State) : (setHostData v s).aN = s.aN := rfl
@[simp] theorem setHostData_aK (v : Word) (s : State) : (setHostData v s).aK = s.aK := rfl
@[simp] theorem setHostData_aIdx (v : Word) (s : State) : (setHostData v s).aIdx = s.aIdx := rfl
@[simp] theorem setHostData_aOff (v : Word) (s : State) : (setHostData v s).aOff = s.aOff := rfl
@[simp] theorem setHostData_rVal (v : Word) (s : State) : (setHostData v s).rVal = s.rVal := rfl
@[simp] theorem setHostData_buf (v : Word) (s : State) : (setHostData v s).buf = s.buf := rfl
@[simp] theorem setHostData_vin (v : Word) (s : State) : (setHostData v s).vin = s.vin := rfl
@[simp] theorem setHostData_vout (v : Word) (s : State) : (setHostData v s).vout = s.vout := rfl
@[simp] theorem setHostData_host (v : Word) (s : State) : (setHostData v s).host = s.host := rfl
@[simp] theorem setHostData_hostData (v : Word) (s : State) : (setHostData v s).hostData = v := rfl
@[simp] theorem setHostData_freeCount (v : Word) (s : State) : (setHostData v s).freeCount = s.freeCount := rfl

/-! ### `resetRegisters` -/

@[simp] theorem resetRegisters_status (s : State) : (resetRegisters s).status = 0#8 := rfl
@[simp] theorem resetRegisters_err (s : State) : (resetRegisters s).err = 0#8 := rfl
@[simp] theorem resetRegisters_cfg (s : State) : (resetRegisters s).cfg = 0#8 := rfl
@[simp] theorem resetRegisters_blockSize (s : State) : (resetRegisters s).blockSize = 12#64 := rfl
@[simp] theorem resetRegisters_frameLen (s : State) : (resetRegisters s).frameLen = 0#64 := rfl
@[simp] theorem resetRegisters_bufLen (s : State) : (resetRegisters s).bufLen = 0#64 := rfl
@[simp] theorem resetRegisters_maxW (s : State) : (resetRegisters s).maxW = 0#7 := rfl
@[simp] theorem resetRegisters_prevW (s : State) : (resetRegisters s).prevW = 0#7 := rfl
@[simp] theorem resetRegisters_curW (s : State) : (resetRegisters s).curW = 0#7 := rfl
@[simp] theorem resetRegisters_consumed (s : State) : (resetRegisters s).consumed = 0#64 := rfl
@[simp] theorem resetRegisters_pos (s : State) : (resetRegisters s).pos = 0#64 := rfl
@[simp] theorem resetRegisters_nextOff (s : State) : (resetRegisters s).nextOff = 0#64 := rfl
@[simp] theorem resetRegisters_aVal (s : State) : (resetRegisters s).aVal = 0#64 := rfl
@[simp] theorem resetRegisters_aN (s : State) : (resetRegisters s).aN = 0#8 := rfl
@[simp] theorem resetRegisters_aK (s : State) : (resetRegisters s).aK = 0#64 := rfl
@[simp] theorem resetRegisters_aIdx (s : State) : (resetRegisters s).aIdx = 0#64 := rfl
@[simp] theorem resetRegisters_aOff (s : State) : (resetRegisters s).aOff = 0#64 := rfl
@[simp] theorem resetRegisters_rVal (s : State) : (resetRegisters s).rVal = 0#64 := rfl
@[simp] theorem resetRegisters_buf (s : State) : (resetRegisters s).buf = s.buf := rfl
@[simp] theorem resetRegisters_vin (s : State) : (resetRegisters s).vin = s.vin := rfl
@[simp] theorem resetRegisters_vout (s : State) : (resetRegisters s).vout = s.vout := rfl
@[simp] theorem resetRegisters_host (s : State) : (resetRegisters s).host = s.host := rfl
@[simp] theorem resetRegisters_hostData (s : State) : (resetRegisters s).hostData = s.hostData := rfl
@[simp] theorem resetRegisters_freeCount (s : State) : (resetRegisters s).freeCount = s.freeCount := rfl

end Sys2Proof.Machine
end

