-- ==== Sys2Proof/Laws/Memory.lean ====
section
/-! SUPPORT. A memory is a finite map in canonical form: a read after a write, and every write keeps the
form (the memory laws behind 20_memory.md R60, R61, R66). -/

namespace Sys2Proof.Machine

variable {w : Nat}

@[simp] theorem Memory.read?_nil (a : Nat) : Memory.read? ([] : List (Nat × BitVec w)) a = none := rfl

theorem Memory.read?_write_same (m : List (Nat × BitVec w)) (a : Nat) (v : BitVec w) :
    Memory.read? (Memory.write m a v) a = some v := by
  induction m with
  | nil => simp [Memory.write, Memory.read?]
  | cons c rest ih =>
    obtain ⟨b, u⟩ := c
    unfold Memory.write
    split
    · simp [Memory.read?]
    · split
      · simp [Memory.read?]
      · rename_i h1 h2
        simp [Memory.read?, ih, Ne.symm h2]

theorem Memory.read?_write_other (m : List (Nat × BitVec w)) {a b : Nat} (v : BitVec w) (h : b ≠ a) :
    Memory.read? (Memory.write m a v) b = Memory.read? m b := by
  induction m with
  | nil => simp [Memory.write, Memory.read?, Ne.symm h]
  | cons c rest ih =>
    obtain ⟨x, u⟩ := c
    unfold Memory.write
    split
    · simp [Memory.read?, Ne.symm h]
    · split
      · rename_i h2
        subst h2
        simp [Memory.read?, Ne.symm h]
      · simp [Memory.read?, ih]

/-- What every cell holds after a write. -/
theorem Memory.read?_write (m : List (Nat × BitVec w)) (a b : Nat) (v : BitVec w) :
    Memory.read? (Memory.write m a v) b = if b = a then some v else Memory.read? m b := by
  split
  · rename_i h
    rw [h, Memory.read?_write_same]
  · rename_i h
    exact Memory.read?_write_other m v h

theorem Memory.risingFrom_mono {lo lo' : Nat} (h : lo' ≤ lo) {m : List (Nat × BitVec w)}
    (hm : Memory.risingFrom lo m = true) : Memory.risingFrom lo' m = true := by
  cases m with
  | nil => rfl
  | cons c rest =>
    simp only [Memory.risingFrom, Bool.and_eq_true, decide_eq_true_eq] at hm ⊢
    exact ⟨by omega, hm.2⟩

theorem Memory.risingFrom_write {lo : Nat} {m : List (Nat × BitVec w)} (hm : Memory.risingFrom lo m = true)
    {a : Nat} (ha : lo ≤ a) (v : BitVec w) : Memory.risingFrom lo (Memory.write m a v) = true := by
  induction m generalizing lo with
  | nil => simp [Memory.write, Memory.risingFrom, ha]
  | cons c rest ih =>
    obtain ⟨b, u⟩ := c
    simp only [Memory.risingFrom, Bool.and_eq_true, decide_eq_true_eq] at hm
    unfold Memory.write
    split
    · simp only [Memory.risingFrom, Bool.and_eq_true, decide_eq_true_eq]
      exact ⟨ha, by omega, hm.2⟩
    · split
      · rename_i h2
        subst h2
        simp only [Memory.risingFrom, Bool.and_eq_true, decide_eq_true_eq]
        exact ⟨ha, hm.2⟩
      · simp only [Memory.risingFrom, Bool.and_eq_true, decide_eq_true_eq]
        exact ⟨hm.1, ih hm.2 (by omega)⟩

/-- A write keeps the canonical form. -/
theorem Memory.wf_write {m : List (Nat × BitVec w)} (hm : Memory.wf m = true) (a : Nat) (v : BitVec w) :
    Memory.wf (Memory.write m a v) = true :=
  Memory.risingFrom_write hm (Nat.zero_le a) v

/-- A write inside the capacity keeps every cell inside it. -/
theorem Memory.below_write {cap : Nat} {m : List (Nat × BitVec w)} (hm : Memory.below cap m = true) {a : Nat}
    (ha : a < cap) (v : BitVec w) : Memory.below cap (Memory.write m a v) = true := by
  induction m with
  | nil => simp [Memory.write, Memory.below, ha]
  | cons c rest ih =>
    obtain ⟨b, u⟩ := c
    have hb : b < cap ∧ Memory.below cap rest = true := by
      simpa [Memory.below] using hm
    unfold Memory.write
    split
    · simpa [Memory.below, ha] using hm
    · split
      · simpa [Memory.below, ha] using hb.2
      · simpa [Memory.below, hb.1] using ih hb.2

/-- In canonical form, memories that hold the same in every cell are the same list. -/
theorem Memory.ext_of_wf {m n : List (Nat × BitVec w)} {lo : Nat} (hm : Memory.risingFrom lo m = true)
    (hn : Memory.risingFrom lo n = true) (h : ∀ a, Memory.read? m a = Memory.read? n a) : m = n := by
  have none_below : ∀ (l : List (Nat × BitVec w)) (k a : Nat), Memory.risingFrom k l = true → a < k →
      Memory.read? l a = none := by
    intro l
    induction l with
    | nil => intros; rfl
    | cons c rest ih =>
      intro k a hk hak
      simp only [Memory.risingFrom, Bool.and_eq_true, decide_eq_true_eq] at hk
      have hne : ¬c.1 = a := by omega
      simp only [Memory.read?, hne, if_false]
      exact ih (c.1 + 1) a hk.2 (by omega)
  induction m generalizing n lo with
  | nil =>
    cases n with
    | nil => rfl
    | cons c rest =>
      have := h c.1
      simp [Memory.read?] at this
  | cons c rest ih =>
    cases n with
    | nil =>
      have := h c.1
      simp [Memory.read?] at this
    | cons d rest' =>
      obtain ⟨a, u⟩ := c
      obtain ⟨b, v⟩ := d
      simp only [Memory.risingFrom, Bool.and_eq_true, decide_eq_true_eq] at hm hn
      have hab : a = b := by
        have h1 := h a
        have h2 := h b
        simp only [Memory.read?, if_true] at h1 h2
        by_contra hne
        rcases Nat.lt_or_gt_of_ne hne with hlt | hgt
        · rw [if_neg (Ne.symm hne), none_below rest' (b + 1) a hn.2 (by omega)] at h1
          exact Option.some_ne_none _ h1
        · rw [if_neg hne, none_below rest (a + 1) b hm.2 (by omega)] at h2
          exact Option.some_ne_none _ h2.symm
      subst hab
      have huv : u = v := by
        have h1 := h a
        simpa [Memory.read?] using h1
      subst huv
      have hrest : rest = rest' := by
        refine ih hm.2 hn.2 fun x => ?_
        by_cases hx : a = x
        · subst hx
          rw [none_below rest (a + 1) a hm.2 (by omega), none_below rest' (a + 1) a hn.2 (by omega)]
        · have h1 := h x
          simpa [Memory.read?, hx] using h1
      rw [hrest]

/-! ### The cells of the machine's memories -/

theorem State.bufByte_putBuf (s : State) (j k : Nat) (b : Byte) :
    (s.putBuf j b).bufByte k = if k = j then b else s.bufByte k := by
  unfold State.bufByte
  rw [State.putBuf_buf, Memory.read?_write]
  split <;> rfl

theorem State.voutCell_putVout (s : State) (i k : Nat) (v : Word) :
    (s.putVout i v).voutCell k = if k = i then v else s.voutCell k := by
  unfold State.voutCell
  rw [State.putVout_vout, Memory.read?_write]
  split <;> rfl

theorem State.vinCell_putVin (s : State) (i k : Nat) (v : Word) :
    (s.putVin i v).vinCell k = if k = i then v else s.vinCell k := by
  unfold State.vinCell
  rw [State.putVin_vin, Memory.read?_write]
  split <;> rfl

/-- The memories right after reset are in canonical form. -/
theorem reset_memories_wf :
    Memory.wf State.reset.buf = true ∧ Memory.wf State.reset.vin = true ∧
      Memory.wf State.reset.vout = true :=
  ⟨rfl, rfl, rfl⟩

end Sys2Proof.Machine
end

