-- ==== Sys2Proof/Laws/Fields.lean ====
section
/-! SUPPORT. The buffer primitives and the field operations, bit by bit: what `MemRead` reads (20_memory.md
R60), what `MemWrite` leaves in every bit and every byte (R61), and the two outcomes of `read_field` and
`write_field` (40_bit_cursor.md R120). -/

namespace Sys2Proof.Machine

/-! ### MemRead -/

theorem memRead_lt (s : State) (p n : Nat) : memRead s p n < 2 ^ n := by
  induction n generalizing p with
  | zero => simp [memRead]
  | succ n ih =>
    have h := ih (p + 1)
    have hb : (s.bufBit p).toNat ≤ 1 := Bool.toNat_le _
    rw [memRead, Nat.pow_succ]
    omega

theorem testBit_bool_add_two_mul (b : Bool) (x i : Nat) :
    (b.toNat + 2 * x).testBit i = if i = 0 then b else x.testBit (i - 1) := by
  cases i with
  | zero => cases b <;> simp [Nat.testBit_zero, Nat.add_mod]
  | succ i =>
    have : (b.toNat + 2 * x) / 2 = x := by
      have hb : b.toNat ≤ 1 := Bool.toNat_le _
      omega
    simp [Nat.testBit_succ, this]

/-- Bit `i` of a field read is the buffer's bit `p + i` (R60). -/
theorem memRead_testBit (s : State) (p n i : Nat) :
    (memRead s p n).testBit i = (decide (i < n) && s.bufBit (p + i)) := by
  induction n generalizing p i with
  | zero => simp [memRead]
  | succ n ih =>
    rw [memRead, testBit_bool_add_two_mul]
    cases i with
    | zero => simp
    | succ i => simp [ih, Nat.add_assoc, Nat.add_comm 1 i]

/-- The field that a run of known bits is. -/
theorem memRead_eq_of_bits {s : State} {p n v : Nat} (hv : v < 2 ^ n)
    (h : ∀ i, i < n → s.bufBit (p + i) = v.testBit i) : memRead s p n = v := by
  apply Nat.eq_of_testBit_eq
  intro i
  rw [memRead_testBit]
  by_cases hi : i < n
  · simp [hi, h i hi]
  · have : v.testBit i = false :=
      Nat.testBit_lt_two_pow (Nat.lt_of_lt_of_le hv (Nat.pow_le_pow_right (by omega) (by omega)))
    simp [hi, this]

/-- A field read depends on the buffer alone. -/
theorem memRead_congr {s t : State} (h : ∀ q, s.bufBit q = t.bufBit q) (p n : Nat) :
    memRead s p n = memRead t p n := by
  induction n generalizing p with
  | zero => rfl
  | succ n ih => rw [memRead, memRead, h, ih]

theorem State.bufByte_congr {s t : State} (h : s.buf = t.buf) (j : Nat) : s.bufByte j = t.bufByte j := by
  unfold State.bufByte
  rw [h]

theorem State.bufBit_congr {s t : State} (h : s.buf = t.buf) (q : Nat) : s.bufBit q = t.bufBit q := by
  unfold State.bufBit
  rw [State.bufByte_congr h]

theorem memRead_of_buf_eq {s t : State} (h : s.buf = t.buf) (p n : Nat) : memRead s p n = memRead t p n :=
  memRead_congr (State.bufBit_congr h) p n

/-- A field is its low part and its high part (R62). -/
theorem memRead_add (s : State) (p m n : Nat) :
    memRead s p (m + n) = memRead s p m + memRead s (p + m) n * 2 ^ m := by
  induction m generalizing p with
  | zero => simp [memRead]
  | succ m ih =>
    rw [Nat.succ_add, memRead, ih, memRead, Nat.pow_succ, Nat.add_right_comm p 1 m, Nat.add_assoc p m 1]
    ring

/-! ### MemWrite -/

/-- `orBytes` changes the buffer and nothing else. -/
theorem orBytes_eq (count j x : Nat) (s : State) :
    orBytes count j x s = { s with buf := (orBytes count j x s).buf } := by
  induction count generalizing j x s with
  | zero => rfl
  | succ count ih =>
    rw [orBytes, ih]
    rfl

theorem orBytes_read?_outside (count j x : Nat) (s : State) {k : Nat} (h : k < j ∨ j + count ≤ k) :
    Memory.read? (orBytes count j x s).buf k = Memory.read? s.buf k := by
  induction count generalizing j x s with
  | zero => rfl
  | succ count ih =>
    rw [orBytes, ih _ _ _ (by omega), State.putBuf_buf, Memory.read?_write_other]
    omega

theorem orBytes_bufByte (count j x : Nat) (s : State) (k : Nat) :
    (orBytes count j x s).bufByte k =
      if j ≤ k ∧ k < j + count then s.bufByte k ||| BitVec.ofNat 8 (x / 256 ^ (k - j)) else s.bufByte k := by
  induction count generalizing j x s with
  | zero => rw [if_neg (by omega)]; rfl
  | succ count ih =>
    rw [orBytes, ih, State.bufByte_putBuf]
    by_cases hk : k = j
    · subst hk
      rw [if_neg (by omega), if_pos rfl, if_pos (by omega)]
      simp
    · rw [if_neg hk]
      by_cases hin : j + 1 ≤ k ∧ k < j + 1 + count
      · rw [if_pos hin, if_pos (by omega), Nat.div_div_eq_div_mul, ← Nat.pow_succ']
        congr 4
        omega
      · rw [if_neg hin, if_neg (by omega)]

theorem orBytes_wf {count j x : Nat} {s : State} (h : Memory.wf s.buf = true) :
    Memory.wf (orBytes count j x s).buf = true := by
  induction count generalizing j x s with
  | zero => exact h
  | succ count ih => exact ih (Memory.wf_write h _ _)

theorem orBytes_below {cap count j x : Nat} {s : State} (h : Memory.below cap s.buf = true)
    (hj : count = 0 ∨ j + count ≤ cap) : Memory.below cap (orBytes count j x s).buf = true := by
  induction count generalizing j x s with
  | zero => exact h
  | succ count ih => exact ih (Memory.below_write h (by omega) _) (by omega)

/-- `MemWrite` changes the buffer and nothing else. -/
theorem memWrite_eq (p n v : Nat) (s : State) :
    memWrite p n v s = { s with buf := (memWrite p n v s).buf } :=
  orBytes_eq _ _ _ _

@[simp] theorem memWrite_zero_width (p v : Nat) (s : State) : memWrite p 0 v s = s := rfl

/-- A byte the field does not touch stays as it was (R61): even an unwritten one stays unwritten. -/
theorem memWrite_read?_outside (p n v : Nat) (s : State) {j : Nat}
    (h : ¬(0 < n ∧ p / 8 ≤ j ∧ 8 * j < p + n)) :
    Memory.read? (memWrite p n v s).buf j = Memory.read? s.buf j := by
  apply orBytes_read?_outside
  unfold bytesSpanned
  split <;> omega

/-- Every bit of the buffer after `MemWrite`: the bits of `v` are ORed in at `p` (R61). -/
theorem memWrite_bufBit {p n v : Nat} (hv : v < 2 ^ n) (s : State) (q : Nat) :
    (memWrite p n v s).bufBit q = (s.bufBit q || (decide (p ≤ q) && v.testBit (q - p))) := by
  have hhigh : ∀ i, n ≤ i → v.testBit i = false := fun i hi =>
    Nat.testBit_lt_two_pow (Nat.lt_of_lt_of_le hv (Nat.pow_le_pow_right (by omega) hi))
  unfold State.bufBit memWrite
  rw [orBytes_bufByte]
  by_cases hn : n = 0
  · have hz : v = 0 := by
      subst hn
      simpa using hv
    subst hz
    simp [bytesSpanned, hn]
  · have hspan : bytesSpanned p n = (p + n - 1) / 8 + 1 - p / 8 := by
      unfold bytesSpanned
      rw [if_neg hn]
    rw [hspan]
    split
    · rename_i hin
      have hpow : (256 : Nat) ^ (q / 8 - p / 8) = 2 ^ (8 * (q / 8 - p / 8)) := by
        rw [Nat.pow_mul]
      have hlt : q % 8 < 8 := Nat.mod_lt _ (by omega)
      rw [BitVec.getLsbD_or, BitVec.getLsbD_ofNat, hpow, Nat.testBit_div_two_pow, Nat.mul_comm,
        Nat.testBit_two_pow_mul]
      have e1 : decide (q % 8 < 8) = true := by simpa using hlt
      rw [e1, Bool.true_and]
      have e2 : decide (8 * (q / 8 - p / 8) + q % 8 ≥ p % 8) = decide (p ≤ q) := by
        apply decide_eq_decide.mpr
        omega
      by_cases hpq : p ≤ q
      · have e3 : 8 * (q / 8 - p / 8) + q % 8 - p % 8 = q - p := by omega
        have e2' : p % 8 ≤ q % 8 + 8 * (q / 8 - p / 8) := by omega
        have e3' : q % 8 + 8 * (q / 8 - p / 8) - p % 8 = q - p := by omega
        simp [hpq, e2', e3']
      · have e2' : ¬p % 8 ≤ q % 8 + 8 * (q / 8 - p / 8) := by omega
        simp [hpq, e2']
    · rename_i hout
      by_cases hpq : p ≤ q
      · rw [hhigh (q - p) (by omega)]
        simp
      · simp [hpq]

theorem memWrite_wf {p n v : Nat} {s : State} (h : Memory.wf s.buf = true) :
    Memory.wf (memWrite p n v s).buf = true :=
  orBytes_wf h

theorem memWrite_below {cap p n v : Nat} {s : State} (h : Memory.below cap s.buf = true)
    (hp : p + n ≤ 8 * cap) : Memory.below cap (memWrite p n v s).buf = true := by
  apply orBytes_below h
  unfold bytesSpanned
  split <;> omega

/-! ### The field operations -/

theorem inBounds_iff (s : State) (n : Nat) :
    inBounds s n = true ↔ s.pos.toNat + n ≤ 8 * s.bufLen.toNat := by
  simp [inBounds]

/-- `read_field` in bounds (R120). -/
theorem readField_of_fits {s : State} {n : Nat} (h : s.pos.toNat + n ≤ 8 * s.bufLen.toNat) :
    readField n s = .done (memRead s s.pos.toNat n) (advance n s) := by
  unfold readField
  rw [if_pos ((inBounds_iff s n).mpr h)]

/-- `read_field` out of bounds: `ReadOverrun`, nothing else (R120). -/
theorem readField_of_not_fits {s : State} {n : Nat} (h : ¬s.pos.toNat + n ≤ 8 * s.bufLen.toNat) :
    readField n s = .raised (raiseFault .readOverrun s) := by
  unfold readField
  rw [if_neg (fun hb => h ((inBounds_iff s n).mp hb))]
  rfl

/-- `write_field` in bounds (R120). -/
theorem writeField_of_fits {s : State} {v n : Nat} (h : s.pos.toNat + n ≤ 8 * s.bufLen.toNat) :
    writeField v n s = .done () (advance n (memWrite s.pos.toNat n v s)) := by
  unfold writeField
  rw [if_pos ((inBounds_iff s n).mpr h)]

/-- `write_field` out of bounds: `WriteOverrun`, nothing else (R120). -/
theorem writeField_of_not_fits {s : State} {v n : Nat} (h : ¬s.pos.toNat + n ≤ 8 * s.bufLen.toNat) :
    writeField v n s = .raised (raiseFault .writeOverrun s) := by
  unfold writeField
  rw [if_neg (fun hb => h ((inBounds_iff s n).mp hb))]
  rfl

/-- The position after an advance that stays inside a buffer of the machine (R32: it cannot wrap). -/
theorem advance_pos_toNat {s : State} {n : Nat} (h : s.pos.toNat + n < 2 ^ 64) :
    (advance n s).pos.toNat = s.pos.toNat + n := by
  rw [advance_pos, BitVec.toNat_add, BitVec.toNat_ofNat]
  omega

theorem advance_advance (m n : Nat) (s : State) : advance n (advance m s) = advance (m + n) s := by
  unfold advance
  simp [BitVec.add_assoc, BitVec.ofNat_add]

@[simp] theorem advance_zero (s : State) : advance 0 s = s := by
  simp [advance]

end Sys2Proof.Machine
end

