-- ==== Sys2Proof/Laws/Runs.lean ====
section
/-! SUPPORT. Sequencing and command acceptance: what a `Run` comes to (60_exceptions.md R224, R229) and the
three things a command can do (44_system.md R210, 60_exceptions.md R223). -/

namespace Sys2Proof.Machine

variable {α β : Type}

@[simp] theorem Run.bind_done (a : α) (s : State) (f : α → State → Run β) : (Run.done a s).bind f = f a s := rfl

@[simp] theorem Run.bind_raised (s : State) (f : α → State → Run β) : (Run.raised s).bind f = .raised s := rfl

@[simp] theorem Run.state_done (a : α) (s : State) : (Run.done a s).state = s := rfl

@[simp] theorem Run.state_raised (s : State) : (Run.raised s : Run α).state = s := rfl

theorem Run.bind_assoc {γ : Type} (r : Run α) (f : α → State → Run β) (g : β → State → Run γ) :
    (r.bind f).bind g = r.bind fun a s => (f a s).bind g := by
  cases r <;> rfl

/-- A sequence completes exactly when both its parts do. -/
theorem Run.bind_eq_done {r : Run α} {f : α → State → Run β} {b : β} {t : State} :
    r.bind f = .done b t ↔ ∃ a s, r = .done a s ∧ f a s = .done b t := by
  cases r with
  | done a s =>
    constructor
    · exact fun h => ⟨a, s, rfl, h⟩
    · rintro ⟨a', s', h1, h2⟩
      cases h1
      exact h2
  | raised s =>
    constructor
    · intro h
      cases h
    · rintro ⟨a', s', h1, _⟩
      cases h1

/-- A sequence raises a fault exactly when one of its parts does. -/
theorem Run.bind_eq_raised {r : Run α} {f : α → State → Run β} {t : State} :
    r.bind f = .raised t ↔ r = .raised t ∨ ∃ a s, r = .done a s ∧ f a s = .raised t := by
  cases r with
  | done a s =>
    constructor
    · exact fun h => .inr ⟨a, s, rfl, h⟩
    · rintro (h | ⟨a', s', h1, h2⟩)
      · cases h
      · cases h1
        exact h2
  | raised s =>
    constructor
    · exact fun h => .inl (by simpa using h)
    · rintro (h | ⟨a', s', h1, _⟩)
      · simpa using h
      · cases h1

/-- A property of states that a run keeps, whether it completes or raises a fault. -/
def Run.Keeps (P : State → Prop) (r : Run α) : Prop := P r.state

theorem Run.Keeps.bind {P : State → Prop} {r : Run α} {f : α → State → Run β} (hr : r.Keeps P)
    (hf : ∀ a s, r = .done a s → P s → (f a s).Keeps P) : (r.bind f).Keeps P := by
  cases r with
  | done a s => exact hf a s rfl hr
  | raised s => exact hr

@[simp] theorem firstFailing_nil : firstFailing [] = none := rfl

@[simp] theorem firstFailing_cons (b : Bool) (k : FaultKind) (rest : List (Bool × FaultKind)) :
    firstFailing ((b, k) :: rest) = if b then some k else firstFailing rest := rfl

theorem firstFailing_eq_none {checks : List (Bool × FaultKind)} :
    firstFailing checks = none ↔ ∀ c ∈ checks, c.1 = false := by
  induction checks with
  | nil => simp
  | cons c rest ih =>
    obtain ⟨b, k⟩ := c
    cases b <;> simp [ih]

theorem firstFailing_mem {checks : List (Bool × FaultKind)} {k : FaultKind}
    (h : firstFailing checks = some k) : (true, k) ∈ checks := by
  induction checks with
  | nil => simp at h
  | cons c rest ih =>
    obtain ⟨b, k'⟩ := c
    cases b with
    | true =>
      simp only [firstFailing_cons, if_true, Option.some.injEq] at h
      simp [h]
    | false => exact List.mem_cons_of_mem _ (ih (by simpa using h))

/-- The three things a command can do: be ignored by a faulted core, fail a check, or run (R210, R223). -/
theorem runCommand_cases (checks : List (Bool × FaultKind)) (body : State → Run Unit) (s : State) :
    (s.faulted = true ∧ runCommand checks body s = .next s) ∨
      (s.faulted = false ∧
        ∃ k, firstFailing checks = some k ∧ runCommand checks body s = .next (raiseFault k s)) ∨
      (s.faulted = false ∧ firstFailing checks = none ∧
        runCommand checks body s = .next (body s).state) := by
  unfold runCommand
  cases hf : s.faulted with
  | true => exact .inl ⟨rfl, rfl⟩
  | false =>
    cases hc : firstFailing checks with
    | some k => exact .inr (.inl ⟨rfl, k, rfl, rfl⟩)
    | none => exact .inr (.inr ⟨rfl, rfl, rfl⟩)

theorem runCommand_of_faulted {s : State} (h : s.faulted = true) (checks : List (Bool × FaultKind))
    (body : State → Run Unit) : runCommand checks body s = .next s := by
  simp [runCommand, h]

theorem runCommand_of_check {s : State} {checks : List (Bool × FaultKind)} {k : FaultKind}
    (h : s.faulted = false) (hc : firstFailing checks = some k) (body : State → Run Unit) :
    runCommand checks body s = .next (raiseFault k s) := by
  simp [runCommand, h, hc]

theorem runCommand_of_pass {s : State} {checks : List (Bool × FaultKind)} (h : s.faulted = false)
    (hc : firstFailing checks = none) (body : State → Run Unit) :
    runCommand checks body s = .next (body s).state := by
  simp [runCommand, h, hc]

/-- Raising a fault leaves the core faulted (R36, R224). -/
@[simp] theorem raiseFault_faulted (k : FaultKind) (s : State) : (raiseFault k s).faulted = true := by
  simp [State.faulted]

theorem faulted_congr {s t : State} (h : s.status = t.status) : s.faulted = t.faulted := by
  unfold State.faulted
  rw [h]

end Sys2Proof.Machine
end

