-- ==== Sys2Proof/Laws/Stream.lean ====
section
/-! SUPPORT. Stream bit strings: the bits of a field, what ORing a bit string into the buffer does when it is
done piece by piece, and reading back a field that the buffer holds (20_memory.md R60 to R62). -/

namespace Sys2Proof

/-! ### The bits of a field -/

@[simp] theorem fieldBits_length (n v : Nat) : (fieldBits n v).length = n := by
  simp [fieldBits]

theorem fieldBits_getD (n v i : Nat) : (fieldBits n v).getD i false = (decide (i < n) && v.testBit i) := by
  unfold fieldBits
  rw [List.getD_eq_getElem?_getD, List.getElem?_map]
  by_cases h : i < n <;> simp [h]

theorem fieldBits_getD_of_lt {n v : Nat} (hv : v < 2 ^ n) (i : Nat) :
    (fieldBits n v).getD i false = v.testBit i := by
  rw [fieldBits_getD]
  by_cases h : i < n
  · simp [h]
  · have : v.testBit i = false :=
      Nat.testBit_lt_two_pow (Nat.lt_of_lt_of_le hv (Nat.pow_le_pow_right (by omega) (by omega)))
    simp [h, this]

theorem bitsToNat_fieldBits {n v : Nat} (hv : v < 2 ^ n) : bitsToNat (fieldBits n v) = v := by
  induction n generalizing v with
  | zero =>
    have : v = 0 := by simpa using hv
    subst this
    rfl
  | succ n ih =>
    have hsplit : fieldBits (n + 1) v = v.testBit 0 :: fieldBits n (v / 2) := by
      unfold fieldBits
      rw [List.range_succ_eq_map, List.map_cons, List.map_map]
      congr 1
      apply List.map_congr_left
      intro i _
      simp [Nat.testBit_succ]
    have hv2 : v / 2 < 2 ^ n := by
      rw [Nat.pow_succ] at hv
      omega
    rw [hsplit, bitsToNat, ih hv2]
    have : (v.testBit 0).toNat = v % 2 := by
      rw [Nat.testBit_zero]
      rcases Nat.mod_two_eq_zero_or_one v with h | h <;> simp [h]
    omega

/-- A field is the concatenation of its low and its high part (R62). -/
theorem fieldBits_append (m n a b : Nat) (ha : a < 2 ^ m) :
    fieldBits m a ++ fieldBits n b = fieldBits (m + n) (a + 2 ^ m * b) := by
  apply List.ext_getElem?
  intro i
  have key : ∀ i, (fieldBits m a ++ fieldBits n b).getD i false =
      (fieldBits (m + n) (a + 2 ^ m * b)).getD i false := by
    intro i
    rw [fieldBits_getD, Nat.add_comm a, Nat.testBit_two_pow_mul_add _ ha]
    by_cases h : i < m
    · rw [List.getD_append _ _ _ _ (by simpa using h), fieldBits_getD]
      have : i < m + n := by omega
      simp [h, this]
    · rw [List.getD_append_right _ _ _ _ (by simpa using h), fieldBits_getD, fieldBits_length, if_neg h]
      congr 1
      apply decide_eq_decide.mpr
      omega
  by_cases h : i < m + n
  · have h1 : i < (fieldBits m a ++ fieldBits n b).length := by simpa using h
    have h2 : i < (fieldBits (m + n) (a + 2 ^ m * b)).length := by simpa using h
    have := key i
    rw [List.getD_eq_getElem _ _ h1, List.getD_eq_getElem _ _ h2] at this
    rw [List.getElem?_eq_getElem h1, List.getElem?_eq_getElem h2, this]
  · rw [List.getElem?_eq_none (by simpa using h), List.getElem?_eq_none (by simpa using h)]

end Sys2Proof

namespace Sys2Proof.Machine

/-! ### ORing bits into the buffer, piece by piece -/

theorem OredAt.refl (s : State) (p : Nat) : OredAt s s p [] :=
  ⟨fun q => by simp, fun _ _ => rfl⟩

theorem OredAt.of_buf_eq {s t t' : State} {p : Nat} {bits : List Bool} (h : OredAt s t p bits)
    (hb : t'.buf = t.buf) : OredAt s t' p bits :=
  ⟨fun q => by rw [State.bufBit_congr hb]; exact h.bit q, fun j hj => by rw [hb]; exact h.outside j hj⟩

theorem OredAt.of_buf_eq_left {s s' t : State} {p : Nat} {bits : List Bool} (h : OredAt s t p bits)
    (hb : s'.buf = s.buf) : OredAt s' t p bits :=
  ⟨fun q => by rw [State.bufBit_congr hb]; exact h.bit q, fun j hj => by rw [hb]; exact h.outside j hj⟩

/-- Two pieces one after the other are their concatenation (R62). -/
theorem OredAt.trans {s t u : State} {p : Nat} {b c : List Bool} (h1 : OredAt s t p b)
    (h2 : OredAt t u (p + b.length) c) : OredAt s u p (b ++ c) := by
  constructor
  · intro q
    rw [h2.bit, h1.bit]
    by_cases hp : p ≤ q
    · by_cases hb : q - p < b.length
      · have : ¬p + b.length ≤ q := by omega
        rw [List.getD_append _ _ _ _ hb]
        simp [hp, this]
      · have h3 : p + b.length ≤ q := by omega
        have h4 : q - (p + b.length) = q - p - b.length := by omega
        rw [List.getD_append_right _ _ _ _ (by omega), List.getD_eq_default _ _ (by omega : b.length ≤ q - p),
          h4]
        simp [hp, h3]
    · have : ¬p + b.length ≤ q := by omega
      simp [hp, this]
  · intro j hj
    rw [List.length_append] at hj
    rw [h2.outside j (by omega), h1.outside j (by omega)]

/-- `MemWrite` ORs the field's bits in (R61). -/
theorem oredAt_memWrite {p n v : Nat} (hv : v < 2 ^ n) (s : State) :
    OredAt s (memWrite p n v s) p (fieldBits n v) := by
  constructor
  · intro q
    rw [memWrite_bufBit hv, fieldBits_getD_of_lt hv]
  · intro j hj
    rw [fieldBits_length] at hj
    exact memWrite_read?_outside p n v s hj

/-- `write_field` in bounds: the bits are ORed in and the cursor moves past them (R120). -/
theorem writeField_done {s : State} {v n : Nat} (hv : v < 2 ^ n)
    (h : s.pos.toNat + n ≤ 8 * s.bufLen.toNat) :
    ∃ b, writeField v n s = .done () { s with buf := b, pos := s.pos + BitVec.ofNat 64 n } ∧
      OredAt s { s with buf := b, pos := s.pos + BitVec.ofNat 64 n } s.pos.toNat (fieldBits n v) := by
  refine ⟨(memWrite s.pos.toNat n v s).buf, ?_, ?_⟩
  · rw [writeField_of_fits h, memWrite_eq]
    rfl
  · exact (oredAt_memWrite hv s).of_buf_eq rfl

/-! ### Reading bits the buffer holds -/

theorem holdsBits_append {s : State} {p : Nat} {b c : List Bool} :
    holdsBits s p (b ++ c) ↔ holdsBits s p b ∧ holdsBits s (p + b.length) c := by
  constructor
  · intro h
    constructor
    · intro i hi
      rw [h i (by rw [List.length_append]; omega), List.getD_append _ _ _ _ hi]
    · intro i hi
      have := h (b.length + i) (by rw [List.length_append]; omega)
      rw [← Nat.add_assoc] at this
      rw [this, List.getD_append_right _ _ _ _ (by omega)]
      congr 1
      omega
  · rintro ⟨h1, h2⟩ i hi
    rw [List.length_append] at hi
    by_cases hb : i < b.length
    · rw [h1 i hb, List.getD_append _ _ _ _ hb]
    · have := h2 (i - b.length) (by omega)
      rw [List.getD_append_right _ _ _ _ (by omega), ← this]
      congr 1
      omega

theorem holdsBits_congr {s t : State} {p : Nat} {b : List Bool} (h : s.buf = t.buf) :
    holdsBits s p b ↔ holdsBits t p b := by
  unfold holdsBits
  simp only [State.bufBit_congr h]

theorem memRead_of_holds {s : State} {p n v : Nat} (hv : v < 2 ^ n) (h : holdsBits s p (fieldBits n v)) :
    memRead s p n = v := by
  apply memRead_eq_of_bits hv
  intro i hi
  rw [h i (by simpa using hi), fieldBits_getD_of_lt hv]

/-- `read_field` of a field the buffer holds at the cursor (R60, R120). -/
theorem readField_of_holds {s : State} {n v : Nat} (hv : v < 2 ^ n)
    (h : holdsBits s s.pos.toNat (fieldBits n v)) (hf : s.pos.toNat + n ≤ 8 * s.bufLen.toNat) :
    readField n s = .done v (advance n s) := by
  rw [readField_of_fits hf, memRead_of_holds hv h]

/-- What the buffer holds after ORing into zero bits. -/
theorem OredAt.holds {s t : State} {p : Nat} {b : List Bool} (h : OredAt s t p b)
    (hz : ∀ i, i < b.length → s.bufBit (p + i) = false) : holdsBits t p b := by
  intro i hi
  rw [h.bit, hz i hi]
  simp

end Sys2Proof.Machine
end

