-- ==== Sys2Proof/Laws/Header.lean ====
section
/-! SUPPORT. The header code: a form's bits field by field (30_encoding.md R93, R94), the form the encoder
chooses (R107), and what encoding and fetching a header can do (42_header_code.md R160, R162). -/

namespace Sys2Proof

/-! ### The bits of a form, field by field -/

theorem HeaderForm.bits_reuse : HeaderForm.bits .reuse = fieldBits 1 1 := rfl

theorem HeaderForm.bits_abs3 (a : BitVec 3) :
    HeaderForm.bits (.abs3 a) = fieldBits 1 0 ++ fieldBits 3 a.toNat := by
  rw [fieldBits_append 1 3 0 _ (by decide)]
  simp [HeaderForm.bits, HeaderForm.length, HeaderForm.value]

theorem HeaderForm.bits_abs5 (b : BitVec 2) :
    HeaderForm.bits (.abs5 b) = fieldBits 1 0 ++ (fieldBits 3 7 ++ fieldBits 2 b.toNat) := by
  rw [fieldBits_append 3 2 7 _ (by decide), fieldBits_append 1 5 0 _ (by decide)]
  simp only [HeaderForm.bits, HeaderForm.length, HeaderForm.value]
  congr 1
  omega

theorem HeaderForm.bits_abs11 (c : BitVec 6) :
    HeaderForm.bits (.abs11 c) =
      fieldBits 1 0 ++ (fieldBits 3 7 ++ (fieldBits 2 3 ++ fieldBits 6 c.toNat)) := by
  rw [fieldBits_append 2 6 3 _ (by decide), fieldBits_append 3 8 7 _ (by decide),
    fieldBits_append 1 11 0 _ (by decide)]
  simp only [HeaderForm.bits, HeaderForm.length, HeaderForm.value]
  congr 1
  omega

theorem HeaderForm.bits_abs11Illegal (c : BitVec 6) :
    HeaderForm.bits (.abs11Illegal c) =
      fieldBits 1 0 ++ (fieldBits 3 7 ++ (fieldBits 2 3 ++ fieldBits 6 c.toNat)) :=
  HeaderForm.bits_abs11 c

theorem HeaderForm.value_lt (f : HeaderForm) : f.value < 2 ^ f.length := by
  cases f with
  | reuse => decide
  | abs3 a => have := a.isLt; simp only [value, length]; omega
  | abs5 b => have := b.isLt; simp only [value, length]; omega
  | abs11 c => have := c.isLt; simp only [value, length]; omega
  | abs11Illegal c => have := c.isLt; simp only [value, length]; omega

@[simp] theorem HeaderForm.bits_length (f : HeaderForm) : f.bits.length = f.length := by
  simp [HeaderForm.bits]

theorem HeaderForm.length_pos (f : HeaderForm) : 1 ≤ f.length ∧ f.length ≤ 12 := by
  cases f <;> simp [length]

/-! ### Decoding by fields -/

theorem headerOfA_of_lt {a : BitVec 3} (h : HeaderForm.wellFormed (.abs3 a) = true) :
    headerOfA a.toNat = some (.abs3 a) := by
  have hne : a ≠ 7#3 := by simpa [HeaderForm.wellFormed] using h
  have : a.toNat < 7 := by
    have h1 := a.isLt
    have h2 : a.toNat ≠ 7 := fun he => hne (BitVec.eq_of_toNat_eq (by simpa using he))
    omega
  simp [headerOfA, this]

theorem headerOfB_of_lt {b : BitVec 2} (h : HeaderForm.wellFormed (.abs5 b) = true) :
    headerOfB b.toNat = some (.abs5 b) := by
  have hne : b ≠ 3#2 := by simpa [HeaderForm.wellFormed] using h
  have : b.toNat < 3 := by
    have h1 := b.isLt
    have h2 : b.toNat ≠ 3 := fun he => hne (BitVec.eq_of_toNat_eq (by simpa using he))
    omega
  simp [headerOfB, this]

theorem headerOfC_of_le {c : BitVec 6} (h : HeaderForm.wellFormed (.abs11 c) = true) :
    headerOfC c.toNat = .abs11 c := by
  have : c.toNat ≤ 54 := by simpa [HeaderForm.wellFormed] using h
  simp [headerOfC, this]

theorem headerOfC_of_ge {c : BitVec 6} (h : HeaderForm.wellFormed (.abs11Illegal c) = true) :
    headerOfC c.toNat = .abs11Illegal c := by
  have h1 : 55 ≤ c.toNat := by simpa [HeaderForm.wellFormed] using h
  have : ¬c.toNat ≤ 54 := by omega
  simp [headerOfC, this]

theorem headerOfC_wellFormed {c : Nat} (hc : c < 64) : (headerOfC c).wellFormed = true := by
  unfold headerOfC
  split
  · simp only [HeaderForm.wellFormed, BitVec.toNat_ofNat, decide_eq_true_eq]
    omega
  · simp only [HeaderForm.wellFormed, BitVec.toNat_ofNat, decide_eq_true_eq]
    omega

theorem headerOfA_eq_some {a : Nat} {f : HeaderForm} (h : headerOfA a = some f) :
    a < 7 ∧ f = .abs3 (BitVec.ofNat 3 a) ∧ f.wellFormed = true := by
  unfold headerOfA at h
  split at h
  · rename_i hlt
    cases h
    refine ⟨hlt, rfl, ?_⟩
    simp only [HeaderForm.wellFormed, bne_iff_ne, ne_eq]
    intro he
    have := congrArg BitVec.toNat he
    simp at this
    omega
  · cases h

theorem headerOfB_eq_some {b : Nat} {f : HeaderForm} (h : headerOfB b = some f) :
    b < 3 ∧ f = .abs5 (BitVec.ofNat 2 b) ∧ f.wellFormed = true := by
  unfold headerOfB at h
  split at h
  · rename_i hlt
    cases h
    refine ⟨hlt, rfl, ?_⟩
    simp only [HeaderForm.wellFormed, bne_iff_ne, ne_eq]
    intro he
    have := congrArg BitVec.toNat he
    simp at this
    omega
  · cases h

end Sys2Proof

namespace Sys2Proof.Machine

/-! ### The form the encoder chooses -/

theorem formFor_self (w : Nat) : formFor w w = .reuse := by simp [formFor]

/-- The chosen form gives the width back (R95, R107). -/
theorem formFor_width {w : Nat} (hw : w ≤ 64) (prev : Nat) : (formFor w prev).width prev = w := by
  unfold formFor
  split
  · rename_i h
    exact h.symm
  · split
    · simp only [HeaderForm.width, BitVec.toNat_ofNat]
      omega
    · split
      · simp only [HeaderForm.width, BitVec.toNat_ofNat]
        omega
      · simp only [HeaderForm.width, BitVec.toNat_ofNat]
        omega

/-- The chosen form is one a decoder accepts (R98, R107). -/
theorem formFor_legal {w : Nat} (hw : w ≤ 64) (prev : Nat) : (formFor w prev).legal = true := by
  unfold formFor
  split
  · rfl
  · split
    · rename_i h
      simp only [HeaderForm.legal, HeaderForm.wellFormed, bne_iff_ne, ne_eq]
      intro he
      have := congrArg BitVec.toNat he
      simp at this
      omega
    · split
      · rename_i h
        simp only [HeaderForm.legal, HeaderForm.wellFormed, bne_iff_ne, ne_eq]
        intro he
        have := congrArg BitVec.toNat he
        simp at this
        omega
      · simp only [HeaderForm.legal, HeaderForm.wellFormed, BitVec.toNat_ofNat, decide_eq_true_eq]
        omega

/-- The chosen form has the length of R164. -/
theorem formFor_length (w prev : Nat) : (formFor w prev).length = hdrLen w prev := by
  unfold formFor hdrLen
  by_cases h0 : w = prev
  · rw [if_pos h0, if_pos h0]
    rfl
  rw [if_neg h0, if_neg h0]
  by_cases h1 : w < 7
  · rw [if_pos h1, if_pos (by omega : w ≤ 6)]
    rfl
  rw [if_neg h1, if_neg (by omega : ¬w ≤ 6)]
  by_cases h2 : w < 10
  · rw [if_pos h2, if_pos (by omega : w ≤ 9)]
    rfl
  rw [if_neg h2, if_neg (by omega : ¬w ≤ 9)]
  rfl

theorem hdrLen_pos (w prev : Nat) : 1 ≤ hdrLen w prev ∧ hdrLen w prev ≤ 12 := by
  unfold hdrLen
  split
  · omega
  · split
    · omega
    · split <;> omega

/-! ### Encoding a header -/

/-- `enc_header(w)` when the header fits (R160). -/
theorem encHeader_done {s : State} {w : Nat}
    (h : s.pos.toNat + hdrLen w s.prevW.toNat ≤ 8 * s.bufLen.toNat) :
    ∃ b, encHeader w s = .done ()
        { s with
          buf := b, pos := s.pos + BitVec.ofNat 64 (hdrLen w s.prevW.toNat),
          prevW := BitVec.ofNat 7 w, curW := BitVec.ofNat 7 w } ∧
      OredAt s { s with buf := b } s.pos.toNat (formFor w s.prevW.toNat).bits := by
  have hlen := formFor_length w s.prevW.toNat
  obtain ⟨b, h1, h2⟩ := writeField_done (HeaderForm.value_lt (formFor w s.prevW.toNat)) (s := s)
    (by rw [hlen]; exact h)
  refine ⟨b, ?_, h2.of_buf_eq rfl⟩
  unfold encHeader
  dsimp only
  rw [h1, Run.bind_done]
  unfold setEncodedWidth
  rw [hlen]
  congr 2
  split
  · rfl
  · rename_i hne
    have : w = s.prevW.toNat := by simpa using hne
    apply BitVec.eq_of_toNat_eq
    simp [this]

/-- `enc_header(w)` when the header does not fit: nothing but the fault (R160, R161). -/
theorem encHeader_raised {s : State} {w : Nat}
    (h : ¬s.pos.toNat + hdrLen w s.prevW.toNat ≤ 8 * s.bufLen.toNat) :
    encHeader w s = .raised (raiseFault .writeOverrun s) := by
  unfold encHeader
  dsimp only
  rw [writeField_of_not_fits (by rw [formFor_length]; exact h), Run.bind_raised]

/-! ### Fetching a header -/

/-- A header that the buffer holds at the cursor is fetched, whatever follows it (R97, R162). -/
theorem fetchHeader_of_holds {s : State} {f : HeaderForm} (hf : f.wellFormed = true)
    (hcap : 8 * s.bufLen.toNat < 2 ^ 64) (hfit : s.pos.toNat + f.length ≤ 8 * s.bufLen.toNat)
    (h : holdsBits s s.pos.toNat f.bits) : fetchHeader s = .done f (advance f.length s) := by
  have step : ∀ (k : Nat) {n v : Nat} {rest : List Bool}, v < 2 ^ n →
      s.pos.toNat + (k + n) ≤ 8 * s.bufLen.toNat → holdsBits s (s.pos.toNat + k) (fieldBits n v ++ rest) →
      readField n (advance k s) = .done v (advance (k + n) s) ∧
        holdsBits s (s.pos.toNat + (k + n)) rest := by
    intro k n v rest hv hfit' hh
    obtain ⟨h1, h2⟩ := holdsBits_append.mp hh
    rw [fieldBits_length, Nat.add_assoc] at h2
    have hp : (advance k s).pos.toNat = s.pos.toNat + k := advance_pos_toNat (by omega)
    refine ⟨?_, h2⟩
    rw [readField_of_holds (s := advance k s) hv (by rw [hp]; exact (holdsBits_congr rfl).mp h1)
      (by rw [hp, advance_bufLen]; omega), advance_advance]
  unfold fetchHeader
  cases f with
  | reuse =>
    rw [HeaderForm.bits_reuse, ← List.append_nil (fieldBits 1 1)] at h
    simp only [HeaderForm.length] at hfit
    obtain ⟨r1, _⟩ := step 0 (by decide : 1 < 2 ^ 1) (by omega) h
    rw [advance_zero] at r1
    rw [r1]
    rfl
  | abs3 a =>
    rw [HeaderForm.bits_abs3, ← List.append_nil (fieldBits 3 a.toNat)] at h
    simp only [HeaderForm.length] at hfit
    obtain ⟨r1, h1⟩ := step 0 (by decide : 0 < 2 ^ 1) (by omega) h
    obtain ⟨r2, _⟩ := step (0 + 1) a.isLt (by omega) h1
    rw [advance_zero] at r1
    rw [r1, Run.bind_done]
    simp only [headerOfFlag, Nat.zero_ne_one, if_false]
    rw [r2, Run.bind_done, headerOfA_of_lt hf]
    rfl
  | abs5 b =>
    rw [HeaderForm.bits_abs5, ← List.append_nil (fieldBits 2 b.toNat)] at h
    simp only [HeaderForm.length] at hfit
    obtain ⟨r1, h1⟩ := step 0 (by decide : 0 < 2 ^ 1) (by omega) h
    obtain ⟨r2, h2⟩ := step (0 + 1) (by decide : 7 < 2 ^ 3) (by omega) h1
    obtain ⟨r3, _⟩ := step (0 + 1 + 3) b.isLt (by omega) h2
    rw [advance_zero] at r1
    rw [r1, Run.bind_done]
    simp only [headerOfFlag, Nat.zero_ne_one, if_false]
    rw [r2, Run.bind_done]
    simp only [headerOfA, Nat.lt_irrefl, if_false]
    rw [r3, Run.bind_done, headerOfB_of_lt hf]
    rfl
  | abs11 c =>
    rw [HeaderForm.bits_abs11, ← List.append_nil (fieldBits 6 c.toNat)] at h
    simp only [HeaderForm.length] at hfit
    obtain ⟨r1, h1⟩ := step 0 (by decide : 0 < 2 ^ 1) (by omega) h
    obtain ⟨r2, h2⟩ := step (0 + 1) (by decide : 7 < 2 ^ 3) (by omega) h1
    obtain ⟨r3, h3⟩ := step (0 + 1 + 3) (by decide : 3 < 2 ^ 2) (by omega) h2
    obtain ⟨r4, _⟩ := step (0 + 1 + 3 + 2) c.isLt (by omega) h3
    rw [advance_zero] at r1
    rw [r1, Run.bind_done]
    simp only [headerOfFlag, Nat.zero_ne_one, if_false]
    rw [r2, Run.bind_done]
    simp only [headerOfA, Nat.lt_irrefl, if_false]
    rw [r3, Run.bind_done]
    simp only [headerOfB, Nat.lt_irrefl, if_false]
    rw [r4, Run.bind_done, headerOfC_of_le hf]
    rfl
  | abs11Illegal c =>
    rw [HeaderForm.bits_abs11Illegal, ← List.append_nil (fieldBits 6 c.toNat)] at h
    simp only [HeaderForm.length] at hfit
    obtain ⟨r1, h1⟩ := step 0 (by decide : 0 < 2 ^ 1) (by omega) h
    obtain ⟨r2, h2⟩ := step (0 + 1) (by decide : 7 < 2 ^ 3) (by omega) h1
    obtain ⟨r3, h3⟩ := step (0 + 1 + 3) (by decide : 3 < 2 ^ 2) (by omega) h2
    obtain ⟨r4, _⟩ := step (0 + 1 + 3 + 2) c.isLt (by omega) h3
    rw [advance_zero] at r1
    rw [r1, Run.bind_done]
    simp only [headerOfFlag, Nat.zero_ne_one, if_false]
    rw [r2, Run.bind_done]
    simp only [headerOfA, Nat.lt_irrefl, if_false]
    rw [r3, Run.bind_done]
    simp only [headerOfB, Nat.lt_irrefl, if_false]
    rw [r4, Run.bind_done, headerOfC_of_ge hf]
    rfl

/-- Reading a field always comes to one of two things (R120). -/
theorem readField_cases (n : Nat) (s : State) :
    (s.pos.toNat + n ≤ 8 * s.bufLen.toNat ∧
        readField n s = .done (memRead s s.pos.toNat n) (advance n s)) ∨
      (¬s.pos.toNat + n ≤ 8 * s.bufLen.toNat ∧ readField n s = .raised (raiseFault .readOverrun s)) := by
  by_cases h : s.pos.toNat + n ≤ 8 * s.bufLen.toNat
  · exact .inl ⟨h, readField_of_fits h⟩
  · exact .inr ⟨h, readField_of_not_fits h⟩

/-- Fetching a header comes to a well-formed form, the cursor just past it, or to a `ReadOverrun` with the
cursor after the fields already read (R97, R162). -/
theorem fetchHeader_cases (s : State) :
    (∃ f, f.wellFormed = true ∧ fetchHeader s = .done f (advance f.length s)) ∨
      (∃ m, (m = 0 ∨ m = 1 ∨ m = 4 ∨ m = 6) ∧
        fetchHeader s = .raised (raiseFault .readOverrun (advance m s))) := by
  unfold fetchHeader
  rcases readField_cases 1 s with ⟨_, r1⟩ | ⟨_, r1⟩
  case inr => exact .inr ⟨0, by omega, by rw [r1, Run.bind_raised, advance_zero]⟩
  rw [r1, Run.bind_done]
  generalize memRead s s.pos.toNat 1 = flag
  by_cases hflag : flag = 1
  · exact .inl ⟨.reuse, rfl, by simp [headerOfFlag, hflag, HeaderForm.length]⟩
  simp only [headerOfFlag, if_neg hflag]
  rcases readField_cases 3 (advance 1 s) with ⟨_, r2⟩ | ⟨_, r2⟩
  case inr => exact .inr ⟨1, by omega, by rw [r2, Run.bind_raised]⟩
  rw [r2, Run.bind_done]
  generalize memRead (advance 1 s) (advance 1 s).pos.toNat 3 = a
  cases ha : headerOfA a with
  | some f =>
    obtain ⟨_, hf, hwf⟩ := headerOfA_eq_some ha
    refine .inl ⟨f, hwf, ?_⟩
    simp only [advance_advance]
    rw [hf]
    rfl
  | none =>
    dsimp only
    rcases readField_cases 2 (advance 3 (advance 1 s)) with ⟨_, r3⟩ | ⟨_, r3⟩
    case inr => exact .inr ⟨4, by omega, by rw [r3, Run.bind_raised, advance_advance]⟩
    rw [r3, Run.bind_done]
    generalize memRead (advance 3 (advance 1 s)) (advance 3 (advance 1 s)).pos.toNat 2 = b
    cases hb : headerOfB b with
    | some f =>
      obtain ⟨_, hf, hwf⟩ := headerOfB_eq_some hb
      refine .inl ⟨f, hwf, ?_⟩
      simp only [advance_advance]
      rw [hf]
      rfl
    | none =>
      dsimp only
      rcases readField_cases 6 (advance 2 (advance 3 (advance 1 s))) with ⟨_, r4⟩ | ⟨_, r4⟩
      case inr => exact .inr ⟨6, by omega, by rw [r4, Run.bind_raised, advance_advance, advance_advance]⟩
      rw [r4, Run.bind_done]
      have hc := memRead_lt (advance 2 (advance 3 (advance 1 s)))
        (advance 2 (advance 3 (advance 1 s))).pos.toNat 6
      generalize memRead (advance 2 (advance 3 (advance 1 s)))
        (advance 2 (advance 3 (advance 1 s))).pos.toNat 6 = c at hc
      refine .inl ⟨headerOfC c, headerOfC_wellFormed (by omega), ?_⟩
      have hl : (headerOfC c).length = 12 := by
        unfold headerOfC
        split <;> rfl
      rw [hl, advance_advance, advance_advance, advance_advance]

/-! ### The effect of a form -/

/-- A legal form sets the width registers to its width (R162, R165). -/
theorem applyHeader_legal {f : HeaderForm} {s : State} (hf : f.legal = true) :
    applyHeader f s = .done (f.width s.prevW.toNat)
      { s with
        prevW := BitVec.ofNat 7 (f.width s.prevW.toNat), curW := BitVec.ofNat 7 (f.width s.prevW.toNat) } := by
  cases f with
  | reuse =>
    have h : BitVec.ofNat 7 s.prevW.toNat = s.prevW := by simp
    simp only [applyHeader, applyReuse, HeaderForm.width, h]
  | abs3 a => rfl
  | abs5 b => rfl
  | abs11 c => rfl
  | abs11Illegal c => exact absurd hf (by simp [HeaderForm.legal])

theorem applyHeader_illegal (c : BitVec 6) (s : State) :
    applyHeader (.abs11Illegal c) s = .raised (raiseFault .widthOutOfRange s) := rfl

theorem legal_wellFormed {f : HeaderForm} (h : f.legal = true) : f.wellFormed = true := by
  cases f with
  | abs11Illegal c => simp [HeaderForm.legal] at h
  | reuse => rfl
  | abs3 a => exact h
  | abs5 b => exact h
  | abs11 c => exact h

theorem wellFormed_cases {f : HeaderForm} (h : f.wellFormed = true) :
    f.legal = true ∨ ∃ c, f = .abs11Illegal c := by
  cases f with
  | abs11Illegal c => exact .inr ⟨c, rfl⟩
  | reuse => exact .inl rfl
  | abs3 a => exact .inl h
  | abs5 b => exact .inl h
  | abs11 c => exact .inl h

theorem legal_width_le {f : HeaderForm} (h : f.legal = true) {prev : Nat} (hp : prev ≤ 64) :
    f.width prev ≤ 64 := by
  cases f with
  | reuse => exact hp
  | abs3 a => have := a.isLt; simp only [HeaderForm.width]; omega
  | abs5 b => have := b.isLt; simp only [HeaderForm.width]; omega
  | abs11 c =>
    have : c.toNat ≤ 54 := by simpa [HeaderForm.legal, HeaderForm.wellFormed] using h
    simp only [HeaderForm.width]
    omega
  | abs11Illegal c => simp [HeaderForm.legal] at h

/-- `dec_header()` of a legal header that the buffer holds at the cursor (R162). -/
theorem decHeader_of_holds {s : State} {f : HeaderForm} (hf : f.legal = true)
    (hcap : 8 * s.bufLen.toNat < 2 ^ 64) (hfit : s.pos.toNat + f.length ≤ 8 * s.bufLen.toNat)
    (h : holdsBits s s.pos.toNat f.bits) :
    decHeader s = .done (f.width s.prevW.toNat)
      { s with
        pos := s.pos + BitVec.ofNat 64 f.length,
        prevW := BitVec.ofNat 7 (f.width s.prevW.toNat), curW := BitVec.ofNat 7 (f.width s.prevW.toNat) } := by
  unfold decHeader
  rw [fetchHeader_of_holds (legal_wellFormed hf) hcap hfit h, Run.bind_done, applyHeader_legal hf]
  rfl

/-- What `dec_header()` can come to (R162): a width from a legal form; `WidthOutOfRange` 12 bits on; or
`ReadOverrun` after the fields already read. -/
theorem decHeader_cases (s : State) :
    (∃ f : HeaderForm, f.legal = true ∧
        decHeader s = .done (f.width s.prevW.toNat)
          { s with
            pos := s.pos + BitVec.ofNat 64 f.length,
            prevW := BitVec.ofNat 7 (f.width s.prevW.toNat),
            curW := BitVec.ofNat 7 (f.width s.prevW.toNat) }) ∨
      decHeader s = .raised (raiseFault .widthOutOfRange (advance 12 s)) ∨
      (∃ m, (m = 0 ∨ m = 1 ∨ m = 4 ∨ m = 6) ∧
        decHeader s = .raised (raiseFault .readOverrun (advance m s))) := by
  unfold decHeader
  rcases fetchHeader_cases s with ⟨f, hwf, hf⟩ | ⟨m, hm, hf⟩
  · rw [hf, Run.bind_done]
    rcases wellFormed_cases hwf with hl | ⟨c, rfl⟩
    · exact .inl ⟨f, hl, by rw [applyHeader_legal hl]; rfl⟩
    · exact .inr (.inl rfl)
  · exact .inr (.inr ⟨m, hm, by rw [hf, Run.bind_raised]⟩)

end Sys2Proof.Machine
end

