-- ==== Sys2Proof/Laws/Block.lean ====
section
/-! SUPPORT. The block codec: the values of the source, the required width (41_block_codec.md R140), what
encoding and decoding a block can do (R143, R145), and a field read back as the value it was made of
(R144, R146). -/

namespace Sys2Proof.Machine

/-! ### Classes and values -/

theorem State.srcWidth_cases (s : State) :
    s.srcWidth = 8 ∨ s.srcWidth = 16 ∨ s.srcWidth = 32 ∨ s.srcWidth = 64 := by
  unfold State.srcWidth
  have h : (s.cfg.extractLsb' 1 2).toNat < 4 := (s.cfg.extractLsb' 1 2).isLt
  generalize (s.cfg.extractLsb' 1 2).toNat = c at h
  interval_cases c <;> simp

theorem State.tgtWidth_cases (s : State) :
    s.tgtWidth = 8 ∨ s.tgtWidth = 16 ∨ s.tgtWidth = 32 ∨ s.tgtWidth = 64 := by
  unfold State.tgtWidth
  have h : (s.cfg.extractLsb' 4 2).toNat < 4 := (s.cfg.extractLsb' 4 2).isLt
  generalize (s.cfg.extractLsb' 4 2).toNat = c at h
  interval_cases c <;> simp

/-- The range of a source value (R30). -/
theorem State.sourceValue_range (s : State) (i : Nat) :
    (s.signedMode = true → -(2 ^ (s.srcWidth - 1)) ≤ s.sourceValue i ∧ s.sourceValue i < 2 ^ (s.srcWidth - 1)) ∧
      (s.signedMode = false → 0 ≤ s.sourceValue i ∧ s.sourceValue i < 2 ^ s.srcWidth) := by
  have hlt : (s.vinCell i).toNat % 2 ^ s.srcWidth < 2 ^ s.srcWidth := Nat.mod_lt _ (by positivity)
  have hw : 0 < s.srcWidth := by rcases s.srcWidth_cases with h | h | h | h <;> omega
  constructor
  · intro hs
    unfold State.sourceValue
    rw [if_pos hs]
    exact sint_range hw hlt
  · intro hs
    unfold State.sourceValue
    simp only [hs, Bool.false_eq_true, if_false]
    exact ⟨by omega, by exact_mod_cast hlt⟩

/-! ### Required width -/

theorem le_maxMagnitude (s : State) (idx k i : Nat) (hi : i < k) :
    (s.sourceValue (idx + i)).natAbs ≤ maxMagnitude s idx k := by
  induction k generalizing idx i with
  | zero => omega
  | succ k ih =>
    unfold maxMagnitude
    cases i with
    | zero => exact Nat.le_max_left _ _
    | succ i =>
      have := ih (idx + 1) i (by omega)
      rw [show idx + (i + 1) = idx + 1 + i by omega]
      exact Nat.le_trans this (Nat.le_max_right _ _)

theorem maxMagnitude_attained (s : State) (idx k : Nat) (hk : 0 < k) :
    ∃ i, i < k ∧ (s.sourceValue (idx + i)).natAbs = maxMagnitude s idx k := by
  induction k generalizing idx with
  | zero => omega
  | succ k ih =>
    unfold maxMagnitude
    by_cases hle : maxMagnitude s (idx + 1) k ≤ (s.sourceValue idx).natAbs
    · exact ⟨0, by omega, by rw [Nat.add_zero, Nat.max_eq_left hle]⟩
    · have hk0 : 0 < k := by
        by_contra h0
        have : k = 0 := by omega
        subst this
        simp [maxMagnitude] at hle
      obtain ⟨i, hi, he⟩ := ih (idx + 1) hk0
      refine ⟨i + 1, by omega, ?_⟩
      rw [show idx + (i + 1) = idx + 1 + i by omega, he, Nat.max_eq_right (by omega)]

theorem maxMagnitude_le (s : State) (idx k m : Nat)
    (h : ∀ i, i < k → (s.sourceValue (idx + i)).natAbs ≤ m) : maxMagnitude s idx k ≤ m := by
  cases k with
  | zero => exact Nat.zero_le _
  | succ k =>
    obtain ⟨i, hi, he⟩ := maxMagnitude_attained s idx (k + 1) (by omega)
    rw [← he]
    exact h i hi

/-- The width of a block is at most the source width (R140). -/
theorem blockWidth_le_srcWidth (s : State) (idx k : Nat) : blockWidth s idx k ≤ s.srcWidth := by
  unfold blockWidth
  dsimp only
  cases hs : s.signedMode with
  | true =>
    rw [if_pos rfl]
    split
    · exact Nat.zero_le _
    · exact Nat.min_le_right _ _
  | false =>
    simp only [Bool.false_eq_true, if_false]
    rw [bitlen_le_iff]
    refine Nat.lt_of_le_of_lt (maxMagnitude_le s idx k (2 ^ s.srcWidth - 1) fun i _ => ?_)
        (Nat.sub_lt (by positivity) (by omega))
    obtain ⟨h1, h2⟩ := (s.sourceValue_range (idx + i)).2 hs
    have h3 : ((s.sourceValue (idx + i)).natAbs : Int) < ((2 ^ s.srcWidth : Nat) : Int) := by
      rw [Int.natAbs_of_nonneg h1]
      exact_mod_cast h2
    have : (s.sourceValue (idx + i)).natAbs < 2 ^ s.srcWidth := by exact_mod_cast h3
    omega

theorem blockWidth_le_64 (s : State) (idx k : Nat) : blockWidth s idx k ≤ 64 := by
  have h := blockWidth_le_srcWidth s idx k
  rcases s.srcWidth_cases with h' | h' | h' | h' <;> omega

/-- A value of the block fits the block's width (R140, R142). -/
theorem sourceValue_fits_blockWidth (s : State) (idx k i : Nat) (hi : i < k) {w : Nat}
    (hw : blockWidth s idx k ≤ w) :
    (s.signedMode = true → -(2 ^ (w - 1)) ≤ s.sourceValue (idx + i) ∧
        (s.sourceValue (idx + i) < 2 ^ (w - 1)) ∧ (w = 0 → s.sourceValue (idx + i) = 0)) ∧
      (s.signedMode = false → 0 ≤ s.sourceValue (idx + i) ∧ s.sourceValue (idx + i) < 2 ^ w) := by
  have hm := le_maxMagnitude s idx k i hi
  constructor
  · intro hs
    have hr := (s.sourceValue_range (idx + i)).1 hs
    unfold blockWidth at hw
    simp only [hs, if_true] at hw
    by_cases h0 : maxMagnitude s idx k = 0
    · have : s.sourceValue (idx + i) = 0 := by omega
      rw [this]
      have hpos : (0 : Int) < 2 ^ (w - 1) := by positivity
      exact ⟨by omega, by omega, fun _ => rfl⟩
    · rw [if_neg h0] at hw
      by_cases hle : s.srcWidth ≤ w
      · have hp : (2 : Int) ^ (s.srcWidth - 1) ≤ 2 ^ (w - 1) := by
          apply pow_le_pow_right₀ (by norm_num) (by omega)
        refine ⟨by omega, by omega, fun hw0 => ?_⟩
        rcases s.srcWidth_cases with h' | h' | h' | h' <;> omega
      · have hb : bitlen (maxMagnitude s idx k) ≤ w - 1 := by omega
        have hlt := bitlen_le_iff.mp hb
        have hlt' : ((s.sourceValue (idx + i)).natAbs : Int) < 2 ^ (w - 1) := by
          have : (s.sourceValue (idx + i)).natAbs < 2 ^ (w - 1) := by omega
          exact_mod_cast this
        exact ⟨by omega, by omega, fun hw0 => by omega⟩
  · intro hs
    have hr := (s.sourceValue_range (idx + i)).2 hs
    unfold blockWidth at hw
    simp only [hs, Bool.false_eq_true, if_false] at hw
    have hlt := bitlen_le_iff.mp hw
    have : (s.sourceValue (idx + i)).natAbs < 2 ^ w := by omega
    have hc : ((s.sourceValue (idx + i)).natAbs : Int) < 2 ^ w := by exact_mod_cast this
    exact ⟨hr.1, by omega⟩

/-! ### Encoding a block -/

theorem encodedFields_succ (s : State) (w idx k : Nat) :
    encodedFields s w idx (k + 1) = pat w (s.sourceValue idx) :: encodedFields s w (idx + 1) k := by
  unfold encodedFields
  rw [List.range_succ_eq_map, List.map_cons, List.map_map, Nat.add_zero]
  congr 1
  apply List.map_congr_left
  intro i _
  simp only [Function.comp]
  rw [show idx + (i + 1) = idx + 1 + i by omega]

@[simp] theorem encodedFields_length (s : State) (w idx k : Nat) : (encodedFields s w idx k).length = k := by
  simp [encodedFields]

theorem encodedFields_lt (s : State) (w idx k : Nat) : ∀ f ∈ encodedFields s w idx k, f < 2 ^ w := by
  intro f hf
  unfold encodedFields at hf
  obtain ⟨i, _, rfl⟩ := List.mem_map.mp hf
  exact pat_lt w _

theorem payloadBits_length (w : Nat) (fields : List Nat) :
    (payloadBits w fields).length = fields.length * w := by
  induction fields with
  | nil => simp [payloadBits]
  | cons f rest ih =>
    have : payloadBits w (f :: rest) = fieldBits w f ++ payloadBits w rest := rfl
    rw [this, List.length_append, ih, fieldBits_length, List.length_cons, Nat.succ_mul]
    omega

theorem payloadBits_zero (fields : List Nat) : payloadBits 0 fields = [] := by
  apply List.eq_nil_of_length_eq_zero
  rw [payloadBits_length, Nat.mul_zero]

theorem payloadBits_cons (w f : Nat) (rest : List Nat) :
    payloadBits w (f :: rest) = fieldBits w f ++ payloadBits w rest := rfl

theorem pos_add_add (p : Word) (m n : Nat) :
    p + BitVec.ofNat 64 m + BitVec.ofNat 64 n = p + BitVec.ofNat 64 (m + n) := by
  rw [BitVec.add_assoc, BitVec.ofNat_add]

theorem toNat_pos_add {p : Word} {n : Nat} (h : p.toNat + n < 2 ^ 64) :
    (p + BitVec.ofNat 64 n).toNat = p.toNat + n := by
  rw [BitVec.toNat_add, BitVec.toNat_ofNat]
  omega

/-- Encoding fields that fit (R143). -/
theorem encFields_done (w idx k : Nat) (s : State) (hcap : 8 * s.bufLen.toNat < 2 ^ 64)
    (h : s.pos.toNat + k * w ≤ 8 * s.bufLen.toNat) :
    ∃ b, encFields w idx k s = .done () { s with buf := b, pos := s.pos + BitVec.ofNat 64 (k * w) } ∧
      OredAt s { s with buf := b } s.pos.toNat (payloadBits w (encodedFields s w idx k)) := by
  induction k generalizing idx s with
  | zero =>
    refine ⟨s.buf, ?_, (OredAt.refl s _)⟩
    simp [encFields]
  | succ k ih =>
    rw [Nat.succ_mul] at h
    obtain ⟨b1, e1, o1⟩ := writeField_done (pat_lt w (s.sourceValue idx)) (s := s) (n := w) (by omega)
    have hp : (s.pos + BitVec.ofNat 64 w).toNat = s.pos.toNat + w := toNat_pos_add (by omega)
    obtain ⟨b2, e2, o2⟩ := ih (idx + 1) { s with buf := b1, pos := s.pos + BitVec.ofNat 64 w } hcap
      (by simp only [hp]; omega)
    refine ⟨b2, ?_, ?_⟩
    · unfold encFields
      rw [e1, Run.bind_done, e2]
      simp only [pos_add_add]
      rw [Nat.succ_mul, Nat.add_comm w]
    · rw [encodedFields_succ, payloadBits_cons]
      refine OredAt.trans o1 ?_
      rw [fieldBits_length]
      simp only [hp] at o2
      exact o2.of_buf_eq rfl

/-- Encoding a block that fits (R143): with `w = 0` or no value nothing at all. -/
theorem encBlock_done (idx k w : Nat) (s : State) (hcap : 8 * s.bufLen.toNat < 2 ^ 64)
    (h : w = 0 ∨ k = 0 ∨ s.pos.toNat + k * w ≤ 8 * s.bufLen.toNat) :
    ∃ b, encBlock idx k w s = .done () { s with buf := b, pos := s.pos + BitVec.ofNat 64 (k * w) } ∧
      OredAt s { s with buf := b } s.pos.toNat (payloadBits w (encodedFields s w idx k)) := by
  unfold encBlock
  split
  · rename_i hw
    subst hw
    rw [payloadBits_zero]
    exact ⟨s.buf, by simp, OredAt.refl s _⟩
  · rename_i hw
    rcases h with h | rfl | h
    · exact absurd h hw
    · exact ⟨s.buf, by simp [encFields], by simpa [encodedFields, payloadBits] using OredAt.refl s _⟩
    · exact encFields_done w idx k s hcap (by omega)

/-! ### Decoding a block -/

theorem StoredAt.refl (s : State) (idx : Nat) : StoredAt s s idx [] :=
  ⟨fun i => by rw [if_neg (by simp only [List.length_nil]; omega)]⟩

theorem StoredAt.of_vout_eq {s t t' : State} {idx : Nat} {values : List Nat} (h : StoredAt s t idx values)
    (hv : t'.vout = t.vout) : StoredAt s t' idx values :=
  ⟨fun i => by rw [hv]; exact h.cells i⟩

theorem StoredAt.of_vout_eq_left {s s' t : State} {idx : Nat} {values : List Nat} (h : StoredAt s t idx values)
    (hv : s'.vout = s.vout) : StoredAt s' t idx values :=
  ⟨fun i => by rw [hv]; exact h.cells i⟩

/-- Two runs of stores one after the other. -/
theorem StoredAt.trans {s t u : State} {idx : Nat} {a b : List Nat} (h1 : StoredAt s t idx a)
    (h2 : StoredAt t u (idx + a.length) b) : StoredAt s u idx (a ++ b) := by
  constructor
  intro i
  rw [h2.cells, h1.cells, List.length_append]
  by_cases hb : idx + a.length ≤ i ∧ i < idx + a.length + b.length
  · rw [if_pos hb, if_pos (by omega), List.getD_append_right _ _ _ _ (by omega)]
    congr 3
    omega
  · rw [if_neg hb]
    by_cases ha : idx ≤ i ∧ i < idx + a.length
    · rw [if_pos ha, if_pos (by omega), List.getD_append _ _ _ _ (by omega)]
    · rw [if_neg ha, if_neg (by omega)]

theorem storedAt_putVout (s : State) (idx v : Nat) :
    StoredAt s (s.putVout idx (BitVec.ofNat 64 v)) idx [v] := by
  constructor
  intro i
  rw [State.putVout_vout, Memory.read?_write]
  by_cases h : i = idx
  · subst h
    simp
  · rw [if_neg h, if_neg (by simp only [List.length_singleton]; omega)]

/-- Decoding a block whose fields the buffer holds at the cursor (R145). -/
theorem decBlock_done (idx w : Nat) (fields : List Nat) (s : State) (hcap : 8 * s.bufLen.toNat < 2 ^ 64)
    (hlt : ∀ f ∈ fields, f < 2 ^ w)
    (h : w = 0 ∨ fields.length = 0 ∨ s.pos.toNat + fields.length * w ≤ 8 * s.bufLen.toNat)
    (hh : holdsBits s s.pos.toNat (payloadBits w fields)) :
    ∃ vo, decBlock idx fields.length w s =
        .done () { s with vout := vo, pos := s.pos + BitVec.ofNat 64 (fields.length * w) } ∧
      StoredAt s { s with vout := vo } idx (fields.map (decodedElement s w)) := by
  induction fields generalizing idx s with
  | nil =>
    refine ⟨s.vout, by simp [decBlock], StoredAt.refl s idx⟩
  | cons f rest ih =>
    rw [payloadBits_cons] at hh
    obtain ⟨hh1, hh2⟩ := holdsBits_append.mp hh
    rw [fieldBits_length] at hh2
    rw [List.length_cons, Nat.succ_mul] at h
    replace h : w = 0 ∨ s.pos.toNat + (rest.length * w + w) ≤ 8 * s.bufLen.toNat := by omega
    have hf : f < 2 ^ w := hlt f (List.mem_cons_self)
    have hrest : ∀ g ∈ rest, g < 2 ^ w := fun g hg => hlt g (List.mem_cons_of_mem _ hg)
    have e1 : decElement w idx s = .done ()
        { s with
          vout := Memory.write s.vout idx (BitVec.ofNat 64 (decodedElement s w f)),
          pos := s.pos + BitVec.ofNat 64 w } := by
      unfold decElement
      by_cases hw : w = 0
      · subst hw
        simp [decodedElement, State.putVout]
      · rw [if_neg hw, readField_of_holds hf hh1 (by omega), Run.bind_done]
        simp only [decodedElement, if_neg hw]
        rfl
    have hp : w = 0 ∨ (s.pos + BitVec.ofNat 64 w).toNat = s.pos.toNat + w := by
      rcases h with h | h
      · exact .inl h
      · exact .inr (toNat_pos_add (by omega))
    have hp' : (s.pos + BitVec.ofNat 64 w).toNat = s.pos.toNat + w := by
      rcases hp with h0 | h0
      · subst h0; simp
      · exact h0
    obtain ⟨vo, e2, st2⟩ := ih (idx + 1)
      { s with
        vout := Memory.write s.vout idx (BitVec.ofNat 64 (decodedElement s w f)),
        pos := s.pos + BitVec.ofNat 64 w } hcap hrest
      (by rcases h with h0 | h0
          · exact .inl h0
          · exact .inr (by simp only [hp']; omega))
      (by simp only [hp']; exact (holdsBits_congr rfl).mp hh2)
    refine ⟨vo, ?_, ?_⟩
    · rw [List.length_cons]
      unfold decBlock
      rw [e1, Run.bind_done, e2]
      simp only [pos_add_add]
      rw [Nat.succ_mul, Nat.add_comm w]
    · rw [List.map_cons]
      have st3 : StoredAt (s.putVout idx (BitVec.ofNat 64 (decodedElement s w f))) { s with vout := vo }
          (idx + 1) (rest.map (decodedElement s w)) :=
        ⟨fun i => st2.cells i⟩
      exact StoredAt.trans (a := [decodedElement s w f]) (storedAt_putVout s idx _) st3

/-! ### A field read back (R144, R146) -/

/-- In signed mode a field of enough bits decodes to its value, clamped to the sink (R144). -/
theorem decValue_signed {s : State} (hs : s.signedMode = true) {w : Nat} (hw : 0 < w) {v : Int}
    (hlo : -(2 ^ (w - 1)) ≤ v) (hhi : v < 2 ^ (w - 1)) :
    decValue s (pat w v) w = pat s.tgtWidth (clamp v (-(2 ^ (s.tgtWidth - 1))) (2 ^ (s.tgtWidth - 1) - 1)) := by
  unfold decValue
  rw [if_pos hs, sint_pat hw hlo hhi]

/-- In unsigned mode a value that fits the sink decodes exactly (R144). -/
theorem decValue_unsigned {s : State} (hs : s.signedMode = false) {w f : Nat} (hf : f < 2 ^ s.tgtWidth) :
    decValue s f w = f := by
  have : ¬s.tgtWidth < bitlen f := by
    have := bitlen_le_iff.mpr hf
    omega
  simp [decValue, hs, this]

/-- A sink pattern has at most `T` bits (R144). -/
theorem decValue_lt (s : State) (f w : Nat) : decValue s f w < 2 ^ s.tgtWidth := by
  have hT : 0 < s.tgtWidth := by rcases s.tgtWidth_cases with h | h | h | h <;> omega
  have hp : 0 < 2 ^ s.tgtWidth := by positivity
  unfold decValue
  split
  · exact pat_lt _ _
  · split
    · split
      · have : 2 ^ (s.tgtWidth - 1) ≤ 2 ^ s.tgtWidth := Nat.pow_le_pow_right (by omega) (by omega)
        have : 0 < 2 ^ (s.tgtWidth - 1) := by positivity
        omega
      · omega
    · rename_i h
      exact bitlen_le_iff.mp (by omega)

end Sys2Proof.Machine
end

