-- ==== Sys2Proof/Laws/Frame.lean ====
section
/-! SUPPORT. The frame codec: what the block loop of each frame command does when everything fits
(43_frame_codec.md R180 to R186), and the invariant rule for that loop. -/

namespace Sys2Proof.Machine

/-! ### The loop -/

theorem frameBlocks_end (block : Nat → State → Run Unit) (fuel : Nat) {s : State}
    (h : ¬s.consumed.toNat < s.frameLen.toNat) : frameBlocks block fuel s = .done () s := by
  cases fuel with
  | zero => rfl
  | succ fuel =>
    unfold frameBlocks
    rw [if_neg h]

/-- A property that every block and `CONSUMED`'s advance keep is kept by the whole loop (R180). -/
theorem frameBlocks_keeps {P : State → Prop} {block : Nat → State → Run Unit}
    (hblock : ∀ s, P s → s.consumed.toNat < s.frameLen.toNat → (block (blockCount s) s).Keeps P)
    (hconsume : ∀ s s1, P s → s.consumed.toNat < s.frameLen.toNat →
      block (blockCount s) s = .done () s1 → P s1 → P (consume (blockCount s) s1))
    (fuel : Nat) (s : State) (hs : P s) : (frameBlocks block fuel s).Keeps P := by
  induction fuel generalizing s with
  | zero => exact hs
  | succ fuel ih =>
    unfold frameBlocks
    split
    · rename_i hlt
      refine Run.Keeps.bind (hblock s hs hlt) fun a s1 h1 hs1 => ?_
      exact ih _ (hconsume s s1 hs hlt h1 hs1)
    · exact hs

theorem consumed_add {c f : Word} {k : Nat} (h : c.toNat + k ≤ f.toNat) :
    (c + BitVec.ofNat 64 k).toNat = c.toNat + k := by
  have := f.isLt
  rw [BitVec.toNat_add, BitVec.toNat_ofNat]
  omega

theorem ofNat7_toNat {n : Nat} (h : n < 128) : (BitVec.ofNat 7 n).toNat = n := by
  rw [BitVec.toNat_ofNat]
  omega

/-! ### Encode -/

/-- One block of `ENCFRAME` that fits (R182). -/
theorem encFrameBlock_done (k : Nat) (s : State) (hcap : 8 * s.bufLen.toNat < 2 ^ 64)
    (h : s.pos.toNat + (hdrLen (blockWidth s s.consumed.toNat k) s.prevW.toNat +
      k * blockWidth s s.consumed.toNat k) ≤ 8 * s.bufLen.toNat) :
    ∃ b, encFrameBlock k s = .done ()
        { s with
          buf := b,
          pos := s.pos + BitVec.ofNat 64 (hdrLen (blockWidth s s.consumed.toNat k) s.prevW.toNat +
            k * blockWidth s s.consumed.toNat k),
          prevW := BitVec.ofNat 7 (blockWidth s s.consumed.toNat k),
          curW := BitVec.ofNat 7 (blockWidth s s.consumed.toNat k),
          maxW := BitVec.ofNat 7 (max s.maxW.toNat (blockWidth s s.consumed.toNat k)) } ∧
      OredAt s { s with buf := b } s.pos.toNat
        ((formFor (blockWidth s s.consumed.toNat k) s.prevW.toNat).bits ++
          payloadBits (blockWidth s s.consumed.toNat k)
            (encodedFields s (blockWidth s s.consumed.toNat k) s.consumed.toNat k)) := by
  generalize hw : blockWidth s s.consumed.toNat k = w at h ⊢
  obtain ⟨b1, e1, o1⟩ := encHeader_done (s := s) (w := w) (by omega)
  have hp : (s.pos + BitVec.ofNat 64 (hdrLen w s.prevW.toNat)).toNat =
      s.pos.toNat + hdrLen w s.prevW.toNat := toNat_pos_add (by omega)
  obtain ⟨b2, e2, o2⟩ := encBlock_done s.consumed.toNat k w
    { s with
      buf := b1, pos := s.pos + BitVec.ofNat 64 (hdrLen w s.prevW.toNat),
      prevW := BitVec.ofNat 7 w, curW := BitVec.ofNat 7 w } hcap (.inr (by simp only [hp]; omega))
  refine ⟨b2, ?_, ?_⟩
  · unfold encFrameBlock
    dsimp only
    rw [hw, e1, Run.bind_done, e2, Run.bind_done]
    simp only [pos_add_add, raiseMaxW]
  · refine OredAt.trans o1 ?_
    rw [HeaderForm.bits_length, formFor_length]
    simp only [hp] at o2
    exact ⟨o2.bit, o2.outside⟩

/-- A source value, a block's width and an encoder's blocks depend on `VIN`, `CFG`, `BLOCK_SIZE` and
`FRAME_LEN` alone (R10, R189). -/
theorem encodedBlocks_congr {s t : State} (hv : s.vin = t.vin) (hc : s.cfg = t.cfg)
    (hb : s.blockSize = t.blockSize) (hf : s.frameLen = t.frameLen) (fuel idx prev : Nat) :
    encodedBlocks s fuel idx prev = encodedBlocks t fuel idx prev := by
  have hval : ∀ i, s.sourceValue i = t.sourceValue i := by
    intro i
    unfold State.sourceValue State.vinCell State.srcWidth State.signedMode
    rw [hv, hc]
  have hmag : ∀ k idx, maxMagnitude s idx k = maxMagnitude t idx k := by
    intro k
    induction k with
    | zero => intro idx; rfl
    | succ k ih => intro idx; rw [maxMagnitude, maxMagnitude, hval, ih]
  have hwid : ∀ idx k, blockWidth s idx k = blockWidth t idx k := by
    intro idx k
    unfold blockWidth State.signedMode State.srcWidth
    rw [hmag, hc]
  have hfld : ∀ w idx k, encodedFields s w idx k = encodedFields t w idx k := by
    intro w idx k
    unfold encodedFields
    simp only [hval]
  induction fuel generalizing idx prev with
  | zero => rfl
  | succ fuel ih =>
    unfold encodedBlocks
    simp only [hb, hf, hwid, hfld, ih]

/-- The loop of `ENCFRAME` over blocks that fit: their bits are ORed in at the cursor, the width registers,
`CONSUMED` and `MAX_W` are as R182 and R185 say, and the loop goes on after them. -/
theorem encFrameBlocks_prefix (fuel : Nat) (s : State) (hcap : 8 * s.bufLen.toNat < 2 ^ 64)
    (hprev : s.prevW.toNat ≤ 64) (hfuel : s.frameLen.toNat - s.consumed.toNat ≤ fuel)
    (hB : 0 < s.blockSize.toNat) (before rest : List StreamBlock)
    (hbl : encodedBlocks s fuel s.consumed.toNat s.prevW.toNat = before ++ rest)
    (h : s.pos.toNat + (blockBits s.prevW.toNat before).length ≤ 8 * s.bufLen.toNat) :
    ∃ b fuel', frameBlocks encFrameBlock fuel s = frameBlocks encFrameBlock fuel'
        { s with
          buf := b,
          pos := s.pos + BitVec.ofNat 64 (blockBits s.prevW.toNat before).length,
          prevW := BitVec.ofNat 7 (lastWidth s.prevW.toNat before),
          curW := if before = [] then s.curW else BitVec.ofNat 7 (lastWidth s.prevW.toNat before),
          consumed := s.consumed + BitVec.ofNat 64 (before.map (·.fields.length)).sum,
          maxW := BitVec.ofNat 7 (widest s.maxW.toNat s.prevW.toNat before) } ∧
      OredAt s { s with buf := b } s.pos.toNat (blockBits s.prevW.toNat before) ∧
      s.frameLen.toNat - (s.consumed.toNat + (before.map (·.fields.length)).sum) ≤ fuel' ∧
      encodedBlocks s fuel' (s.consumed.toNat + (before.map (·.fields.length)).sum)
        (lastWidth s.prevW.toNat before) = rest ∧
      lastWidth s.prevW.toNat before ≤ 64 ∧
      (before = [] ∨ s.consumed.toNat + (before.map (·.fields.length)).sum ≤ s.frameLen.toNat) := by
  induction before generalizing fuel s with
  | nil =>
    refine ⟨s.buf, fuel, ?_, OredAt.refl s _, ?_, ?_, ?_, .inl rfl⟩
    · simp [blockBits, lastWidth, widest]
    · simpa using hfuel
    · simpa [lastWidth] using hbl
    · simpa [lastWidth] using hprev
  | cons blk before ih =>
    obtain ⟨fuel, rfl, hlt⟩ : ∃ f', fuel = f' + 1 ∧ s.consumed.toNat < s.frameLen.toNat := by
      cases fuel with
      | zero => simp [encodedBlocks] at hbl
      | succ f =>
        refine ⟨f, rfl, ?_⟩
        by_contra hge
        rw [encodedBlocks, if_neg hge] at hbl
        cases hbl
    unfold encodedBlocks at hbl
    rw [if_pos hlt] at hbl
    dsimp only at hbl
    generalize hk : min s.blockSize.toNat (s.frameLen.toNat - s.consumed.toNat) = k at hbl
    have hkc : blockCount s = k := hk
    have hk0 : 0 < k := by omega
    generalize hw : blockWidth s s.consumed.toNat k = w at hbl
    have hw64 : w ≤ 64 := hw ▸ blockWidth_le_64 s _ _
    rw [List.cons_append] at hbl
    obtain ⟨hblk, hrest⟩ := List.cons.inj hbl
    subst hblk
    have hlen : (blockBits s.prevW.toNat (⟨formFor w s.prevW.toNat,
        encodedFields s w s.consumed.toNat k⟩ :: before)).length =
        hdrLen w s.prevW.toNat + k * w + (blockBits w before).length := by
      simp only [blockBits, formFor_width hw64, List.length_append, HeaderForm.bits_length, formFor_length,
        payloadBits_length, encodedFields_length]
    rw [hlen] at h
    obtain ⟨b1, e1, o1⟩ := encFrameBlock_done k s hcap (by rw [hw]; omega)
    rw [hw] at e1 o1
    have hp : (s.pos + BitVec.ofNat 64 (hdrLen w s.prevW.toNat + k * w)).toNat =
        s.pos.toNat + (hdrLen w s.prevW.toNat + k * w) := toNat_pos_add (by omega)
    have hcons : (s.consumed + BitVec.ofNat 64 k).toNat = s.consumed.toNat + k :=
      consumed_add (f := s.frameLen) (by omega)
    have hw7 : w < 128 := by omega
    have hmaxle : max s.maxW.toNat w < 128 := by
      have := s.maxW.isLt
      omega
    have hcongr : ∀ fuel idx prev, encodedBlocks (consume k
          { s with
            buf := b1, pos := s.pos + BitVec.ofNat 64 (hdrLen w s.prevW.toNat + k * w),
            prevW := BitVec.ofNat 7 w, curW := BitVec.ofNat 7 w,
            maxW := BitVec.ofNat 7 (max s.maxW.toNat w) }) fuel idx prev = encodedBlocks s fuel idx prev := by
      intro fuel idx prev
      apply encodedBlocks_congr <;> rfl
    obtain ⟨b2, fuel', e2, o2, hf2, hr2, hl2, hc2⟩ := ih fuel
      (consume k
        { s with
          buf := b1, pos := s.pos + BitVec.ofNat 64 (hdrLen w s.prevW.toNat + k * w),
          prevW := BitVec.ofNat 7 w, curW := BitVec.ofNat 7 w,
          maxW := BitVec.ofNat 7 (max s.maxW.toNat w) })
      hcap (by simp only [consume, ofNat7_toNat hw7]; exact hw64)
      (by simp only [consume, hcons]; omega) hB
      (by rw [hcongr]; simp only [consume, hcons, ofNat7_toNat hw7]; exact hrest)
      (by simp only [consume, hp, ofNat7_toNat hw7]; omega)
    rw [hcongr] at hr2
    simp only [consume, hp, ofNat7_toNat hw7, ofNat7_toNat hmaxle, hcons] at e2 o2 hf2 hr2 hl2 hc2
    have hsum : (((⟨formFor w s.prevW.toNat, encodedFields s w s.consumed.toNat k⟩ : StreamBlock) ::
        before).map (·.fields.length)).sum = k + (before.map (·.fields.length)).sum := by
      simp only [List.map_cons, List.sum_cons, encodedFields_length]
    refine ⟨b2, fuel', ?_, ?_, ?_, ?_, ?_, .inr ?_⟩
    · rw [frameBlocks, if_pos hlt, hkc, e1, Run.bind_done]
      simp only [consume, e2, hlen, lastWidth, widest, formFor_width hw64, pos_add_add, hsum, reduceCtorEq,
        if_false]
      congr 2
      split
      · rename_i hr
        rw [hr]
        rfl
      · rfl
    · simp only [blockBits, formFor_width hw64]
      refine OredAt.trans o1 ?_
      rw [List.length_append, HeaderForm.bits_length, formFor_length, payloadBits_length,
        encodedFields_length]
      exact ⟨o2.bit, o2.outside⟩
    · rw [hsum]
      omega
    · rw [hsum, ← Nat.add_assoc, lastWidth, formFor_width hw64]
      exact hr2
    · rw [lastWidth, formFor_width hw64]
      exact hl2
    · rw [hsum]
      rcases hc2 with h0 | h0
      · subst h0
        simp only [List.map_nil, List.sum_nil]
        omega
      · omega

theorem consumed_of_encodedBlocks_nil {s : State} {fuel idx prev : Nat}
    (h : encodedBlocks s fuel idx prev = []) (hfuel : s.frameLen.toNat - idx ≤ fuel) :
    ¬idx < s.frameLen.toNat := by
  intro hlt
  obtain ⟨f, rfl⟩ : ∃ f', fuel = f' + 1 := ⟨fuel - 1, by omega⟩
  rw [encodedBlocks, if_pos hlt] at h
  cases h

/-- The loop of `ENCFRAME` when every block fits. -/
theorem encFrameBlocks_done (fuel : Nat) (s : State) (hcap : 8 * s.bufLen.toNat < 2 ^ 64)
    (hB : 0 < s.blockSize.toNat) (hprev : s.prevW.toNat ≤ 64)
    (hc : s.consumed.toNat ≤ s.frameLen.toNat) (hfuel : s.frameLen.toNat - s.consumed.toNat ≤ fuel)
    (blocks : List StreamBlock) (hbl : encodedBlocks s fuel s.consumed.toNat s.prevW.toNat = blocks)
    (h : s.pos.toNat + (blockBits s.prevW.toNat blocks).length ≤ 8 * s.bufLen.toNat) :
    ∃ b, frameBlocks encFrameBlock fuel s = .done ()
        { s with
          buf := b,
          pos := s.pos + BitVec.ofNat 64 (blockBits s.prevW.toNat blocks).length,
          prevW := BitVec.ofNat 7 (lastWidth s.prevW.toNat blocks),
          curW := if blocks = [] then s.curW else BitVec.ofNat 7 (lastWidth s.prevW.toNat blocks),
          consumed := s.frameLen,
          maxW := BitVec.ofNat 7 (widest s.maxW.toNat s.prevW.toNat blocks) } ∧
      OredAt s { s with buf := b } s.pos.toNat (blockBits s.prevW.toNat blocks) := by
  obtain ⟨b, fuel', e, o, hf, hr, _, hle⟩ := encFrameBlocks_prefix fuel s hcap hprev hfuel hB blocks []
    (by rw [List.append_nil]; exact hbl) h
  have hnlt := consumed_of_encodedBlocks_nil hr hf
  have hsum : s.consumed.toNat + (blocks.map (·.fields.length)).sum = s.frameLen.toNat := by
    rcases hle with h0 | h0
    · subst h0
      simp only [List.map_nil, List.sum_nil] at hnlt ⊢
      omega
    · omega
  have he : s.consumed + BitVec.ofNat 64 (blocks.map (·.fields.length)).sum = s.frameLen :=
    BitVec.eq_of_toNat_eq (by rw [consumed_add (f := s.frameLen) (by omega)]; exact hsum)
  rw [he] at e
  exact ⟨b, by rw [e, frameBlocks_end _ _ (by simp)], o⟩

/-! ### Decode and scan -/

theorem blocksLegal_cons {prev : Nat} {b : StreamBlock} {rest : List StreamBlock}
    (h : blocksLegal prev (b :: rest) = true) :
    b.form.legal = true ∧ (∀ f ∈ b.fields, f < 2 ^ b.form.width prev) ∧
      blocksLegal (b.form.width prev) rest = true := by
  simp only [blocksLegal, Bool.and_eq_true, List.all_eq_true, decide_eq_true_eq] at h
  exact ⟨h.1.1, h.1.2, h.2⟩

theorem blocksCover_cons {size n : Nat} {b : StreamBlock} {rest : List StreamBlock}
    (h : blocksCover size n (b :: rest) = true) :
    0 < n ∧ b.fields.length = min size n ∧ blocksCover size (n - min size n) rest = true := by
  simp only [blocksCover, Bool.and_eq_true, decide_eq_true_eq] at h
  exact ⟨h.1.1, h.1.2, h.2⟩

/-- The encoder's blocks are ones a decoder accepts, and cover the frame (R91, R98, R107). -/
theorem encodedBlocks_legal (s : State) (fuel idx prev : Nat) :
    blocksLegal prev (encodedBlocks s fuel idx prev) = true := by
  induction fuel generalizing idx prev with
  | zero => rfl
  | succ fuel ih =>
    unfold encodedBlocks
    split
    · dsimp only
      generalize min s.blockSize.toNat (s.frameLen.toNat - idx) = k
      have hw64 := blockWidth_le_64 s idx k
      generalize blockWidth s idx k = w at hw64
      simp only [blocksLegal, formFor_width hw64, formFor_legal hw64, Bool.true_and, Bool.and_eq_true,
        List.all_eq_true, decide_eq_true_eq]
      exact ⟨encodedFields_lt s w idx k, ih _ _⟩
    · rfl

theorem encodedBlocks_cover (s : State) (hB : 0 < s.blockSize.toNat) (fuel idx prev : Nat)
    (hidx : idx ≤ s.frameLen.toNat) (hfuel : s.frameLen.toNat - idx ≤ fuel) :
    blocksCover s.blockSize.toNat (s.frameLen.toNat - idx) (encodedBlocks s fuel idx prev) = true := by
  induction fuel generalizing idx prev with
  | zero =>
    simp only [encodedBlocks, blocksCover, decide_eq_true_eq]
    omega
  | succ fuel ih =>
    unfold encodedBlocks
    split
    · rename_i hlt
      simp only [blocksCover, encodedFields_length, Bool.and_eq_true, decide_eq_true_eq]
      refine ⟨⟨by omega, trivial⟩, ?_⟩
      have := ih (idx + min s.blockSize.toNat (s.frameLen.toNat - idx))
        (blockWidth s idx (min s.blockSize.toNat (s.frameLen.toNat - idx))) (by omega) (by omega)
      rw [show s.frameLen.toNat - idx - min s.blockSize.toNat (s.frameLen.toNat - idx) =
        s.frameLen.toNat - (idx + min s.blockSize.toNat (s.frameLen.toNat - idx)) by omega]
      exact this
    · simp only [blocksCover, decide_eq_true_eq]
      omega

/-- The sink patterns depend on `CFG` alone (R144). -/
theorem decodedElements_congr {s t : State} (hc : s.cfg = t.cfg) (prev : Nat) (blocks : List StreamBlock) :
    decodedElements s prev blocks = decodedElements t prev blocks := by
  have hel : ∀ w, decodedElement s w = decodedElement t w := by
    intro w
    funext f
    unfold decodedElement decValue State.signedMode State.tgtWidth State.tgtSigned
    rw [hc]
  induction blocks generalizing prev with
  | nil => rfl
  | cons b rest ih =>
    unfold decodedElements
    rw [hel, ih]

/-- One block of `DECFRAME` whose header and fields the buffer holds at the cursor (R184). -/
theorem decFrameBlock_done (b : StreamBlock) (s : State) (hcap : 8 * s.bufLen.toNat < 2 ^ 64)
    (hprev : s.prevW.toNat ≤ 64) (hlg : b.form.legal = true)
    (hflt : ∀ f ∈ b.fields, f < 2 ^ b.form.width s.prevW.toNat)
    (h : s.pos.toNat + (b.form.length + b.fields.length * b.form.width s.prevW.toNat) ≤ 8 * s.bufLen.toNat)
    (hh : holdsBits s s.pos.toNat (b.form.bits ++ payloadBits (b.form.width s.prevW.toNat) b.fields)) :
    ∃ vo, decFrameBlock b.fields.length s = .done ()
        { s with
          vout := vo,
          pos := s.pos + BitVec.ofNat 64 (b.form.length + b.fields.length * b.form.width s.prevW.toNat),
          prevW := BitVec.ofNat 7 (b.form.width s.prevW.toNat),
          curW := BitVec.ofNat 7 (b.form.width s.prevW.toNat) } ∧
      StoredAt s { s with vout := vo } s.consumed.toNat
        (b.fields.map (decodedElement s (b.form.width s.prevW.toNat))) := by
  have hw64 : b.form.width s.prevW.toNat ≤ 64 := legal_width_le hlg hprev
  obtain ⟨hh1, hh2⟩ := holdsBits_append.mp hh
  rw [HeaderForm.bits_length] at hh2
  have e1 := decHeader_of_holds (s := s) hlg hcap (by omega) hh1
  generalize b.form.width s.prevW.toNat = w at *
  have hp1 : (s.pos + BitVec.ofNat 64 b.form.length).toNat = s.pos.toNat + b.form.length :=
    toNat_pos_add (by omega)
  obtain ⟨vo, e2, st⟩ := decBlock_done s.consumed.toNat w b.fields
    { s with
      pos := s.pos + BitVec.ofNat 64 b.form.length, prevW := BitVec.ofNat 7 w, curW := BitVec.ofNat 7 w }
    hcap hflt (.inr (by simp only [hp1]; omega)) (by simp only [hp1]; exact (holdsBits_congr rfl).mp hh2)
  refine ⟨vo, ?_, ⟨st.cells⟩⟩
  unfold decFrameBlock
  rw [e1, Run.bind_done]
  simp only [e2, pos_add_add]

/-- One block of `SCANFRAME` whose header the buffer holds at the cursor and whose payload fits (R186). -/
theorem scanFrameBlock_done (b : StreamBlock) (s : State) (hcap : 8 * s.bufLen.toNat < 2 ^ 64)
    (hlg : b.form.legal = true)
    (h : s.pos.toNat + (b.form.length + b.fields.length * b.form.width s.prevW.toNat) ≤ 8 * s.bufLen.toNat)
    (hh : holdsBits s s.pos.toNat b.form.bits) :
    scanFrameBlock b.fields.length s = .done ()
      { s with
        pos := s.pos + BitVec.ofNat 64 (b.form.length + b.fields.length * b.form.width s.prevW.toNat),
        prevW := BitVec.ofNat 7 (b.form.width s.prevW.toNat),
        curW := BitVec.ofNat 7 (b.form.width s.prevW.toNat) } := by
  have e1 := decHeader_of_holds (s := s) hlg hcap (by omega) hh
  generalize b.form.width s.prevW.toNat = w at *
  have hp1 : (s.pos + BitVec.ofNat 64 b.form.length).toNat = s.pos.toNat + b.form.length :=
    toNat_pos_add (by omega)
  unfold scanFrameBlock
  rw [e1, Run.bind_done]
  unfold skipPayload
  rw [if_pos ((inBounds_iff _ _).mpr (by simp only [hp1]; rw [Nat.mul_comm]; omega))]
  simp only [advance, pos_add_add, Nat.mul_comm w]

/-- The counts of whole blocks: the block the loop takes next has as many values as the stream's next
block (R91, R180). -/
theorem blockCount_of_cover {s : State} {n : Nat} {b : StreamBlock} {rest : List StreamBlock}
    (hcover : blocksCover s.blockSize.toNat n (b :: rest) = true)
    (hn : n ≤ s.frameLen.toNat - s.consumed.toNat)
    (hwhole : n = s.frameLen.toNat - s.consumed.toNat ∨ n % s.blockSize.toNat = 0) :
    blockCount s = b.fields.length := by
  obtain ⟨h0, hlen, _⟩ := blocksCover_cons hcover
  rw [hlen]
  unfold blockCount
  rcases hwhole with he | hm
  · rw [he]
  · have : s.blockSize.toNat ≤ n := by
      by_contra hlt
      rw [Nat.mod_eq_of_lt (by omega)] at hm
      omega
    omega

theorem whole_sub {size n total : Nat} (hwhole : n = total ∨ n % size = 0) :
    n - min size n = total - min size n ∨ (n - min size n) % size = 0 := by
  rcases hwhole with he | hm
  · left
    rw [he]
  · right
    by_cases hlt : n < size
    · rw [Nat.mod_eq_of_lt hlt] at hm
      subst hm
      simp
    · rw [Nat.min_eq_left (by omega)]
      rw [Nat.mod_eq_sub_mod (by omega)] at hm
      exact hm

/-- The loop of `DECFRAME` over whole blocks that the buffer holds: their sink patterns are stored and the
loop goes on after them (R184). -/
theorem decFrameBlocks_prefix (fuel : Nat) (blocks : List StreamBlock) (n : Nat) (s : State)
    (hcap : 8 * s.bufLen.toNat < 2 ^ 64) (hprev : s.prevW.toNat ≤ 64)
    (hc : s.consumed.toNat ≤ s.frameLen.toNat) (hfuel : s.frameLen.toNat - s.consumed.toNat ≤ fuel)
    (hn : n ≤ s.frameLen.toNat - s.consumed.toNat)
    (hwhole : n = s.frameLen.toNat - s.consumed.toNat ∨ n % s.blockSize.toNat = 0)
    (hB : 0 < s.blockSize.toNat) (hcover : blocksCover s.blockSize.toNat n blocks = true)
    (hlegal : blocksLegal s.prevW.toNat blocks = true)
    (h : s.pos.toNat + (blockBits s.prevW.toNat blocks).length ≤ 8 * s.bufLen.toNat)
    (hh : holdsBits s s.pos.toNat (blockBits s.prevW.toNat blocks)) :
    ∃ vo fuel', frameBlocks decFrameBlock fuel s = frameBlocks decFrameBlock fuel'
        { s with
          vout := vo,
          pos := s.pos + BitVec.ofNat 64 (blockBits s.prevW.toNat blocks).length,
          prevW := BitVec.ofNat 7 (lastWidth s.prevW.toNat blocks),
          curW := if blocks = [] then s.curW else BitVec.ofNat 7 (lastWidth s.prevW.toNat blocks),
          consumed := s.consumed + BitVec.ofNat 64 n } ∧
      StoredAt s { s with vout := vo } s.consumed.toNat (decodedElements s s.prevW.toNat blocks) ∧
      s.frameLen.toNat - (s.consumed.toNat + n) ≤ fuel' := by
  induction blocks generalizing fuel n s with
  | nil =>
    have hz : n = 0 := by simpa [blocksCover] using hcover
    subst hz
    refine ⟨s.vout, fuel, ?_, StoredAt.refl s _, by omega⟩
    simp [blockBits, lastWidth]
  | cons b rest ih =>
    obtain ⟨hn0, hlenk, hcover'⟩ := blocksCover_cons hcover
    obtain ⟨hlg, hflt, hlegal'⟩ := blocksLegal_cons hlegal
    have hkc := blockCount_of_cover hcover hn hwhole
    have hk0 : 0 < b.fields.length := by omega
    have hw64 : b.form.width s.prevW.toNat ≤ 64 := legal_width_le hlg hprev
    have hw7 : b.form.width s.prevW.toNat < 128 := by omega
    have hlen : (blockBits s.prevW.toNat (b :: rest)).length =
        b.form.length + b.fields.length * b.form.width s.prevW.toNat +
          (blockBits (b.form.width s.prevW.toNat) rest).length := by
      simp only [blockBits, List.length_append, HeaderForm.bits_length, payloadBits_length]
    rw [hlen] at h
    rw [blockBits] at hh
    obtain ⟨hh1, hh2⟩ := holdsBits_append.mp hh
    rw [List.length_append, HeaderForm.bits_length, payloadBits_length] at hh2
    obtain ⟨vo1, e1, st1⟩ := decFrameBlock_done b s hcap hprev hlg hflt (by omega) hh1
    generalize hw : b.form.width s.prevW.toNat = w at *
    have hp : (s.pos + BitVec.ofNat 64 (b.form.length + b.fields.length * w)).toNat =
        s.pos.toNat + (b.form.length + b.fields.length * w) := toNat_pos_add (by omega)
    have hcons : (s.consumed + BitVec.ofNat 64 b.fields.length).toNat = s.consumed.toNat + b.fields.length :=
      consumed_add (f := s.frameLen) (by omega)
    obtain ⟨fuel, rfl⟩ : ∃ f', fuel = f' + 1 := ⟨fuel - 1, by omega⟩
    obtain ⟨vo2, fuel', e2, st2, hf2⟩ := ih fuel (n - b.fields.length)
      (consume b.fields.length
        { s with
          vout := vo1, pos := s.pos + BitVec.ofNat 64 (b.form.length + b.fields.length * w),
          prevW := BitVec.ofNat 7 w, curW := BitVec.ofNat 7 w })
      hcap (by simp only [consume, ofNat7_toNat hw7]; exact hw64)
      (by simp only [consume, hcons]; omega) (by simp only [consume, hcons]; omega)
      (by simp only [consume, hcons]; omega)
      (by
        have := whole_sub hwhole
        rw [← hlenk] at this
        simp only [consume, hcons]
        rcases this with he | he
        · left; omega
        · right; exact he)
      hB (by rw [hlenk]; exact hcover')
      (by simp only [consume, ofNat7_toNat hw7]; exact hlegal')
      (by simp only [consume, hp, ofNat7_toNat hw7]; omega)
      (by simp only [consume, hp, ofNat7_toNat hw7]; exact (holdsBits_congr rfl).mp hh2)
    have hd : ∀ prev, decodedElements (consume b.fields.length
        { s with
          vout := vo1, pos := s.pos + BitVec.ofNat 64 (b.form.length + b.fields.length * w),
          prevW := BitVec.ofNat 7 w, curW := BitVec.ofNat 7 w }) prev rest = decodedElements s prev rest := by
      intro prev
      apply decodedElements_congr
      rfl
    rw [hd] at st2
    simp only [consume, ofNat7_toNat hw7, hcons] at e2 st2 hf2
    have hnsum : b.fields.length + (n - b.fields.length) = n := by omega
    refine ⟨vo2, fuel', ?_, ?_, by omega⟩
    · rw [frameBlocks, if_pos (by omega), hkc, e1, Run.bind_done]
      simp only [consume, e2, hlen, lastWidth, hw, reduceCtorEq, if_false, pos_add_add, hnsum]
      congr 2
      split
      · rename_i hr
        rw [hr]
        rfl
      · rfl
    · simp only [decodedElements, hw]
      refine StoredAt.trans (t := { s with vout := vo1 }) ⟨st1.cells⟩ ?_
      rw [List.length_map]
      exact ⟨fun i => st2.cells i⟩

/-- The loop of `DECFRAME` over a stream that the buffer holds (R184). -/
theorem decFrameBlocks_done (fuel : Nat) (blocks : List StreamBlock) (s : State)
    (hcap : 8 * s.bufLen.toNat < 2 ^ 64) (hprev : s.prevW.toNat ≤ 64)
    (hc : s.consumed.toNat ≤ s.frameLen.toNat) (hfuel : s.frameLen.toNat - s.consumed.toNat ≤ fuel)
    (hB : 0 < s.blockSize.toNat)
    (hcover : blocksCover s.blockSize.toNat (s.frameLen.toNat - s.consumed.toNat) blocks = true)
    (hlegal : blocksLegal s.prevW.toNat blocks = true)
    (h : s.pos.toNat + (blockBits s.prevW.toNat blocks).length ≤ 8 * s.bufLen.toNat)
    (hh : holdsBits s s.pos.toNat (blockBits s.prevW.toNat blocks)) :
    ∃ vo, frameBlocks decFrameBlock fuel s = .done ()
        { s with
          vout := vo,
          pos := s.pos + BitVec.ofNat 64 (blockBits s.prevW.toNat blocks).length,
          prevW := BitVec.ofNat 7 (lastWidth s.prevW.toNat blocks),
          curW := if blocks = [] then s.curW else BitVec.ofNat 7 (lastWidth s.prevW.toNat blocks),
          consumed := s.frameLen } ∧
      StoredAt s { s with vout := vo } s.consumed.toNat (decodedElements s s.prevW.toNat blocks) := by
  obtain ⟨vo, fuel', e, st, _⟩ := decFrameBlocks_prefix fuel blocks _ s hcap hprev hc hfuel (Nat.le_refl _)
    (.inl rfl) hB hcover hlegal h hh
  have he : s.consumed + BitVec.ofNat 64 (s.frameLen.toNat - s.consumed.toNat) = s.frameLen :=
    BitVec.eq_of_toNat_eq (by rw [consumed_add (f := s.frameLen) (by omega)]; omega)
  rw [he] at e
  exact ⟨vo, by rw [e, frameBlocks_end _ _ (by simp)], st⟩

/-- The loop of `SCANFRAME` over whole blocks that the buffer holds: it goes on after them (R186). -/
theorem scanFrameBlocks_prefix (fuel : Nat) (blocks : List StreamBlock) (n : Nat) (s : State)
    (hcap : 8 * s.bufLen.toNat < 2 ^ 64) (hprev : s.prevW.toNat ≤ 64)
    (hc : s.consumed.toNat ≤ s.frameLen.toNat) (hfuel : s.frameLen.toNat - s.consumed.toNat ≤ fuel)
    (hn : n ≤ s.frameLen.toNat - s.consumed.toNat)
    (hwhole : n = s.frameLen.toNat - s.consumed.toNat ∨ n % s.blockSize.toNat = 0)
    (hB : 0 < s.blockSize.toNat) (hcover : blocksCover s.blockSize.toNat n blocks = true)
    (hlegal : blocksLegal s.prevW.toNat blocks = true)
    (h : s.pos.toNat + (blockBits s.prevW.toNat blocks).length ≤ 8 * s.bufLen.toNat)
    (hh : holdsBits s s.pos.toNat (blockBits s.prevW.toNat blocks)) :
    ∃ fuel', frameBlocks scanFrameBlock fuel s = frameBlocks scanFrameBlock fuel'
        { s with
          pos := s.pos + BitVec.ofNat 64 (blockBits s.prevW.toNat blocks).length,
          prevW := BitVec.ofNat 7 (lastWidth s.prevW.toNat blocks),
          curW := if blocks = [] then s.curW else BitVec.ofNat 7 (lastWidth s.prevW.toNat blocks),
          consumed := s.consumed + BitVec.ofNat 64 n } ∧
      s.frameLen.toNat - (s.consumed.toNat + n) ≤ fuel' := by
  induction blocks generalizing fuel n s with
  | nil =>
    have hz : n = 0 := by simpa [blocksCover] using hcover
    subst hz
    refine ⟨fuel, ?_, by omega⟩
    simp [blockBits, lastWidth]
  | cons b rest ih =>
    obtain ⟨hn0, hlenk, hcover'⟩ := blocksCover_cons hcover
    obtain ⟨hlg, _, hlegal'⟩ := blocksLegal_cons hlegal
    have hkc := blockCount_of_cover hcover hn hwhole
    have hk0 : 0 < b.fields.length := by omega
    have hw64 : b.form.width s.prevW.toNat ≤ 64 := legal_width_le hlg hprev
    have hw7 : b.form.width s.prevW.toNat < 128 := by omega
    have hlen : (blockBits s.prevW.toNat (b :: rest)).length =
        b.form.length + b.fields.length * b.form.width s.prevW.toNat +
          (blockBits (b.form.width s.prevW.toNat) rest).length := by
      simp only [blockBits, List.length_append, HeaderForm.bits_length, payloadBits_length]
    rw [hlen] at h
    rw [blockBits] at hh
    obtain ⟨hh1, hh2⟩ := holdsBits_append.mp hh
    rw [List.length_append, HeaderForm.bits_length, payloadBits_length] at hh2
    have e1 := scanFrameBlock_done b s hcap hlg (by omega) (holdsBits_append.mp hh1).1
    generalize hw : b.form.width s.prevW.toNat = w at *
    have hp : (s.pos + BitVec.ofNat 64 (b.form.length + b.fields.length * w)).toNat =
        s.pos.toNat + (b.form.length + b.fields.length * w) := toNat_pos_add (by omega)
    have hcons : (s.consumed + BitVec.ofNat 64 b.fields.length).toNat = s.consumed.toNat + b.fields.length :=
      consumed_add (f := s.frameLen) (by omega)
    obtain ⟨fuel, rfl⟩ : ∃ f', fuel = f' + 1 := ⟨fuel - 1, by omega⟩
    obtain ⟨fuel', e2, hf2⟩ := ih fuel (n - b.fields.length)
      (consume b.fields.length
        { s with
          pos := s.pos + BitVec.ofNat 64 (b.form.length + b.fields.length * w),
          prevW := BitVec.ofNat 7 w, curW := BitVec.ofNat 7 w })
      hcap (by simp only [consume, ofNat7_toNat hw7]; exact hw64)
      (by simp only [consume, hcons]; omega) (by simp only [consume, hcons]; omega)
      (by simp only [consume, hcons]; omega)
      (by
        have := whole_sub hwhole
        rw [← hlenk] at this
        simp only [consume, hcons]
        rcases this with he | he
        · left; omega
        · right; exact he)
      hB (by rw [hlenk]; exact hcover')
      (by simp only [consume, ofNat7_toNat hw7]; exact hlegal')
      (by simp only [consume, hp, ofNat7_toNat hw7]; omega)
      (by simp only [consume, hp, ofNat7_toNat hw7]; exact (holdsBits_congr rfl).mp hh2)
    simp only [consume, ofNat7_toNat hw7, hcons] at e2 hf2
    have hnsum : b.fields.length + (n - b.fields.length) = n := by omega
    refine ⟨fuel', ?_, by omega⟩
    rw [frameBlocks, if_pos (by omega), hkc, e1, Run.bind_done]
    simp only [consume, e2, hlen, lastWidth, hw, reduceCtorEq, if_false, pos_add_add, hnsum]
    congr 2
    split
    · rename_i hr
      rw [hr]
      rfl
    · rfl

/-- The loop of `SCANFRAME` over a stream that the buffer holds (R186). -/
theorem scanFrameBlocks_done (fuel : Nat) (blocks : List StreamBlock) (s : State)
    (hcap : 8 * s.bufLen.toNat < 2 ^ 64) (hprev : s.prevW.toNat ≤ 64)
    (hc : s.consumed.toNat ≤ s.frameLen.toNat) (hfuel : s.frameLen.toNat - s.consumed.toNat ≤ fuel)
    (hB : 0 < s.blockSize.toNat)
    (hcover : blocksCover s.blockSize.toNat (s.frameLen.toNat - s.consumed.toNat) blocks = true)
    (hlegal : blocksLegal s.prevW.toNat blocks = true)
    (h : s.pos.toNat + (blockBits s.prevW.toNat blocks).length ≤ 8 * s.bufLen.toNat)
    (hh : holdsBits s s.pos.toNat (blockBits s.prevW.toNat blocks)) :
    frameBlocks scanFrameBlock fuel s = .done ()
      { s with
        pos := s.pos + BitVec.ofNat 64 (blockBits s.prevW.toNat blocks).length,
        prevW := BitVec.ofNat 7 (lastWidth s.prevW.toNat blocks),
        curW := if blocks = [] then s.curW else BitVec.ofNat 7 (lastWidth s.prevW.toNat blocks),
        consumed := s.frameLen } := by
  obtain ⟨fuel', e, _⟩ := scanFrameBlocks_prefix fuel blocks _ s hcap hprev hc hfuel (Nat.le_refl _)
    (.inl rfl) hB hcover hlegal h hh
  have he : s.consumed + BitVec.ofNat 64 (s.frameLen.toNat - s.consumed.toNat) = s.frameLen :=
    BitVec.eq_of_toNat_eq (by rw [consumed_add (f := s.frameLen) (by omega)]; omega)
  rw [he] at e
  rw [e, frameBlocks_end _ _ (by simp)]

end Sys2Proof.Machine
end

