-- ==== Sys2Proof/Laws/Commands.lean ====
section
/-! SUPPORT. Each command as its checks and its pseudocode (60_exceptions.md R223), and when each check
passes and fails. -/

namespace Sys2Proof.Machine

/-! ### The checks -/

theorem badBlockSize_pass {s : State} (h : s.blockSize ≠ 0#64) : badBlockSize s = (false, .badConfig) := by
  have : s.blockSize.toNat ≠ 0 := fun h0 => h (BitVec.eq_of_toNat_eq (by simpa using h0))
  simp [badBlockSize, this]

theorem badBlockSize_fail {s : State} (h : s.blockSize = 0#64) : badBlockSize s = (true, .badConfig) := by
  simp [badBlockSize, h]

theorem badWidth_pass {s : State} (h : s.aN.toNat ≤ 64) : badWidth s = (false, .badArgument) := by
  exact Prod.ext (decide_eq_false (Nat.not_lt.mpr h)) rfl

theorem badWidth_fail {s : State} (h : 64 < s.aN.toNat) : badWidth s = (true, .badArgument) := by
  exact Prod.ext (decide_eq_true h) rfl

theorem badCount_pass {s : State} (h : s.aK.toNat ≤ s.blockSize.toNat) :
    badCount s = (false, .badArgument) := by
  exact Prod.ext (decide_eq_false (Nat.not_lt.mpr h)) rfl

theorem badCount_fail {s : State} (h : s.blockSize.toNat < s.aK.toNat) : badCount s = (true, .badArgument) := by
  exact Prod.ext (decide_eq_true h) rfl

theorem badOffset_pass {s : State} (h : s.aOff.toNat ≤ s.bufLen.toNat) :
    badOffset s = (false, .badArgument) := by
  exact Prod.ext (decide_eq_false (Nat.not_lt.mpr h)) rfl

theorem badOffset_fail {s : State} (h : s.bufLen.toNat < s.aOff.toNat) :
    badOffset s = (true, .badArgument) := by
  exact Prod.ext (decide_eq_true h) rfl

theorem signedIntoUnsigned_pass {s : State} (h : s.signedMode = true → s.tgtSigned = true) :
    signedIntoUnsigned s = (false, .signednessMismatch) := by
  unfold signedIntoUnsigned
  cases hs : s.signedMode with
  | false => rfl
  | true => rw [h hs]; rfl

theorem signedIntoUnsigned_fail {s : State} (hs : s.signedMode = true) (ht : s.tgtSigned = false) :
    signedIntoUnsigned s = (true, .signednessMismatch) := by
  simp [signedIntoUnsigned, hs, ht]

theorem blockTooLong_pass {s : State} (h : s.aIdx.toNat + s.aK.toNat ≤ Config.valCap) :
    blockTooLong s = (false, .sizeMismatch) := by
  exact Prod.ext (decide_eq_false (Nat.not_lt.mpr h)) rfl

theorem blockTooLong_fail {s : State} (h : Config.valCap < s.aIdx.toNat + s.aK.toNat) :
    blockTooLong s = (true, .sizeMismatch) := by
  exact Prod.ext (decide_eq_true h) rfl

theorem frameTooLong_pass {s : State} (h : s.frameLen.toNat ≤ Config.valCap) :
    frameTooLong s = (false, .sizeMismatch) := by
  exact Prod.ext (decide_eq_false (Nat.not_lt.mpr h)) rfl

theorem frameTooLong_fail {s : State} (h : Config.valCap < s.frameLen.toNat) :
    frameTooLong s = (true, .sizeMismatch) := by
  exact Prod.ext (decide_eq_true h) rfl

/-- Raising a fault as the claims say it (R224). -/
theorem raiseFault_eq (k : FaultKind) (s : State) : raiseFault k s = faultedWith k.code s := rfl

/-! ### The commands -/

theorem exec_rdbit (s : State) :
    exec .rdbit s = runCommand [] (readResult 1) s := rfl

theorem exec_rdbits (s : State) :
    exec .rdbits s = runCommand [badWidth s] (readResult s.opN) s := rfl

theorem exec_wrbits (s : State) :
    exec .wrbits s = runCommand [badWidth s] (writeField (s.aVal.toNat % 2 ^ s.opN) s.opN) s := rfl

theorem exec_posbits (s : State) :
    exec .posbits s = runCommand [] (fun s => .done () (setResult s.pos.toNat s)) s := rfl

theorem exec_align (s : State) :
    exec .align s = runCommand [] (fun s => .done () (alignPos s)) s := rfl

theorem exec_seek (s : State) :
    exec .seek s = runCommand [badOffset s] (fun s => .done () (seekPos s)) s := rfl

theorem exec_blkwidth (s : State) :
    exec .blkwidth s = runCommand [badBlockSize s, badCount s, blockTooLong s]
        (fun s => .done () (setResult (blockWidth s s.opIdx s.opK) s)) s := rfl

theorem exec_encblk (s : State) :
    exec .encblk s = runCommand (encblkChecks s) (encBlock s.opIdx s.opK s.opN) s := rfl

theorem exec_decblk (s : State) :
    exec .decblk s = runCommand (decblkChecks s) (decBlock s.opIdx s.opK s.opN) s := rfl

theorem exec_enchdr (s : State) :
    exec .enchdr s = runCommand [badWidth s] (encHeader s.opN) s := rfl

theorem exec_dechdr (s : State) :
    exec .dechdr s = runCommand [] (fun s => (decHeader s).bind fun w s => .done () (setResult w s)) s := rfl

theorem exec_encframe (s : State) :
    exec .encframe s = runCommand (encframeChecks s) (runFrame encFrameBlock) s := rfl

theorem exec_decframe (s : State) :
    exec .decframe s = runCommand (decframeChecks s) (runFrame decFrameBlock) s := rfl

theorem exec_scanframe (s : State) :
    exec .scanframe s = runCommand (scanframeChecks s) (runFrame scanFrameBlock) s := rfl

theorem exec_illegal (c : Byte) (s : State) :
    exec (.illegal c) s = runCommand [(true, .illegalCommand)] (fun s => .done () s) s := rfl

theorem exec_reuse (s : State) :
    exec .reuse s = runCommand [] (fun s => (applyReuse (advance 1 s)).bind fun _ s => .done () s) s := rfl

theorem exec_abs3 (a : BitVec 3) (s : State) :
    exec (.abs3 a) s = runCommand [] (fun s => (applyAbs3 a (advance 4 s)).bind fun _ s => .done () s) s := rfl

theorem exec_abs5 (b : BitVec 2) (s : State) :
    exec (.abs5 b) s = runCommand [] (fun s => (applyAbs5 b (advance 6 s)).bind fun _ s => .done () s) s := rfl

theorem exec_abs11 (c : BitVec 6) (s : State) :
    exec (.abs11 c) s = runCommand [] (fun s => (applyAbs11 c (advance 12 s)).bind fun _ s => .done () s) s :=
      rfl

theorem exec_abs11Illegal (c : BitVec 6) (s : State) :
    exec (.abs11Illegal c) s = runCommand []
        (fun s => (applyAbs11Illegal c (advance 12 s)).bind fun _ s => .done () s) s := rfl

theorem exec_reset (s : State) : exec .reset s = .next (resetRegisters s) := rfl

/-- Every instruction but `RESET` is a command: checks, then a body (R210, R223). -/
theorem exec_eq_runCommand (i : Instr) (s : State) (h : i ≠ .reset) :
    ∃ checks body, exec i s = runCommand checks body s := by
  cases i with
  | reset => exact absurd rfl h
  | rdbit => exact ⟨_, _, exec_rdbit s⟩
  | rdbits => exact ⟨_, _, exec_rdbits s⟩
  | wrbits => exact ⟨_, _, exec_wrbits s⟩
  | posbits => exact ⟨_, _, exec_posbits s⟩
  | align => exact ⟨_, _, exec_align s⟩
  | seek => exact ⟨_, _, exec_seek s⟩
  | blkwidth => exact ⟨_, _, exec_blkwidth s⟩
  | encblk => exact ⟨_, _, exec_encblk s⟩
  | decblk => exact ⟨_, _, exec_decblk s⟩
  | enchdr => exact ⟨_, _, exec_enchdr s⟩
  | dechdr => exact ⟨_, _, exec_dechdr s⟩
  | encframe => exact ⟨_, _, exec_encframe s⟩
  | decframe => exact ⟨_, _, exec_decframe s⟩
  | scanframe => exact ⟨_, _, exec_scanframe s⟩
  | illegal c => exact ⟨_, _, exec_illegal c s⟩
  | reuse => exact ⟨_, _, exec_reuse s⟩
  | abs3 a => exact ⟨_, _, exec_abs3 a s⟩
  | abs5 b => exact ⟨_, _, exec_abs5 b s⟩
  | abs11 c => exact ⟨_, _, exec_abs11 c s⟩
  | abs11Illegal c => exact ⟨_, _, exec_abs11Illegal c s⟩

/-- Every instruction answers a next state (R210, R224). -/
theorem exec_eq_next (i : Instr) (s : State) : ∃ t, exec i s = .next t := by
  by_cases h : i = .reset
  · subst h
    exact ⟨_, exec_reset s⟩
  · obtain ⟨checks, body, e⟩ := exec_eq_runCommand i s h
    rw [e]
    rcases runCommand_cases checks body s with ⟨_, e⟩ | ⟨_, k, _, e⟩ | ⟨_, _, e⟩ <;> exact ⟨_, e⟩

end Sys2Proof.Machine
end

