-- ==== Sys2Proof/Laws/Decode.lean ====
section
/-! SUPPORT. Taking fields off a stream bit string, as header decoding does (30_encoding.md R97). -/

namespace Sys2Proof

theorem fieldBits_succ (n v : Nat) : fieldBits (n + 1) v = v.testBit 0 :: fieldBits n (v / 2) := by
  unfold fieldBits
  rw [List.range_succ_eq_map, List.map_cons, List.map_map]
  congr 1
  apply List.map_congr_left
  intro i _
  simp [Nat.testBit_succ]

/-- A bit string is the bits of the number it stands for (R5). -/
theorem fieldBits_bitsToNat (bits : List Bool) : fieldBits bits.length (bitsToNat bits) = bits := by
  induction bits with
  | nil => rfl
  | cons b bits ih =>
    rw [List.length_cons, fieldBits_succ, bitsToNat]
    have : (b.toNat + 2 * bitsToNat bits) / 2 = bitsToNat bits := by
      have := Bool.toNat_le b
      omega
    rw [this, ih]
    congr 1
    cases b <;> simp [Nat.testBit_zero]

theorem bitsToNat_lt (bits : List Bool) : bitsToNat bits < 2 ^ bits.length := by
  induction bits with
  | nil => simp [bitsToNat]
  | cons b bits ih =>
    simp only [bitsToNat, List.length_cons, Nat.pow_succ]
    have := Bool.toNat_le b
    omega

/-- A field is taken off the bits that begin with it. -/
theorem takeField_append {n v : Nat} (hv : v < 2 ^ n) (rest : List Bool) :
    takeField n (fieldBits n v ++ rest) = .ok (v, rest) := by
  unfold takeField
  rw [if_pos (by simp)]
  congr 2
  · rw [List.take_append_of_le_length (by simp), List.take_of_length_le (by simp)]
    exact bitsToNat_fieldBits hv
  · rw [List.drop_append_of_le_length (by simp), List.drop_of_length_le (by simp)]
    rfl

/-- What a field taken off a bit string says of it. -/
theorem takeField_eq_ok {n v : Nat} {bits rest : List Bool} (h : takeField n bits = .ok (v, rest)) :
    bits = fieldBits n v ++ rest ∧ v < 2 ^ n := by
  unfold takeField at h
  split at h
  · rename_i hn
    simp only [Except.ok.injEq, Prod.mk.injEq] at h
    obtain ⟨h1, h2⟩ := h
    have hl : (bits.take n).length = n := by simp [hn]
    have e := fieldBits_bitsToNat (bits.take n)
    have hlt := bitsToNat_lt (bits.take n)
    rw [hl, h1] at e
    rw [h1, hl] at hlt
    exact ⟨by rw [e, ← h2, List.take_append_drop], hlt⟩
  · cases h

end Sys2Proof
end

