-- ==== Sys2Proof/Laws/Layout.lean ====
section
/-! SUPPORT. Frames: the checks of the frame commands, where they start and end (43_frame_codec.md R181), and
the shape and size of the frame an encoder makes (R91, R107, R188). -/

namespace Sys2Proof.Machine

/-- Where a frame command starts (R181). -/
theorem frameStart_pos_toNat {s : State} (hw : NoWrap s) (ho : s.aOff.toNat ≤ s.bufLen.toNat) :
    (frameStart s).pos.toNat = 8 * s.aOff.toNat := by
  show (BitVec.ofNat 64 (8 * s.aOff.toNat)).toNat = _
  unfold NoWrap at hw
  rw [BitVec.toNat_ofNat]
  omega

/-- The checks of `ENCFRAME` pass (R182, R223). -/
theorem encframeChecks_pass {s : State} (h0 : s.blockSize ≠ 0#64) (h1 : s.aOff.toNat ≤ s.bufLen.toNat)
    (h2 : s.frameLen.toNat ≤ Config.valCap) : firstFailing (encframeChecks s) = none := by
  simp [encframeChecks, badBlockSize_pass h0, badOffset_pass h1, frameTooLong_pass h2]

/-- The checks of `DECFRAME` pass (R184, R223). -/
theorem decframeChecks_pass {s : State} (h0 : s.blockSize ≠ 0#64) (h1 : s.aOff.toNat ≤ s.bufLen.toNat)
    (h3 : s.signedMode = true → s.tgtSigned = true) (h2 : s.frameLen.toNat ≤ Config.valCap) :
    firstFailing (decframeChecks s) = none := by
  simp [decframeChecks, badBlockSize_pass h0, badOffset_pass h1, frameTooLong_pass h2,
    signedIntoUnsigned_pass h3]

/-- The checks of `SCANFRAME` pass (R186, R223). -/
theorem scanframeChecks_pass {s : State} (h0 : s.blockSize ≠ 0#64) (h1 : s.aOff.toNat ≤ s.bufLen.toNat) :
    firstFailing (scanframeChecks s) = none := by
  simp [scanframeChecks, badBlockSize_pass h0, badOffset_pass h1]

theorem blockSize_pos {s : State} (h0 : s.blockSize ≠ 0#64) : 0 < s.blockSize.toNat := by
  rcases Nat.eq_zero_or_pos s.blockSize.toNat with h | h
  · exact absurd (BitVec.eq_of_toNat_eq (by simpa using h)) h0
  · exact h

/-- Where `frame_end()` leaves `POS` and `NEXT_OFF`, `n` bits after byte `a` (R181). -/
theorem frameEnd_positions {a n len : Nat} (hn : 8 * a + n ≤ 8 * len) (hw : 8 * len < 2 ^ 64) :
    BitVec.ofNat 64 (alignUp (BitVec.ofNat 64 (8 * a) + BitVec.ofNat 64 n).toNat) =
        BitVec.ofNat 64 (8 * (a + (n + 7) / 8)) ∧
      BitVec.ofNat 64
          ((BitVec.ofNat 64 (alignUp (BitVec.ofNat 64 (8 * a) + BitVec.ofNat 64 n).toNat)).toNat / 8) =
        BitVec.ofNat 64 (a + (n + 7) / 8) := by
  have h1 : (BitVec.ofNat 64 (8 * a) + BitVec.ofNat 64 n).toNat = 8 * a + n := by
    rw [BitVec.toNat_add, BitVec.toNat_ofNat, BitVec.toNat_ofNat]
    omega
  have h2 : alignUp (8 * a + n) = 8 * (a + (n + 7) / 8) := by
    unfold alignUp
    omega
  rw [h1, h2]
  refine ⟨rfl, ?_⟩
  rw [BitVec.toNat_ofNat]
  congr 1
  omega

/-- How many blocks an encoder makes (R91). -/
theorem encodedBlocks_length (s : State) (hB : 0 < s.blockSize.toNat) (fuel idx prev : Nat)
    (hfuel : s.frameLen.toNat - idx ≤ fuel) :
    (encodedBlocks s fuel idx prev).length =
      (s.frameLen.toNat - idx + s.blockSize.toNat - 1) / s.blockSize.toNat := by
  induction fuel generalizing idx prev with
  | zero =>
    have : s.frameLen.toNat - idx = 0 := by omega
    rw [this]
    simp only [encodedBlocks, List.length_nil]
    exact (Nat.div_eq_of_lt (by omega)).symm
  | succ fuel ih =>
    unfold encodedBlocks
    split
    · rename_i hlt
      simp only [List.length_cons]
      rw [ih _ _ (by omega)]
      generalize s.blockSize.toNat = B at *
      generalize hn : s.frameLen.toNat - idx = n at *
      have hn2 : s.frameLen.toNat - (idx + min B n) = n - min B n := by omega
      rw [hn2]
      by_cases hle : n ≤ B
      · have : n - min B n = 0 := by omega
        rw [this]
        have a1 : (0 + B - 1) / B = 0 := Nat.div_eq_of_lt (by omega)
        have a2 : (n + B - 1) / B = 1 := Nat.div_eq_of_lt_le (by omega) (by omega)
        rw [a1, a2]
      · have : n - min B n + B - 1 + B = n + B - 1 := by omega
        rw [← this, Nat.add_div_right _ hB]
    · have : s.frameLen.toNat - idx = 0 := by omega
      rw [this]
      simp only [List.length_nil]
      exact (Nat.div_eq_of_lt (by omega)).symm

/-- Each block of an encoder has the header its rule chooses after the blocks before it (R107). -/
theorem encodedBlocks_split (s : State) (fuel idx prev : Nat) (before : List StreamBlock) (b : StreamBlock)
    (after : List StreamBlock) (h : encodedBlocks s fuel idx prev = before ++ b :: after) :
    ∃ w fuel' idx', w ≤ s.srcWidth ∧ b.form = formFor w (lastWidth prev before) ∧
      encodedBlocks s fuel' idx' (lastWidth prev before) = b :: after := by
  induction before generalizing fuel idx prev with
  | nil =>
    cases fuel with
    | zero => simp [encodedBlocks] at h
    | succ fuel =>
      refine ⟨blockWidth s idx (min s.blockSize.toNat (s.frameLen.toNat - idx)), fuel+1, idx, ?_, ?_, h⟩
      · exact blockWidth_le_srcWidth _ _ _
      · unfold encodedBlocks at h
        split at h
        · simp at h
          rw [← h.1]
          rfl
        · simp at h
  | cons a before ih =>
    cases fuel with
    | zero => simp [encodedBlocks] at h
    | succ fuel =>
      unfold encodedBlocks at h
      split at h
      · simp only [List.cons_append, List.cons.injEq] at h
        obtain ⟨h1, h2⟩ := h
        obtain ⟨w, f', i', hw, hf, he⟩ := ih _ _ _ h2
        have : a.form.width prev =
            blockWidth s idx (min s.blockSize.toNat (s.frameLen.toNat - idx)) := by
          rw [← h1]
          exact formFor_width (blockWidth_le_64 _ _ _) prev
        rw [← this] at hf he
        exact ⟨w, f', i', hw, hf, he⟩
      · simp at h

/-- The bits of a stream in two parts (R91). -/
theorem blockBits_append (prev : Nat) (a b : List StreamBlock) :
    blockBits prev (a ++ b) = blockBits prev a ++ blockBits (lastWidth prev a) b := by
  induction a generalizing prev with
  | nil => rfl
  | cons x a ih => simp only [List.cons_append, blockBits, lastWidth, ih, List.append_assoc]

theorem blockBits_length_cons (prev : Nat) (b : StreamBlock) (rest : List StreamBlock) :
    (blockBits prev (b :: rest)).length =
      b.form.length + b.fields.length * b.form.width prev + (blockBits (b.form.width prev) rest).length := by
  simp only [blockBits, List.length_append, HeaderForm.bits_length, payloadBits_length]

theorem formFor_length_le (w prev : Nat) : (formFor w prev).length ≤ if w < 10 then 6 else 12 := by
  rw [formFor_length]
  unfold hdrLen
  split <;> split <;> (try split) <;> (try split) <;> omega

/-- The bits of the blocks an encoder makes, bounded (R188). -/
theorem encodedBlocks_size (s : State) (hB : 0 < s.blockSize.toNat) (fuel idx prev : Nat)
    (hfuel : s.frameLen.toNat - idx ≤ fuel) :
    (blockBits prev (encodedBlocks s fuel idx prev)).length ≤
      (s.frameLen.toNat - idx) * s.srcWidth +
        (if s.srcWidth = 8 then 6 else 12) * (encodedBlocks s fuel idx prev).length := by
  induction fuel generalizing idx prev with
  | zero => simp [encodedBlocks, blockBits]
  | succ fuel ih =>
    unfold encodedBlocks
    split
    · rename_i hlt
      simp only []
      generalize hk : min s.blockSize.toNat (s.frameLen.toNat - idx) = k
      have hwS := blockWidth_le_srcWidth s idx k
      have hw64 := blockWidth_le_64 s idx k
      generalize blockWidth s idx k = w at *
      rw [blockBits_length_cons, formFor_width hw64, encodedFields_length, List.length_cons]
      have h1 := ih (idx + k) w (by omega)
      have h2 := formFor_length_le w prev
      have h3 : (formFor w prev).length ≤ if s.srcWidth = 8 then 6 else 12 := by
        split at h2 <;> split <;> omega
      have h4 : k * w ≤ k * s.srcWidth := Nat.mul_le_mul_left _ hwS
      have h5 : (s.frameLen.toNat - idx) * s.srcWidth =
          k * s.srcWidth + (s.frameLen.toNat - (idx + k)) * s.srcWidth := by
        rw [← Nat.add_mul]
        congr 1
        omega
      generalize (if s.srcWidth = 8 then 6 else 12) = hm at *
      rw [h5, Nat.mul_succ]
      dsimp only
      omega
    · simp [blockBits]

/-- A legal stream form executed by an unfaulted core (R93, R162). -/
theorem exec_toInstr_legal (f : HeaderForm) {s : State} (hr : Running s) (hl : f.legal = true) :
    exec f.toInstr s = .next
      { s with
        pos := s.pos + BitVec.ofNat 64 f.length,
        prevW := BitVec.ofNat 7 (f.width s.prevW.toNat), curW := BitVec.ofNat 7 (f.width s.prevW.toNat) } := by
  cases f with
  | reuse =>
    have h : BitVec.ofNat 7 s.prevW.toNat = s.prevW := by simp
    rw [HeaderForm.toInstr, exec_reuse, runCommand_of_pass hr rfl]
    simp only [HeaderForm.width, h]
    rfl
  | abs3 a =>
    rw [HeaderForm.toInstr, exec_abs3, runCommand_of_pass hr rfl]
    rfl
  | abs5 a =>
    rw [HeaderForm.toInstr, exec_abs5, runCommand_of_pass hr rfl]
    rfl
  | abs11 a =>
    rw [HeaderForm.toInstr, exec_abs11, runCommand_of_pass hr rfl]
    rfl
  | abs11Illegal c => simp [HeaderForm.legal] at hl

theorem legal_width_lt {f : HeaderForm} (hl : f.legal = true) (s : State) :
    f.width s.prevW.toNat < 128 := by
  have := s.prevW.isLt
  cases f with
  | reuse => exact this
  | abs3 a =>
    have := a.isLt
    simp only [HeaderForm.width]
    omega
  | abs5 a =>
    have := a.isLt
    simp only [HeaderForm.width]
    omega
  | abs11 a =>
    have := a.isLt
    simp only [HeaderForm.width]
    omega
  | abs11Illegal c => simp [HeaderForm.legal] at hl

/-- Where a stream stops fitting: whole blocks that fit, and the block that does not (R229). -/
theorem blockBits_split (prev : Nat) (blocks : List StreamBlock) (room : Nat)
    (h : room < (blockBits prev blocks).length) :
    ∃ before b after, blocks = before ++ b :: after ∧ (blockBits prev before).length ≤ room ∧
      room < (blockBits prev before).length +
        (b.form.length + b.fields.length * b.form.width (lastWidth prev before)) := by
  induction blocks generalizing prev room with
  | nil => simp [blockBits] at h
  | cons b rest ih =>
    rw [blockBits_length_cons] at h
    by_cases hb : room < b.form.length + b.fields.length * b.form.width prev
    · exact ⟨[], b, rest, rfl, by simp [blockBits], by simpa [blockBits, lastWidth] using hb⟩
    · obtain ⟨bf, b', af, e, h1, h2⟩ :=
        ih (b.form.width prev) (room - (b.form.length + b.fields.length * b.form.width prev)) (by omega)
      refine ⟨b :: bf, b', af, by rw [e]; rfl, ?_, ?_⟩
      · rw [blockBits_length_cons]
        omega
      · rw [blockBits_length_cons, lastWidth]
        omega

/-- The first fields of a payload (R92). -/
theorem payloadBits_take (s : State) (w idx : Nat) {j k : Nat} (hj : j ≤ k) :
    (payloadBits w (encodedFields s w idx k)).take (j * w) = payloadBits w (encodedFields s w idx j) := by
  obtain ⟨d, rfl⟩ : ∃ d, k = j + d := ⟨k - j, by omega⟩
  obtain ⟨r, hr⟩ : ∃ r, encodedFields s w idx (j + d) = encodedFields s w idx j ++ r := by
    unfold encodedFields
    rw [List.range_add, List.map_append]
    exact ⟨_, rfl⟩
  have hl := payloadBits_length w (encodedFields s w idx j)
  rw [hr]
  unfold payloadBits at hl ⊢
  rw [List.flatMap_append]
  apply List.take_left'
  rw [hl, encodedFields_length]

/-- A reserved header that the buffer holds at the cursor (R98, R162). -/
theorem decHeader_reserved {s : State} {c : BitVec 6} (hc : 55 ≤ c.toNat) (hcap : 8 * s.bufLen.toNat < 2 ^ 64)
    (hfit : s.pos.toNat + 12 ≤ 8 * s.bufLen.toNat)
    (h : holdsBits s s.pos.toNat (HeaderForm.bits (.abs11Illegal c))) :
    decHeader s = .raised (raiseFault .widthOutOfRange (advance 12 s)) := by
  unfold decHeader
  rw [fetchHeader_of_holds (f := .abs11Illegal c)
    (by simp only [HeaderForm.wellFormed, decide_eq_true_eq]; exact hc) hcap hfit h]
  rfl

/-- The sink patterns of the frame an encoder makes: each is a value's pattern under a width that its block
asked for (R140, R142, R144). -/
theorem encodedBlocks_elements (s : State) (hB : 0 < s.blockSize.toNat) (fuel idx prev : Nat)
    (hfuel : s.frameLen.toNat - idx ≤ fuel) :
    (decodedElements s prev (encodedBlocks s fuel idx prev)).length = s.frameLen.toNat - idx ∧
      ∀ j, j < s.frameLen.toNat - idx → ∃ i0 i k, i < k ∧ i0 + i = idx + j ∧
        (decodedElements s prev (encodedBlocks s fuel idx prev)).getD j 0 =
          decodedElement s (blockWidth s i0 k) (pat (blockWidth s i0 k) (s.sourceValue (i0 + i))) := by
  induction fuel generalizing idx prev with
  | zero =>
    simp only [encodedBlocks, decodedElements, List.length_nil]
    exact ⟨by omega, fun j hj => by omega⟩
  | succ fuel ih =>
    unfold encodedBlocks
    split
    · rename_i hlt
      dsimp only
      generalize hk : min s.blockSize.toNat (s.frameLen.toNat - idx) = k
      have hw64 := blockWidth_le_64 s idx k
      simp only [decodedElements, formFor_width hw64]
      obtain ⟨h1, h2⟩ := ih (idx + k) (blockWidth s idx k) (by omega)
      refine ⟨by rw [List.length_append, List.length_map, encodedFields_length, h1]; omega, fun j hj => ?_⟩
      by_cases hjk : j < k
      · refine ⟨idx, j, k, hjk, rfl, ?_⟩
        rw [List.getD_append _ _ _ _ (by rw [List.length_map, encodedFields_length]; exact hjk)]
        simp only [encodedFields, List.map_map, List.getD_eq_getElem?_getD, List.getElem?_map,
          List.getElem?_range hjk, Option.map_some, Option.getD_some, Function.comp]
      · obtain ⟨i0, i, k', hi, he, hg⟩ := h2 (j - k) (by omega)
        refine ⟨i0, i, k', hi, by omega, ?_⟩
        rw [List.getD_append_right _ _ _ _ (by rw [List.length_map, encodedFields_length]; omega),
          List.length_map, encodedFields_length]
        exact hg
    · simp only [decodedElements, List.length_nil]
      exact ⟨by omega, fun j hj => by omega⟩

end Sys2Proof.Machine
end

