-- ==== Sys2Proof/Laws/Effects.lean ====
section
/-! SUPPORT. What a command's pseudocode can do to the state, by induction over its primitive steps: a property
that the primitive steps keep holds where the command ends, or held where it raised its fault
(60_exceptions.md R224, R229). -/

namespace Sys2Proof.Machine

variable {α β : Type}

/-- The run completes in a state with `E`, or raises one of the faults `ks` in a state with `E`. -/
def Run.Within (E : State → Prop) (ks : List FaultKind) (r : Run α) : Prop :=
  match r with
  | .done _ t => E t
  | .raised t => ∃ k ∈ ks, ∃ u, E u ∧ t = raiseFault k u

theorem Run.Within.bind {E : State → Prop} {ks : List FaultKind} {r : Run α} {f : α → State → Run β}
    (hr : r.Within E ks) (hf : ∀ a u, r = .done a u → E u → (f a u).Within E ks) :
    (r.bind f).Within E ks := by
  cases r with
  | done a u => exact hf a u rfl hr
  | raised t => exact hr

theorem Run.Within.mono {E : State → Prop} {ks ks' : List FaultKind} {r : Run α} (hr : r.Within E ks)
    (h : ks ⊆ ks') : r.Within E ks' := by
  cases r with
  | done a u => exact hr
  | raised t =>
    obtain ⟨k, hk, u, hu, e⟩ := hr
    exact ⟨k, h hk, u, hu, e⟩

theorem raiseRun_within {E : State → Prop} {ks : List FaultKind} {k : FaultKind} {s : State} (hk : k ∈ ks)
    (hs : E s) : (raiseRun k s : Run α).Within E ks :=
  ⟨k, hk, s, hs, rfl⟩

/-! ### Which primitive steps keep a property -/

/-- Passing bits inside the buffer keeps it (R32, R68). -/
def ReadClosed (E : State → Prop) : Prop :=
  ∀ (u : State) (n : Nat), E u → u.pos.toNat + n ≤ 8 * u.bufLen.toNat → E (advance n u)

/-- Writing a field inside the buffer keeps it (R61, R68). -/
def WriteClosed (E : State → Prop) : Prop :=
  ∀ (u : State) (n v : Nat), E u → v < 2 ^ n → u.pos.toNat + n ≤ 8 * u.bufLen.toNat →
    E (advance n (memWrite u.pos.toNat n v u))

/-- Setting the width registers to a width keeps it (R165). -/
def WidthClosed (E : State → Prop) : Prop :=
  ∀ (u : State) (p : Width), E u → (u.prevW.toNat ≤ 64 → p.toNat ≤ 64) → E { u with prevW := p, curW := p }

/-- Storing a sink cell from `lo` on and below `hi` keeps it (R30). -/
def SinkClosed (lo hi : Nat) (E : State → Prop) : Prop :=
  ∀ (u : State) (i : Nat) (v : Word), E u → lo ≤ i → i < hi → E (u.putVout i v)

/-- Counting consumed values keeps it (R31). -/
def ConsumeClosed (E : State → Prop) : Prop := ∀ (u : State) (k : Nat), E u → E (consume k u)

/-- Raising `MAX_W` to a width keeps it (R185). -/
def MaxClosed (E : State → Prop) : Prop := ∀ (u : State) (w : Nat), E u → w ≤ 64 → E (raiseMaxW w u)

/-! ### The pieces of pseudocode -/

theorem readField_within {E : State → Prop} (hE : ReadClosed E) {s : State} (hs : E s) (n : Nat) :
    (readField n s).Within E [.readOverrun] := by
  rcases readField_cases n s with ⟨h, e⟩ | ⟨_, e⟩
  · rw [e]
    exact hE s n hs h
  · rw [e]
    exact ⟨_, List.mem_singleton_self _, s, hs, rfl⟩

theorem writeField_within {E : State → Prop} (hE : WriteClosed E) {s : State} (hs : E s) {v n : Nat}
    (hv : v < 2 ^ n) : (writeField v n s).Within E [.writeOverrun] := by
  by_cases h : s.pos.toNat + n ≤ 8 * s.bufLen.toNat
  · rw [writeField_of_fits h]
    exact hE s n v hs hv h
  · rw [writeField_of_not_fits h]
    exact ⟨_, List.mem_singleton_self _, s, hs, rfl⟩

theorem skipPayload_within {E : State → Prop} (hE : ReadClosed E) {s : State} (hs : E s) (n : Nat) :
    (skipPayload n s).Within E [.readOverrun] := by
  unfold skipPayload
  split
  · rename_i h
    exact hE s n hs ((inBounds_iff s n).mp h)
  · exact raiseRun_within (List.mem_singleton_self _) hs

theorem fetchHeader_within {E : State → Prop} (hE : ReadClosed E) {s : State} (hs : E s) :
    (fetchHeader s).Within E [.readOverrun] := by
  unfold fetchHeader
  refine (readField_within hE hs 1).bind fun a u1 _ h1 => ?_
  split
  · exact h1
  refine (readField_within hE h1 3).bind fun b u2 _ h2 => ?_
  split
  · exact h2
  refine (readField_within hE h2 2).bind fun c u3 _ h3 => ?_
  split
  · exact h3
  exact (readField_within hE h3 6).bind fun d u4 _ h4 => h4

theorem decHeader_within {E : State → Prop} (hE : ReadClosed E) (hW : WidthClosed E) {s : State} (hs : E s) :
    (decHeader s).Within E [.readOverrun, .widthOutOfRange] := by
  unfold decHeader
  refine ((fetchHeader_within hE hs).mono (by simp)).bind fun f u hf hu => ?_
  have hwf : f.wellFormed = true := by
    rcases fetchHeader_cases s with ⟨g, hg, e⟩ | ⟨m, _, e⟩
    · rw [e] at hf
      cases hf
      exact hg
    · rw [e] at hf
      cases hf
  rcases wellFormed_cases hwf with hl | ⟨c, rfl⟩
  · rw [applyHeader_legal hl]
    refine hW u _ hu fun hp => ?_
    have := legal_width_le hl hp
    rw [ofNat7_toNat (by omega)]
    exact this
  · rw [applyHeader_illegal]
    exact ⟨.widthOutOfRange, by simp, u, hu, rfl⟩

theorem decHeader_consumed {s u : State} {w : Nat} (h : decHeader s = .done w u) :
    u.consumed = s.consumed := by
  rcases decHeader_cases s with ⟨f, _, e⟩ | e | ⟨m, _, e⟩
  · rw [e] at h
    cases h
    rfl
  · rw [e] at h
    cases h
  · rw [e] at h
    cases h

theorem decBlock_within {E : State → Prop} {lo hi : Nat} (hE : ReadClosed E) (hV : SinkClosed lo hi E)
    {idx k w : Nat} {s : State} (hs : E s) (hlo : lo ≤ idx) (hhi : idx + k ≤ hi) :
    (decBlock idx k w s).Within E [.readOverrun] := by
  induction k generalizing idx s with
  | zero => exact hs
  | succ k ih =>
    unfold decBlock
    have helem : (decElement w idx s).Within E [.readOverrun] := by
      unfold decElement
      split
      · exact hV s idx _ hs hlo (by omega)
      · exact (readField_within hE hs w).bind fun f u _ hu => hV u idx _ hu hlo (by omega)
    exact helem.bind fun _ u _ hu => ih hu (by omega) (by omega)

theorem encHeader_within {E : State → Prop} (hE : WriteClosed E) (hW : WidthClosed E) {w : Nat} (hw : w ≤ 64)
    {s : State} (hs : E s) : (encHeader w s).Within E [.writeOverrun] := by
  unfold encHeader
  refine (writeField_within hE hs (HeaderForm.value_lt _)).bind fun _ u _ hu => ?_
  have hset : setEncodedWidth w u = { u with prevW := BitVec.ofNat 7 w, curW := BitVec.ofNat 7 w } := by
    unfold setEncodedWidth
    congr 1
    split
    · rfl
    · rename_i hne
      have he : w = u.prevW.toNat := by simpa using hne
      rw [he]
      simp
  show E (setEncodedWidth w u)
  rw [hset]
  refine hW u _ hu fun _ => ?_
  rw [ofNat7_toNat (by omega)]
  exact hw

theorem encFields_within {E : State → Prop} (hE : WriteClosed E) {w idx k : Nat} {s : State} (hs : E s) :
    (encFields w idx k s).Within E [.writeOverrun] := by
  induction k generalizing idx s with
  | zero => exact hs
  | succ k ih =>
    unfold encFields
    exact (writeField_within hE hs (pat_lt w _)).bind fun _ u _ hu => ih hu

theorem encBlock_within {E : State → Prop} (hE : WriteClosed E) {idx k w : Nat} {s : State} (hs : E s) :
    (encBlock idx k w s).Within E [.writeOverrun] := by
  unfold encBlock
  split
  · exact hs
  · exact encFields_within hE hs

/-! ### The frame commands -/

theorem frameBlocks_within {E : State → Prop} {ks : List FaultKind} {block : Nat → State → Run Unit}
    (hblock : ∀ u, E u → u.consumed.toNat < u.frameLen.toNat → (block (blockCount u) u).Within E ks)
    (hconsume : ConsumeClosed E) (fuel : Nat) {s : State} (hs : E s) :
    (frameBlocks block fuel s).Within E ks := by
  induction fuel generalizing s with
  | zero => exact hs
  | succ fuel ih =>
    unfold frameBlocks
    split
    · rename_i hlt
      exact (hblock s hs hlt).bind fun _ u _ hu => ih (hconsume u _ hu)
    · exact hs

/-- How a frame command ends: with `frame_end()` in a state the blocks left, or with a fault a block raised
(R181). -/
theorem runFrame_cases {E : State → Prop} {ks : List FaultKind} {block : Nat → State → Run Unit} {s : State}
    (h : (frameBlocks block s.frameLen.toNat (frameStart s)).Within E ks) :
    (∃ u, E u ∧ runFrame block s = .done () (frameEnd u)) ∨
      (∃ k ∈ ks, ∃ u, E u ∧ runFrame block s = .raised (raiseFault k u)) := by
  unfold runFrame
  cases hr : frameBlocks block s.frameLen.toNat (frameStart s) with
  | done a u =>
    rw [hr] at h
    exact .inl ⟨u, h, rfl⟩
  | raised t =>
    rw [hr] at h
    obtain ⟨k, hk, u, hu, e⟩ := h
    exact .inr ⟨k, hk, u, hu, by rw [e]; rfl⟩

theorem encFrameBlocks_within {E : State → Prop} (hE : WriteClosed E) (hW : WidthClosed E)
    (hM : MaxClosed E) (hC : ConsumeClosed E) (fuel : Nat) {s : State} (hs : E s) :
    (frameBlocks encFrameBlock fuel s).Within E [.writeOverrun] := by
  refine frameBlocks_within (fun u hu _ => ?_) hC fuel hs
  unfold encFrameBlock
  have hw := blockWidth_le_64 u u.consumed.toNat (blockCount u)
  refine (encHeader_within hE hW hw hu).bind fun _ u1 _ h1 => ?_
  exact (encBlock_within hE h1).bind fun _ u2 _ h2 => hM u2 _ h2 hw

theorem decFrameBlocks_within {E : State → Prop} {hi : Nat} (hE : ReadClosed E) (hW : WidthClosed E)
    (hV : SinkClosed 0 hi E) (hC : ConsumeClosed E) (hF : ∀ u, E u → u.frameLen.toNat ≤ hi) (fuel : Nat)
    {s : State} (hs : E s) :
    (frameBlocks decFrameBlock fuel s).Within E [.readOverrun, .widthOutOfRange] := by
  refine frameBlocks_within (fun u hu hlt => ?_) hC fuel hs
  unfold decFrameBlock
  refine (decHeader_within hE hW hu).bind fun w u1 h1 hu1 => ?_
  refine (decBlock_within hE hV hu1 (Nat.zero_le _) ?_).mono (by simp)
  have := hF u hu
  rw [decHeader_consumed h1]
  unfold blockCount
  omega

theorem scanFrameBlocks_within {E : State → Prop} (hE : ReadClosed E) (hW : WidthClosed E)
    (hC : ConsumeClosed E) (fuel : Nat) {s : State} (hs : E s) :
    (frameBlocks scanFrameBlock fuel s).Within E [.readOverrun, .widthOutOfRange] := by
  refine frameBlocks_within (fun u hu _ => ?_) hC fuel hs
  unfold scanFrameBlock
  exact (decHeader_within hE hW hu).bind fun w u1 _ hu1 => (skipPayload_within hE hu1 _).mono (by simp)

/-! ### The properties the primitive steps keep -/

/-- What no pseudocode writes: the flags, the configuration and operand registers, `BUF_LEN`, `VIN`, and the
model's own fields (R27, R30, R34). -/
def SameInputs (s t : State) : Prop :=
  t.status = s.status ∧ t.err = s.err ∧ t.cfg = s.cfg ∧ t.blockSize = s.blockSize ∧
    t.frameLen = s.frameLen ∧ t.bufLen = s.bufLen ∧ t.aVal = s.aVal ∧ t.aN = s.aN ∧ t.aK = s.aK ∧
    t.aIdx = s.aIdx ∧ t.aOff = s.aOff ∧ t.vin = s.vin ∧ t.host = s.host ∧ t.hostData = s.hostData ∧
    t.freeCount = s.freeCount

theorem SameInputs.refl (s : State) : SameInputs s s :=
  ⟨rfl, rfl, rfl, rfl, rfl, rfl, rfl, rfl, rfl, rfl, rfl, rfl, rfl, rfl, rfl⟩

/-- The buffer changed only by bits set below `BUF_LEN`, and kept its form (R61, R66). -/
def BufGrows (s t : State) : Prop :=
  (∀ q, s.bufBit q = true → t.bufBit q = true) ∧
    (∀ j, s.bufLen.toNat ≤ j → Memory.read? t.buf j = Memory.read? s.buf j) ∧
    (Memory.wf s.buf = true → Memory.wf t.buf = true) ∧
    (∀ cap, s.bufLen.toNat ≤ cap → Memory.below cap s.buf = true → Memory.below cap t.buf = true)

theorem BufGrows.of_eq {s t : State} (h : t.buf = s.buf) : BufGrows s t := by
  refine ⟨fun q hq => ?_, fun j _ => by rw [h], fun hw => by rw [h]; exact hw, fun _ _ hb => by rw [h]; exact hb⟩
  rw [State.bufBit_congr h]
  exact hq

/-- A field written inside the buffer sets bits below `BUF_LEN` (R61). -/
theorem BufGrows.memWrite {s u : State} (h : BufGrows s u) (hl : u.bufLen = s.bufLen) {p n v : Nat}
    (hv : v < 2 ^ n) (hf : p + n ≤ 8 * u.bufLen.toNat) : BufGrows s (memWrite p n v u) := by
  obtain ⟨h1, h2, h3, h4⟩ := h
  rw [hl] at hf
  refine ⟨fun q hq => ?_, fun j hj => ?_, fun hw => memWrite_wf (h3 hw), fun cap hcap hb => ?_⟩
  · rw [memWrite_bufBit hv, h1 q hq]
    rfl
  · rw [memWrite_read?_outside p n v u (by omega), h2 j hj]
  · exact memWrite_below (h4 cap hcap hb) (by omega)

/-- The sink changed only in the cells from `lo` on and below `hi`, and kept its form (R30). -/
def SinkWithin (lo hi : Nat) (s t : State) : Prop :=
  (∀ a, a < lo ∨ hi ≤ a → Memory.read? t.vout a = Memory.read? s.vout a) ∧
    (Memory.wf s.vout = true → Memory.wf t.vout = true) ∧
    (∀ cap, hi ≤ cap → Memory.below cap s.vout = true → Memory.below cap t.vout = true)

theorem SinkWithin.of_eq {lo hi : Nat} {s t : State} (h : t.vout = s.vout) : SinkWithin lo hi s t :=
  ⟨fun _ _ => by rw [h], fun hw => by rw [h]; exact hw, fun _ _ hb => by rw [h]; exact hb⟩

theorem SinkWithin.putVout {lo hi : Nat} {s u : State} (h : SinkWithin lo hi s u) {i : Nat} (hlo : lo ≤ i)
    (hhi : i < hi) (v : Word) : SinkWithin lo hi s (u.putVout i v) := by
  obtain ⟨h1, h2, h3⟩ := h
  refine ⟨fun a ha => ?_, fun hw => Memory.wf_write (h2 hw) _ _, fun cap hcap hb => ?_⟩
  · rw [State.putVout_vout, Memory.read?_write_other _ _ (by omega), h1 a ha]
  · exact Memory.below_write (h3 cap hcap hb) (by omega) _

/-- The width registers hold widths (R28, R29). -/
def WidthsHold (t : State) : Prop := t.maxW.toNat ≤ 64 ∧ t.prevW.toNat ≤ 64 ∧ t.curW.toNat ≤ 64

/-- What the pseudocode of a command does to the state `s`, at any point of it: the inputs stay; the buffer
grows; the sink changes only from `lo` on and below `hi`; the cursor does not leave the buffer; and the
width registers hold widths if they did. `pos0` and `max0` are bounds from below. -/
structure Reach (s : State) (lo hi pos0 max0 : Nat) (t : State) : Prop where
  inputs : SameInputs s t
  bufGrows : BufGrows s t
  sink : SinkWithin lo hi s t
  inBuf : 8 * s.bufLen.toNat < 2 ^ 64 → ∀ cap, 8 * s.bufLen.toNat ≤ cap → pos0 ≤ cap → t.pos.toNat ≤ cap
  forward : 8 * s.bufLen.toNat < 2 ^ 64 → pos0 ≤ t.pos.toNat
  widths : s.maxW.toNat ≤ 64 → t.maxW.toNat ≤ 64
  encoded : s.prevW.toNat ≤ 64 → t.prevW.toNat ≤ 64
  current : s.prevW.toNat ≤ 64 → s.curW.toNat ≤ 64 → t.curW.toNat ≤ 64
  maxW : max0 ≤ t.maxW.toNat
  result : t.rVal = s.rVal
  nextOff : t.nextOff = s.nextOff

theorem Reach.start (s : State) (lo hi : Nat) : Reach s lo hi s.pos.toNat s.maxW.toNat s where
  inputs := SameInputs.refl s
  bufGrows := .of_eq rfl
  sink := .of_eq rfl
  inBuf := fun _ _ _ h => h
  forward := fun _ => Nat.le_refl _
  widths := fun h => h
  encoded := fun h => h
  current := fun _ h => h
  maxW := Nat.le_refl _
  result := rfl
  nextOff := rfl

/-- Where a frame command starts (R181). -/
theorem Reach.frameStart {s : State} (h : s.aOff.toNat ≤ s.bufLen.toNat) (lo hi : Nat) :
    Reach s lo hi (8 * s.aOff.toNat) s.maxW.toNat (frameStart s) where
  inputs := SameInputs.refl s
  bufGrows := .of_eq rfl
  sink := .of_eq rfl
  inBuf := fun hw cap _ h0 => by
    rw [frameStart_pos_toNat hw h]
    exact h0
  forward := fun hw => by
    rw [frameStart_pos_toNat hw h]
  widths := fun h => h
  encoded := fun _ => Nat.zero_le _
  current := fun _ h => h
  maxW := Nat.le_refl _
  result := rfl
  nextOff := rfl

theorem Reach.bufLen {s t : State} {lo hi p m : Nat} (h : Reach s lo hi p m t) : t.bufLen = s.bufLen :=
  h.inputs.2.2.2.2.2.1

theorem Reach.readClosed (s : State) (lo hi p m : Nat) : ReadClosed (Reach s lo hi p m) := by
  intro u n h hf
  have hl := h.bufLen
  have hp : 8 * s.bufLen.toNat < 2 ^ 64 → (advance n u).pos.toNat = u.pos.toNat + n := fun hw =>
    advance_pos_toNat (by rw [hl] at hf; omega)
  exact
    { inputs := h.inputs
      bufGrows := h.bufGrows
      sink := h.sink
      inBuf := fun hw cap hc _ => by
        rw [hp hw]
        rw [hl] at hf
        omega
      forward := fun hw => by
        have := h.forward hw
        rw [hp hw]
        omega
      widths := h.widths
      encoded := h.encoded
      current := h.current
      maxW := h.maxW
      result := h.result
      nextOff := h.nextOff }

theorem Reach.writeClosed (s : State) (lo hi p m : Nat) : WriteClosed (Reach s lo hi p m) := by
  intro u n v h hv hf
  rw [memWrite_eq]
  have hr := Reach.readClosed s lo hi p m u n h hf
  have hb := h.bufGrows.memWrite h.bufLen hv hf
  exact
    { inputs := hr.inputs
      bufGrows := hb
      sink := hr.sink
      inBuf := hr.inBuf
      forward := hr.forward
      widths := hr.widths
      encoded := hr.encoded
      current := hr.current
      maxW := hr.maxW
      result := hr.result
      nextOff := hr.nextOff }

theorem Reach.widthClosed (s : State) (lo hi p m : Nat) : WidthClosed (Reach s lo hi p m) := by
  intro u w h hw
  exact
    { inputs := h.inputs
      bufGrows := h.bufGrows
      sink := h.sink
      inBuf := h.inBuf
      forward := h.forward
      widths := h.widths
      encoded := fun hp => hw (h.encoded hp)
      current := fun hp _ => hw (h.encoded hp)
      maxW := h.maxW
      result := h.result
      nextOff := h.nextOff }

theorem Reach.sinkClosed (s : State) (lo hi p m : Nat) : SinkClosed lo hi (Reach s lo hi p m) := by
  intro u i v h hlo hhi
  exact
    { inputs := h.inputs
      bufGrows := h.bufGrows
      sink := h.sink.putVout hlo hhi v
      inBuf := h.inBuf
      forward := h.forward
      widths := h.widths
      encoded := h.encoded
      current := h.current
      maxW := h.maxW
      result := h.result
      nextOff := h.nextOff }

theorem Reach.consumeClosed (s : State) (lo hi p m : Nat) : ConsumeClosed (Reach s lo hi p m) := by
  intro u k h
  exact
    { inputs := h.inputs
      bufGrows := h.bufGrows
      sink := h.sink
      inBuf := h.inBuf
      forward := h.forward
      widths := h.widths
      encoded := h.encoded
      current := h.current
      maxW := h.maxW
      result := h.result
      nextOff := h.nextOff }

theorem Reach.maxClosed (s : State) (lo hi p m : Nat) : MaxClosed (Reach s lo hi p m) := by
  intro u w h hw
  have he : (raiseMaxW w u).maxW.toNat = max u.maxW.toNat w := ofNat7_toNat (by
    have := u.maxW.isLt
    omega)
  exact
    { inputs := h.inputs
      bufGrows := h.bufGrows
      sink := h.sink
      inBuf := h.inBuf
      forward := h.forward
      widths := fun h0 => by
        rw [he]
        have := h.widths h0
        omega
      encoded := h.encoded
      current := h.current
      maxW := by
        rw [he]
        have := h.maxW
        omega
      result := h.result
      nextOff := h.nextOff }

/-! ### Putting properties together -/

theorem ReadClosed.and {E F : State → Prop} (hE : ReadClosed E) (hF : ReadClosed F) :
    ReadClosed fun u => E u ∧ F u :=
  fun u n h hf => ⟨hE u n h.1 hf, hF u n h.2 hf⟩

theorem WriteClosed.and {E F : State → Prop} (hE : WriteClosed E) (hF : WriteClosed F) :
    WriteClosed fun u => E u ∧ F u :=
  fun u n v h hv hf => ⟨hE u n v h.1 hv hf, hF u n v h.2 hv hf⟩

theorem WidthClosed.and {E F : State → Prop} (hE : WidthClosed E) (hF : WidthClosed F) :
    WidthClosed fun u => E u ∧ F u :=
  fun u p h hp => ⟨hE u p h.1 hp, hF u p h.2 hp⟩

theorem SinkClosed.and {lo hi : Nat} {E F : State → Prop} (hE : SinkClosed lo hi E)
    (hF : SinkClosed lo hi F) : SinkClosed lo hi fun u => E u ∧ F u :=
  fun u i v h hl hh => ⟨hE u i v h.1 hl hh, hF u i v h.2 hl hh⟩

theorem ConsumeClosed.and {E F : State → Prop} (hE : ConsumeClosed E) (hF : ConsumeClosed F) :
    ConsumeClosed fun u => E u ∧ F u :=
  fun u k h => ⟨hE u k h.1, hF u k h.2⟩

theorem MaxClosed.and {E F : State → Prop} (hE : MaxClosed E) (hF : MaxClosed F) :
    MaxClosed fun u => E u ∧ F u :=
  fun u w h hw => ⟨hE u w h.1 hw, hF u w h.2 hw⟩

/-! ### What each command's pseudocode reaches -/

/-- A read: nothing but the cursor. -/
abbrev OnlyCursor (s t : State) : Prop := t = { s with pos := t.pos }

/-- Header decoding: the cursor and the width registers. -/
abbrev OnlyHeader (s t : State) : Prop := t = { s with pos := t.pos, prevW := t.prevW, curW := t.curW }

/-- Encoding fields: the cursor and the buffer. -/
abbrev OnlyBuf (s t : State) : Prop := t = { s with pos := t.pos, buf := t.buf }

/-- Encoding a header: the cursor, the buffer and the width registers. -/
abbrev OnlyEncode (s t : State) : Prop :=
  t = { s with pos := t.pos, buf := t.buf, prevW := t.prevW, curW := t.curW }

/-- Decoding a block: the cursor and the sink. -/
abbrev OnlySink (s t : State) : Prop := t = { s with pos := t.pos, vout := t.vout }

/-- Encoding a frame: the cursor, the buffer, the width registers, `CONSUMED` and `MAX_W`. -/
abbrev OnlyEncodeFrame (s t : State) : Prop :=
  t = { s with
    pos := t.pos, buf := t.buf, prevW := t.prevW, curW := t.curW, consumed := t.consumed, maxW := t.maxW }

/-- Decoding a frame: the cursor, the sink, the width registers and `CONSUMED`. -/
abbrev OnlyDecodeFrame (s t : State) : Prop :=
  t = { s with
    pos := t.pos, vout := t.vout, prevW := t.prevW, curW := t.curW, consumed := t.consumed }

/-- Scanning a frame: the cursor, the width registers and `CONSUMED`. -/
abbrev OnlyScanFrame (s t : State) : Prop :=
  t = { s with pos := t.pos, prevW := t.prevW, curW := t.curW, consumed := t.consumed }

theorem OnlyCursor.refl (s : State) : OnlyCursor s s := rfl

theorem OnlyCursor.readClosed (s : State) : ReadClosed (OnlyCursor s) := by
  intro u n h _
  unfold OnlyCursor at *
  rw [h]
  rfl

theorem OnlyHeader.refl (s : State) : OnlyHeader s s := rfl

theorem OnlyHeader.readClosed (s : State) : ReadClosed (OnlyHeader s) := by
  intro u n h _
  unfold OnlyHeader at *
  rw [h]
  rfl

theorem OnlyHeader.widthClosed (s : State) : WidthClosed (OnlyHeader s) := by
  intro u p h _
  unfold OnlyHeader at *
  rw [h]

theorem OnlyBuf.refl (s : State) : OnlyBuf s s := rfl

theorem OnlyBuf.readClosed (s : State) : ReadClosed (OnlyBuf s) := by
  intro u n h _
  unfold OnlyBuf at *
  rw [h]
  rfl

theorem OnlyBuf.writeClosed (s : State) : WriteClosed (OnlyBuf s) := by
  intro u n v h _ _
  rw [memWrite_eq]
  unfold OnlyBuf at *
  rw [h]
  rfl

theorem OnlyEncode.refl (s : State) : OnlyEncode s s := rfl

theorem OnlyEncode.readClosed (s : State) : ReadClosed (OnlyEncode s) := by
  intro u n h _
  unfold OnlyEncode at *
  rw [h]
  rfl

theorem OnlyEncode.writeClosed (s : State) : WriteClosed (OnlyEncode s) := by
  intro u n v h _ _
  rw [memWrite_eq]
  unfold OnlyEncode at *
  rw [h]
  rfl

theorem OnlyEncode.widthClosed (s : State) : WidthClosed (OnlyEncode s) := by
  intro u p h _
  unfold OnlyEncode at *
  rw [h]

theorem OnlySink.refl (s : State) : OnlySink s s := rfl

theorem OnlySink.readClosed (s : State) : ReadClosed (OnlySink s) := by
  intro u n h _
  unfold OnlySink at *
  rw [h]
  rfl

theorem OnlySink.sinkClosed (s : State) (lo hi : Nat) : SinkClosed lo hi (OnlySink s) := by
  intro u i v h _ _
  unfold OnlySink at *
  rw [h]
  rfl

theorem OnlyEncodeFrame.refl (s : State) : OnlyEncodeFrame s s := rfl

theorem OnlyEncodeFrame.readClosed (s : State) : ReadClosed (OnlyEncodeFrame s) := by
  intro u n h _
  unfold OnlyEncodeFrame at *
  rw [h]
  rfl

theorem OnlyEncodeFrame.writeClosed (s : State) : WriteClosed (OnlyEncodeFrame s) := by
  intro u n v h _ _
  rw [memWrite_eq]
  unfold OnlyEncodeFrame at *
  rw [h]
  rfl

theorem OnlyEncodeFrame.widthClosed (s : State) : WidthClosed (OnlyEncodeFrame s) := by
  intro u p h _
  unfold OnlyEncodeFrame at *
  rw [h]

theorem OnlyEncodeFrame.consumeClosed (s : State) : ConsumeClosed (OnlyEncodeFrame s) := by
  intro u k h
  unfold OnlyEncodeFrame at *
  rw [h]
  rfl

theorem OnlyEncodeFrame.maxClosed (s : State) : MaxClosed (OnlyEncodeFrame s) := by
  intro u w h _
  unfold OnlyEncodeFrame at *
  rw [h]
  rfl

theorem OnlyDecodeFrame.refl (s : State) : OnlyDecodeFrame s s := rfl

theorem OnlyDecodeFrame.readClosed (s : State) : ReadClosed (OnlyDecodeFrame s) := by
  intro u n h _
  unfold OnlyDecodeFrame at *
  rw [h]
  rfl

theorem OnlyDecodeFrame.widthClosed (s : State) : WidthClosed (OnlyDecodeFrame s) := by
  intro u p h _
  unfold OnlyDecodeFrame at *
  rw [h]

theorem OnlyDecodeFrame.sinkClosed (s : State) (lo hi : Nat) : SinkClosed lo hi (OnlyDecodeFrame s) := by
  intro u i v h _ _
  unfold OnlyDecodeFrame at *
  rw [h]
  rfl

theorem OnlyDecodeFrame.consumeClosed (s : State) : ConsumeClosed (OnlyDecodeFrame s) := by
  intro u k h
  unfold OnlyDecodeFrame at *
  rw [h]
  rfl

theorem OnlyScanFrame.refl (s : State) : OnlyScanFrame s s := rfl

theorem OnlyScanFrame.readClosed (s : State) : ReadClosed (OnlyScanFrame s) := by
  intro u n h _
  unfold OnlyScanFrame at *
  rw [h]
  rfl

theorem OnlyScanFrame.widthClosed (s : State) : WidthClosed (OnlyScanFrame s) := by
  intro u p h _
  unfold OnlyScanFrame at *
  rw [h]

theorem OnlyScanFrame.consumeClosed (s : State) : ConsumeClosed (OnlyScanFrame s) := by
  intro u k h
  unfold OnlyScanFrame at *
  rw [h]
  rfl

/-- A header that is decoded lies inside the buffer (R68, R97). -/
theorem decHeader_in_buffer {s u : State} {w : Nat} (hcap : 8 * s.bufLen.toNat < 2 ^ 64)
    (h : decHeader s = .done w u) : u.pos.toNat ≤ 8 * u.bufLen.toNat ∧ u.bufLen = s.bufLen := by
  have rd : ∀ {n : Nat} {v : Nat} {t t' : State}, t.bufLen = s.bufLen → readField n t = .done v t' →
      t'.pos.toNat ≤ 8 * t'.bufLen.toNat ∧ t'.bufLen = s.bufLen := by
    intro n v t t' hl e
    rcases readField_cases n t with ⟨h1, e1⟩ | ⟨_, e1⟩
    · rw [e1] at e
      cases e
      refine ⟨?_, hl⟩
      rw [advance_pos_toNat (by rw [hl] at h1; omega)]
      exact h1
    · rw [e1] at e
      cases e
  unfold decHeader at h
  obtain ⟨f, u1, h1, h⟩ := Run.bind_eq_done.mp h
  have hf : u1.pos.toNat ≤ 8 * u1.bufLen.toNat ∧ u1.bufLen = s.bufLen := by
    unfold fetchHeader at h1
    obtain ⟨_, t1, g1, h1⟩ := Run.bind_eq_done.mp h1
    have b1 := rd rfl g1
    split at h1
    · cases h1
      exact b1
    obtain ⟨_, t2, g2, h1⟩ := Run.bind_eq_done.mp h1
    have b2 := rd b1.2 g2
    split at h1
    · cases h1
      exact b2
    obtain ⟨_, t3, g3, h1⟩ := Run.bind_eq_done.mp h1
    have b3 := rd b2.2 g3
    split at h1
    · cases h1
      exact b3
    obtain ⟨_, t4, g4, h1⟩ := Run.bind_eq_done.mp h1
    have b4 := rd b3.2 g4
    cases h1
    exact b4
  cases f <;> cases h <;> exact hf

end Sys2Proof.Machine
end

