-- ==== Sys2Proof/Laws/HostReset.lean ====
section
/-! SUPPORT. The memory operations of a hardware reset that cuts a command short (70_reset_and_hazards.md R260)
and of placing an instruction, and that they keep the canonical form. -/

namespace Sys2Proof.Machine

/-- `freeBuf` changes the bytes of its range and the counter of free values. -/
theorem freeBuf_spec (count j : Nat) (s : State) :
    freeBuf j count s =
        { s with buf := (freeBuf j count s).buf, freeCount := (freeBuf j count s).freeCount } ∧
      (∀ k, k < j ∨ j + count ≤ k → Memory.read? (freeBuf j count s).buf k = Memory.read? s.buf k) ∧
      (Memory.wf s.buf = true → Memory.wf (freeBuf j count s).buf = true) ∧
      (∀ cap, count = 0 ∨ j + count ≤ cap → Memory.below cap s.buf = true →
        Memory.below cap (freeBuf j count s).buf = true) := by
  induction count generalizing j s with
  | zero => exact ⟨rfl, fun _ _ => rfl, fun h => h, fun _ _ h => h⟩
  | succ n ih =>
    obtain ⟨h1, h2, h3, h4⟩ :=
      ih (j + 1) { s.putBuf j (Config.freeByte s.freeCount) with freeCount := s.freeCount + 1 }
    unfold freeBuf
    refine ⟨by rw [h1]; rfl, fun k hk => ?_, fun h => ?_, fun cap hc h => ?_⟩
    · rw [h2 k (by omega)]
      exact Memory.read?_write_other _ _ (by omega)
    · exact h3 (Memory.wf_write h _ _)
    · exact h4 cap (by omega) (Memory.below_write h (by omega) _)

/-- `freeVout` changes the cells of its range and the counter of free values. -/
theorem freeVout_spec (count i : Nat) (s : State) :
    freeVout i count s =
        { s with vout := (freeVout i count s).vout, freeCount := (freeVout i count s).freeCount } ∧
      (∀ k, k < i ∨ i + count ≤ k → Memory.read? (freeVout i count s).vout k = Memory.read? s.vout k) ∧
      (Memory.wf s.vout = true → Memory.wf (freeVout i count s).vout = true) ∧
      (∀ cap, count = 0 ∨ i + count ≤ cap → Memory.below cap s.vout = true →
        Memory.below cap (freeVout i count s).vout = true) := by
  induction count generalizing i s with
  | zero => exact ⟨rfl, fun _ _ => rfl, fun h => h, fun _ _ h => h⟩
  | succ n ih =>
    obtain ⟨h1, h2, h3, h4⟩ :=
      ih (i + 1) { s.putVout i (Config.freeCell s.freeCount) with freeCount := s.freeCount + 1 }
    unfold freeVout
    refine ⟨by rw [h1]; rfl, fun k hk => ?_, fun h => ?_, fun cap hc h => ?_⟩
    · rw [h2 k (by omega)]
      exact Memory.read?_write_other _ _ (by omega)
    · exact h3 (Memory.wf_write h _ _)
    · exact h4 cap (by omega) (Memory.below_write h (by omega) _)

/-- `storeBits` keeps the canonical form. -/
theorem storeBits_wf {count j : Nat} {bits : List Bool} {s : State} (h : Memory.wf s.buf = true) :
    Memory.wf (storeBits count j bits s).buf = true := by
  induction count generalizing j bits s with
  | zero => exact h
  | succ n ih => exact ih (Memory.wf_write h _ _)

/-- Placing an instruction keeps the canonical form. -/
theorem withFetchWord_wf {s : State} (h : Memory.wf s.buf = true) (nbits w : Nat) :
    Memory.wf (s.withFetchWord nbits w).buf = true := by
  unfold State.withFetchWord placeCode
  split
  · exact h
  · exact storeBits_wf h

end Sys2Proof.Machine
end

