-- ==== Sys2Proof/Laws/Independence.lean ====
section
/-! SUPPORT. What the header code and the frame loops do not look at: header decoding and scanning run the
same whatever `CFG`, `VIN`, `VOUT`, `MAX_W` and the operand registers but `A_OFF` hold (43_frame_codec.md R186), and decoding runs the same
whatever `VIN`, `MAX_W` and `SRC_CLASS` hold (R184). -/

namespace Sys2Proof.Machine

/-- `s` with the classes, value memories, maximum and operand registers (but `A_OFF`) of `u`. -/
def otherValues (u s : State) : State :=
  { s with
    cfg := u.cfg, vin := u.vin, vout := u.vout, maxW := u.maxW, aVal := u.aVal, aN := u.aN, aK := u.aK,
    aIdx := u.aIdx }

/-- `s` with another source and another maximum. -/
def otherSource (cfg : Byte) (vin : List (Nat × Word)) (maxW : Width) (s : State) : State :=
  { s with cfg := cfg, vin := vin, maxW := maxW }

/-- A run with every state it ends in replaced. -/
def Run.mapState {α : Type} (f : State → State) (r : Run α) : Run α :=
  match r with
  | .done a s => .done a (f s)
  | .raised s => .raised (f s)

@[simp] theorem Run.mapState_done {α : Type} (f : State → State) (a : α) (s : State) :
    (Run.done a s).mapState f = .done a (f s) := rfl

@[simp] theorem Run.mapState_raised {α : Type} (f : State → State) (s : State) :
    (Run.raised s : Run α).mapState f = .raised (f s) := rfl

theorem Run.mapState_state {α : Type} (f : State → State) (r : Run α) :
    (r.mapState f).state = f r.state := by
  cases r <;> rfl

/-- A sequence commutes with a change of state if its parts do. -/
theorem Run.bind_mapState {α β : Type} {f : State → State} {r r' : Run α} {g : α → State → Run β}
    (hr : r' = r.mapState f) (hg : ∀ a s, r = .done a s → g a (f s) = (g a s).mapState f) :
    r'.bind g = (r.bind g).mapState f := by
  subst hr
  cases r with
  | done a s => exact hg a s rfl
  | raised s => rfl

/-- `s` with other widths. -/
def withWidths (p c : Width) (s : State) : State := { s with prevW := p, curW := c }

section

variable {f : State → State} (hbuf : ∀ s, (f s).buf = s.buf) (hpos : ∀ s, (f s).pos = s.pos)
  (hlen : ∀ s, (f s).bufLen = s.bufLen) (hadv : ∀ n s, advance n (f s) = f (advance n s))
  (hraise : ∀ k s, raiseFault k (f s) = f (raiseFault k s)) (hprev : ∀ s, (f s).prevW = s.prevW)
  (hset : ∀ p c s, withWidths p c (f s) = f (withWidths p c s))

include hpos hlen hadv hraise

theorem skipPayload_mapState (n : Nat) (s : State) :
    skipPayload n (f s) = (skipPayload n s).mapState f := by
  unfold skipPayload inBounds raiseRun
  rw [hpos, hlen]
  split
  · rw [hadv]
    rfl
  · rw [hraise]
    rfl

include hbuf

theorem readField_mapState (n : Nat) (s : State) : readField n (f s) = (readField n s).mapState f := by
  unfold readField inBounds raiseRun
  rw [hpos, hlen, memRead_of_buf_eq (hbuf s)]
  split
  · rw [hadv]
    rfl
  · rw [hraise]
    rfl

theorem fetchHeader_mapState (s : State) : fetchHeader (f s) = (fetchHeader s).mapState f := by
  have rd := readField_mapState hbuf hpos hlen hadv hraise
  unfold fetchHeader
  refine Run.bind_mapState (rd _ _) fun flag s1 _ => ?_
  cases headerOfFlag flag with
  | some g => rfl
  | none =>
    refine Run.bind_mapState (rd _ _) fun a s2 _ => ?_
    cases headerOfA a with
    | some g => rfl
    | none =>
      refine Run.bind_mapState (rd _ _) fun b s3 _ => ?_
      cases headerOfB b with
      | some g => rfl
      | none => exact Run.bind_mapState (rd _ _) fun c s4 _ => rfl

include hprev hset

theorem decHeader_mapState (s : State) : decHeader (f s) = (decHeader s).mapState f := by
  unfold decHeader
  refine Run.bind_mapState (fetchHeader_mapState hbuf hpos hlen hadv hraise s) fun g s1 _ => ?_
  have happly : ∀ w, setDecodedWidth w (f s1) = (setDecodedWidth w s1).mapState f := by
    intro w
    exact congrArg (Run.done w) (hset _ _ s1)
  cases g with
  | reuse =>
    show Run.done (f s1).prevW.toNat (withWidths (f s1).prevW (f s1).prevW (f s1)) =
      .done s1.prevW.toNat (f (withWidths s1.prevW s1.prevW s1))
    rw [hset, hprev]
  | abs3 a => exact happly _
  | abs5 b => exact happly _
  | abs11 c => exact happly _
  | abs11Illegal c =>
    simp only [applyHeader, applyAbs11Illegal, raiseRun, Run.mapState_raised]
    rw [hraise]

theorem scanFrameBlock_mapState (k : Nat) (s : State) :
    scanFrameBlock k (f s) = (scanFrameBlock k s).mapState f := by
  unfold scanFrameBlock
  exact Run.bind_mapState (decHeader_mapState hbuf hpos hlen hadv hraise hprev hset s)
    fun w s1 _ => skipPayload_mapState hpos hlen hadv hraise _ _

end

/-- The loop of a frame command commutes with a change of state if its block does, in the states of an
invariant that blocks keep. -/
theorem frameBlocks_mapState {f : State → State} {P : State → Prop} {block : Nat → State → Run Unit}
    (hblock : ∀ k s, P s → block k (f s) = (block k s).mapState f)
    (hkeep : ∀ k s s1, P s → block k s = .done () s1 → P (consume k s1))
    (hsize : ∀ s, (f s).blockSize = s.blockSize) (hframe : ∀ s, (f s).frameLen = s.frameLen)
    (hcons : ∀ s, (f s).consumed = s.consumed) (hconsume : ∀ k s, consume k (f s) = f (consume k s))
    (fuel : Nat) (s : State) (hs : P s) :
    frameBlocks block fuel (f s) = (frameBlocks block fuel s).mapState f := by
  induction fuel generalizing s with
  | zero => rfl
  | succ fuel ih =>
    unfold frameBlocks blockCount
    rw [hcons, hframe, hsize]
    split
    · refine Run.bind_mapState (hblock _ _ hs) fun _ s1 h1 => ?_
      rw [hconsume, ih _ (hkeep _ _ _ hs h1)]
    · rfl

theorem decHeader_otherValues (u s : State) :
    decHeader (otherValues u s) = (decHeader s).mapState (otherValues u) := by
  apply decHeader_mapState <;> (intros; rfl)

/-- The loop of `SCANFRAME` looks at no value, no class, no maximum and no operand (R186). -/
theorem scanBlocks_otherValues (u : State) (fuel : Nat) (s : State) :
    frameBlocks scanFrameBlock fuel (otherValues u s) =
      (frameBlocks scanFrameBlock fuel s).mapState (otherValues u) := by
  refine frameBlocks_mapState (P := fun _ => True) ?_ (fun _ _ _ _ _ => trivial) ?_ ?_ ?_ ?_ fuel s trivial
  · intro k s _
    apply scanFrameBlock_mapState <;> (intros; rfl)
  all_goals intros; rfl

/-- The parts of `CFG` a decode looks at (R184). -/
theorem decode_cfg_congr {c d : Byte} (h : c &&& 0xF9#8 = d &&& 0xF9#8) :
    c.getLsbD 0 = d.getLsbD 0 ∧ c.getLsbD 3 = d.getLsbD 3 ∧ c.extractLsb' 4 2 = d.extractLsb' 4 2 := by
  have bit : ∀ i, (c &&& 0xF9#8).getLsbD i = (d &&& 0xF9#8).getLsbD i := fun i => by rw [h]
  refine ⟨by simpa using bit 0, by simpa using bit 3, ?_⟩
  apply BitVec.eq_of_getLsbD_eq
  intro i hi
  rw [BitVec.getLsbD_extractLsb', BitVec.getLsbD_extractLsb']
  have h4 : c.getLsbD 4 = d.getLsbD 4 := by simpa using bit 4
  have h5 : c.getLsbD 5 = d.getLsbD 5 := by simpa using bit 5
  have h45 : i = 0 ∨ i = 1 := by omega
  rcases h45 with rfl | rfl
  · simpa using h4
  · simpa using h5

theorem decValue_decode_cfg {s t : State} (h : s.cfg &&& 0xF9#8 = t.cfg &&& 0xF9#8) (v w : Nat) :
    decValue s v w = decValue t v w := by
  obtain ⟨h0, h3, h4⟩ := decode_cfg_congr h
  unfold decValue State.signedMode State.tgtSigned State.tgtWidth
  rw [h0, h3, h4]

/-- `dec_block` looks at no source and no maximum, and of `CFG` not at `SRC_CLASS` (R145). -/
theorem decBlock_otherSource {cfg : Byte} (vin : List (Nat × Word)) (maxW : Width) (idx k w : Nat) (s : State)
    (hc : cfg &&& 0xF9#8 = s.cfg &&& 0xF9#8) :
    decBlock idx k w (otherSource cfg vin maxW s) =
      (decBlock idx k w s).mapState (otherSource cfg vin maxW) := by
  induction k generalizing idx s with
  | zero => rfl
  | succ k ih =>
    have hrd : readField w (otherSource cfg vin maxW s) =
        (readField w s).mapState (otherSource cfg vin maxW) := by
      apply readField_mapState <;> (intros; rfl)
    have hcfg : ∀ n v u, readField n s = .done v u → u.cfg = s.cfg := by
      intro n v u h
      rcases readField_cases n s with ⟨_, e⟩ | ⟨_, e⟩
      · rw [e] at h
        cases h
        rfl
      · rw [e] at h
        cases h
    have helem : decElement w idx (otherSource cfg vin maxW s) =
        (decElement w idx s).mapState (otherSource cfg vin maxW) := by
      unfold decElement
      split
      · rfl
      · refine Run.bind_mapState hrd fun v s1 h1 => ?_
        have hv : decValue (otherSource cfg vin maxW s1) v w = decValue s1 v w :=
          decValue_decode_cfg (by rw [hcfg w v s1 h1]; exact hc) v w
        rw [hv]
        rfl
    unfold decBlock
    refine Run.bind_mapState helem fun _ s1 h1 => ih _ _ ?_
    have : s1.cfg = s.cfg := by
      unfold decElement at h1
      split at h1
      · cases h1
        rfl
      · obtain ⟨v, u, h2, h3⟩ := Run.bind_eq_done.mp h1
        cases h3
        exact hcfg w v u h2
    rw [this]
    exact hc

theorem decHeader_cfg {s s1 : State} {w : Nat} (h : decHeader s = .done w s1) : s1.cfg = s.cfg := by
  rcases decHeader_cases s with ⟨f, _, e⟩ | e | ⟨m, _, e⟩
  · rw [e] at h
    cases h
    rfl
  · rw [e] at h
    cases h
  · rw [e] at h
    cases h

theorem decBlock_cfg {idx k w : Nat} {s s1 : State} (h : decBlock idx k w s = .done () s1) :
    s1.cfg = s.cfg := by
  induction k generalizing idx s with
  | zero =>
    cases h
    rfl
  | succ k ih =>
    unfold decBlock at h
    obtain ⟨_, u, h1, h2⟩ := Run.bind_eq_done.mp h
    rw [ih h2]
    unfold decElement at h1
    split at h1
    · cases h1
      rfl
    · obtain ⟨v, u', h3, h4⟩ := Run.bind_eq_done.mp h1
      cases h4
      rcases readField_cases w s with ⟨_, e⟩ | ⟨_, e⟩
      · rw [e] at h3
        cases h3
        rfl
      · rw [e] at h3
        cases h3

/-- The loop of `DECFRAME` looks at no source, no maximum and not at `SRC_CLASS` (R184). -/
theorem decBlocks_otherSource {cfg : Byte} (vin : List (Nat × Word)) (maxW : Width) (fuel : Nat) (s : State)
    (hc : cfg &&& 0xF9#8 = s.cfg &&& 0xF9#8) :
    frameBlocks decFrameBlock fuel (otherSource cfg vin maxW s) =
      (frameBlocks decFrameBlock fuel s).mapState (otherSource cfg vin maxW) := by
  refine frameBlocks_mapState (P := fun u => cfg &&& 0xF9#8 = u.cfg &&& 0xF9#8) ?_ ?_ ?_ ?_ ?_ ?_ fuel s hc
  · intro k u hu
    unfold decFrameBlock
    refine Run.bind_mapState (f := otherSource cfg vin maxW) ?_ fun w s1 h1 => ?_
    · apply decHeader_mapState <;> (intros; rfl)
    · exact decBlock_otherSource vin maxW _ _ _ s1 (by rw [decHeader_cfg h1]; exact hu)
  · intro k u s1 hu h1
    obtain ⟨w, s2, h2, h3⟩ := Run.bind_eq_done.mp h1
    show _ = s1.cfg &&& _
    rw [decBlock_cfg h3, decHeader_cfg h2]
    exact hu
  all_goals intros; rfl

end Sys2Proof.Machine
end

