-- ==== Sys2Proof/Laws/Outcomes.lean ====
section
/-! SUPPORT. How each instruction of an unfaulted core ends: everything it may have changed, and the faults it
may have raised (60_exceptions.md R220). -/

namespace Sys2Proof.Machine

/-- The instruction completed in a state with `D`, or raised one of the faults `ks` in a state with `E`. -/
def EndsWith (D E : State → Prop) (ks : List FaultKind) (t : State) : Prop :=
  D t ∨ ∃ k ∈ ks, ∃ u, E u ∧ t = raiseFault k u

theorem Run.Within.cases {α : Type} {E : State → Prop} {ks : List FaultKind} {r : Run α}
    (h : r.Within E ks) :
    (∃ a u, E u ∧ r = .done a u) ∨ ∃ k ∈ ks, ∃ u, E u ∧ r = .raised (raiseFault k u) := by
  cases r with
  | done a u => exact .inl ⟨a, u, h, rfl⟩
  | raised t =>
    obtain ⟨k, hk, u, hu, e⟩ := h
    exact .inr ⟨k, hk, u, hu, by rw [e]⟩

/-- A command ends as its pseudocode does, or with the fault of a check in the state it started from (R223). -/
theorem endsWith_of_runCommand {i : Instr} {D E : State → Prop} {ks : List FaultKind}
    {checks : List (Bool × FaultKind)} {body : State → Run Unit} {s t : State}
    (hx : exec i s = runCommand checks body s) (hr : Running s) (h : exec i s = .next t) (hs : E s)
    (hchecks : ∀ c ∈ checks, c.2 ∈ ks)
    (hbody : firstFailing checks = none →
      (∃ u, D u ∧ body s = .done () u) ∨ ∃ k ∈ ks, ∃ u, E u ∧ body s = .raised (raiseFault k u)) :
    EndsWith D E ks t := by
  rw [hx] at h
  rcases runCommand_cases checks body s with ⟨hf, _⟩ | ⟨_, k, hk, e⟩ | ⟨_, hn, e⟩
  · rw [hr] at hf
    cases hf
  · rw [e] at h
    cases h
    exact .inr ⟨k, hchecks _ (firstFailing_mem hk), s, hs, rfl⟩
  · rw [e] at h
    cases h
    rcases hbody hn with ⟨u, hu, e⟩ | ⟨k, hk, u, hu, e⟩
    · rw [e]
      exact .inl hu
    · rw [e]
      exact .inr ⟨k, hk, u, hu, rfl⟩

/-- What a command that completes with a result leaves. -/
def WithResult (E : State → Prop) (t : State) : Prop := ∃ u v, E u ∧ t = setResult v u

/-- What a frame command that completes leaves. -/
def WithEnd (E : State → Prop) (t : State) : Prop := ∃ u, E u ∧ t = frameEnd u

/-- A command body that ends with a result. -/
theorem result_within {E : State → Prop} {ks : List FaultKind} {r : Run Nat} (h : r.Within E ks) :
    (∃ u, WithResult E u ∧ (r.bind fun v s => .done () (setResult v s)) = .done () u) ∨
      ∃ k ∈ ks, ∃ u, E u ∧ (r.bind fun v s => .done () (setResult v s)) = .raised (raiseFault k u) := by
  rcases h.cases with ⟨v, u, hu, e⟩ | ⟨k, hk, u, hu, e⟩
  · exact .inl ⟨_, ⟨u, v, hu, rfl⟩, by rw [e]; rfl⟩
  · exact .inr ⟨k, hk, u, hu, by rw [e]; rfl⟩

/-- A command body that ends without one. -/
theorem unit_within {E : State → Prop} {ks ks' : List FaultKind} {r : Run Unit} (h : r.Within E ks)
    (hks : ks ⊆ ks') :
    (∃ u, E u ∧ r = .done () u) ∨ ∃ k ∈ ks', ∃ u, E u ∧ r = .raised (raiseFault k u) := by
  rcases h.cases with ⟨_, u, hu, e⟩ | ⟨k, hk, u, hu, e⟩
  · exact .inl ⟨u, hu, e⟩
  · exact .inr ⟨k, hks hk, u, hu, e⟩

theorem failing_none_block {s : State} {checks : List (Bool × FaultKind)} (h : firstFailing checks = none)
    (hm : blockTooLong s ∈ checks) : s.aIdx.toNat + s.aK.toNat ≤ Config.valCap := by
  exact Nat.not_lt.mp (of_decide_eq_false (firstFailing_eq_none.mp h _ hm))

theorem failing_none_frame {s : State} {checks : List (Bool × FaultKind)} (h : firstFailing checks = none)
    (hm : frameTooLong s ∈ checks) : s.frameLen.toNat ≤ Config.valCap := by
  exact Nat.not_lt.mp (of_decide_eq_false (firstFailing_eq_none.mp h _ hm))

theorem failing_none_offset {s : State} {checks : List (Bool × FaultKind)} (h : firstFailing checks = none)
    (hm : badOffset s ∈ checks) : s.aOff.toNat ≤ s.bufLen.toNat := by
  have := firstFailing_eq_none.mp h _ hm
  simpa [badOffset] using this

/-- Any point of a command on the cursor: nothing but the cursor moved. -/
def CursorReach (s u : State) : Prop := Reach s 0 0 s.pos.toNat s.maxW.toNat u ∧ OnlyCursor s u

/-- Any point of `DECHDR`. -/
def HeaderReach (s u : State) : Prop := Reach s 0 0 s.pos.toNat s.maxW.toNat u ∧ OnlyHeader s u

/-- Any point of `WRBITS` and `ENCBLK`. -/
def BufReach (s u : State) : Prop := Reach s 0 0 s.pos.toNat s.maxW.toNat u ∧ OnlyBuf s u

/-- Any point of `ENCHDR`. -/
def EncodeReach (s u : State) : Prop := Reach s 0 0 s.pos.toNat s.maxW.toNat u ∧ OnlyEncode s u

/-- Any point of `DECBLK`: its checks are still to pass, or the cells it writes exist. -/
def SinkReach (s u : State) : Prop :=
  u = s ∨ (Reach s s.aIdx.toNat (s.aIdx.toNat + s.aK.toNat) s.pos.toNat s.maxW.toNat u ∧ OnlySink s u) ∧
    s.aIdx.toNat + s.aK.toNat ≤ Config.valCap

/-- Any point of `ENCFRAME`: its checks are still to pass, or it is on its way from byte `A_OFF`. -/
def EncodeFrameReach (s u : State) : Prop :=
  u = s ∨ Reach s 0 0 (8 * s.aOff.toNat) s.maxW.toNat u ∧ s.aOff.toNat ≤ s.bufLen.toNat ∧
    OnlyEncodeFrame s u

/-- Any point of `DECFRAME`. -/
def DecodeFrameReach (s u : State) : Prop :=
  u = s ∨ Reach s 0 s.frameLen.toNat (8 * s.aOff.toNat) s.maxW.toNat u ∧
    (s.aOff.toNat ≤ s.bufLen.toNat ∧ s.frameLen.toNat ≤ Config.valCap) ∧ OnlyDecodeFrame s u

/-- Any point of `SCANFRAME`. -/
def ScanFrameReach (s u : State) : Prop :=
  u = s ∨ Reach s 0 0 (8 * s.aOff.toNat) s.maxW.toNat u ∧ s.aOff.toNat ≤ s.bufLen.toNat ∧
    OnlyScanFrame s u

/-- How `RDBIT` ends (R122). -/
theorem rdbit_ends {s t : State} (hr : Running s) (h : exec .rdbit s = .next t) :
    EndsWith (WithResult (CursorReach s)) (CursorReach s) [.readOverrun] t := by
  refine endsWith_of_runCommand (exec_rdbit s) hr h ⟨Reach.start s _ _, rfl⟩ (by simp) fun _ => ?_
  exact result_within (readField_within (E := CursorReach s)
      ((Reach.readClosed _ _ _ _ _).and (OnlyCursor.readClosed s)) ⟨Reach.start s _ _, rfl⟩ 1)

/-- How `RDBITS` ends (R121). -/
theorem rdbits_ends {s t : State} (hr : Running s) (h : exec .rdbits s = .next t) :
    EndsWith (WithResult (CursorReach s)) (CursorReach s) [.readOverrun, .badArgument] t := by
  refine endsWith_of_runCommand (exec_rdbits s) hr h ⟨Reach.start s _ _, rfl⟩ (by simp [badWidth]) fun _ => ?_
  exact result_within ((readField_within (E := CursorReach s)
      ((Reach.readClosed _ _ _ _ _).and (OnlyCursor.readClosed s)) ⟨Reach.start s _ _, rfl⟩ _).mono
    (by simp))

/-- How `WRBITS` ends (R123). -/
theorem wrbits_ends {s t : State} (hr : Running s) (h : exec .wrbits s = .next t) :
    EndsWith (BufReach s) (BufReach s) [.writeOverrun, .badArgument] t := by
  refine endsWith_of_runCommand (exec_wrbits s) hr h ⟨Reach.start s _ _, rfl⟩ (by simp [badWidth]) fun _ => ?_
  exact unit_within (writeField_within (E := BufReach s)
      ((Reach.writeClosed _ _ _ _ _).and (OnlyBuf.writeClosed s)) ⟨Reach.start s _ _, rfl⟩
    (Nat.mod_lt _ (by positivity))) (by simp)

/-- How `POSBITS` ends (R124). -/
theorem posbits_ends {s t : State} (hr : Running s) (h : exec .posbits s = .next t) :
    EndsWith (WithResult fun u => u = s) (fun u => u = s) [] t := by
  refine endsWith_of_runCommand (exec_posbits s) hr h rfl (by simp) fun _ => ?_
  exact .inl ⟨_, ⟨s, s.pos.toNat, rfl, rfl⟩, rfl⟩

/-- How `ALIGN` ends (R125). -/
theorem align_ends {s t : State} (hr : Running s) (h : exec .align s = .next t) :
    EndsWith (fun u => u = alignPos s) (fun u => u = s) [] t := by
  refine endsWith_of_runCommand (exec_align s) hr h rfl (by simp) fun _ => ?_
  exact .inl ⟨_, rfl, rfl⟩

/-- How `SEEK` ends (R126). -/
theorem seek_ends {s t : State} (hr : Running s) (h : exec .seek s = .next t) :
    EndsWith (fun u => s.aOff.toNat ≤ s.bufLen.toNat ∧ u = seekPos s) (fun u => u = s) [.badArgument] t := by
  refine endsWith_of_runCommand (exec_seek s) hr h rfl (by simp [badOffset]) fun hn => ?_
  exact .inl ⟨_, ⟨failing_none_offset hn (by simp), rfl⟩, rfl⟩

/-- How `BLKWIDTH` ends (R141). -/
theorem blkwidth_ends {s t : State} (hr : Running s) (h : exec .blkwidth s = .next t) :
    EndsWith (WithResult fun u => u = s) (fun u => u = s) [.badConfig, .badArgument, .sizeMismatch] t := by
  refine endsWith_of_runCommand (exec_blkwidth s) hr h rfl (by simp [badBlockSize, badCount, blockTooLong])
      fun _ => ?_
  exact .inl ⟨_, ⟨s, _, rfl, rfl⟩, rfl⟩

/-- How `ENCBLK` ends (R143). -/
theorem encblk_ends {s t : State} (hr : Running s) (h : exec .encblk s = .next t) :
    EndsWith (BufReach s) (BufReach s) [.badConfig, .badArgument, .sizeMismatch, .writeOverrun] t := by
  refine endsWith_of_runCommand (exec_encblk s) hr h ⟨Reach.start s _ _, rfl⟩
      (by simp [encblkChecks, badBlockSize, badWidth, badCount, blockTooLong]) fun _ => ?_
  exact unit_within (encBlock_within (E := BufReach s)
      ((Reach.writeClosed _ _ _ _ _).and (OnlyBuf.writeClosed s)) ⟨Reach.start s _ _, rfl⟩) (by simp)

/-- How `DECBLK` ends (R145). -/
theorem decblk_ends {s t : State} (hr : Running s) (h : exec .decblk s = .next t) :
    EndsWith (SinkReach s) (SinkReach s)
      [.badConfig, .badArgument, .signednessMismatch, .sizeMismatch, .readOverrun] t := by
  refine endsWith_of_runCommand (exec_decblk s) hr h (.inl rfl)
    (by simp [decblkChecks, badBlockSize, badWidth, badCount, signedIntoUnsigned, blockTooLong]) fun hn => ?_
  have hc := failing_none_block (s := s) hn (by simp [decblkChecks])
  have hb := decBlock_within (E := fun u =>
      Reach s s.aIdx.toNat (s.aIdx.toNat + s.aK.toNat) s.pos.toNat s.maxW.toNat u ∧ OnlySink s u)
    ((Reach.readClosed _ _ _ _ _).and (OnlySink.readClosed s))
    ((Reach.sinkClosed _ _ _ _ _).and (OnlySink.sinkClosed s _ _)) (idx := s.opIdx) (k := s.opK) (w := s.opN)
    ⟨Reach.start s _ _, rfl⟩ (Nat.le_refl _) (Nat.le_refl _)
  rcases hb.cases with ⟨_, u, hu, e⟩ | ⟨k, hk, u, hu, e⟩
  · exact .inl ⟨u, .inr ⟨hu, hc⟩, e⟩
  · refine .inr ⟨k, ?_, u, .inr ⟨hu, hc⟩, e⟩
    revert hk
    simp
    tauto

/-- How `ENCHDR` ends (R161). -/
theorem enchdr_ends {s t : State} (hr : Running s) (h : exec .enchdr s = .next t) :
    EndsWith (EncodeReach s) (EncodeReach s) [.badArgument, .writeOverrun] t := by
  refine endsWith_of_runCommand (exec_enchdr s) hr h ⟨Reach.start s _ _, rfl⟩ (by simp [badWidth]) fun hn => ?_
  have hw : s.opN ≤ 64 := by simpa [badWidth] using hn
  exact unit_within (encHeader_within (E := EncodeReach s)
      ((Reach.writeClosed _ _ _ _ _).and (OnlyEncode.writeClosed s))
    ((Reach.widthClosed _ _ _ _ _).and (OnlyEncode.widthClosed s)) hw ⟨Reach.start s _ _, rfl⟩) (by simp)

/-- How `DECHDR` ends (R163). -/
theorem dechdr_ends {s t : State} (hr : Running s) (h : exec .dechdr s = .next t) :
    EndsWith (WithResult (HeaderReach s)) (HeaderReach s) [.readOverrun, .widthOutOfRange] t := by
  refine endsWith_of_runCommand (exec_dechdr s) hr h ⟨Reach.start s _ _, rfl⟩ (by simp) fun _ => ?_
  exact result_within (decHeader_within (E := HeaderReach s)
      ((Reach.readClosed _ _ _ _ _).and (OnlyHeader.readClosed s))
    ((Reach.widthClosed _ _ _ _ _).and (OnlyHeader.widthClosed s)) ⟨Reach.start s _ _, rfl⟩)

/-- How `ENCFRAME` ends (R182). -/
theorem encframe_ends {s t : State} (hr : Running s) (h : exec .encframe s = .next t) :
    EndsWith (WithEnd fun u => Reach s 0 0 (8 * s.aOff.toNat) s.maxW.toNat u ∧
        s.aOff.toNat ≤ s.bufLen.toNat ∧ OnlyEncodeFrame s u) (EncodeFrameReach s)
      [.badConfig, .badArgument, .sizeMismatch, .writeOverrun] t := by
  refine endsWith_of_runCommand (exec_encframe s) hr h (.inl rfl)
      (by simp [encframeChecks, badBlockSize, badOffset, frameTooLong]) fun hn => ?_
  have ho : s.aOff.toNat ≤ s.bufLen.toNat := failing_none_offset hn (by simp [encframeChecks])
  have hb := encFrameBlocks_within (E := fun u => Reach s 0 0 (8 * s.aOff.toNat) s.maxW.toNat u
      ∧ OnlyEncodeFrame s u)
    ((Reach.writeClosed _ _ _ _ _).and (OnlyEncodeFrame.writeClosed s))
    ((Reach.widthClosed _ _ _ _ _).and (OnlyEncodeFrame.widthClosed s))
    ((Reach.maxClosed _ _ _ _ _).and (OnlyEncodeFrame.maxClosed s))
    ((Reach.consumeClosed _ _ _ _ _).and (OnlyEncodeFrame.consumeClosed s))
    s.frameLen.toNat (s := frameStart s) ⟨Reach.frameStart ho _ _, rfl⟩
  rcases runFrame_cases hb with ⟨u, hu, e⟩ | ⟨k, hk, u, hu, e⟩
  · exact .inl ⟨_, ⟨u, ⟨hu.1, ho, hu.2⟩, rfl⟩, e⟩
  · refine .inr ⟨k, ?_, u, .inr ⟨hu.1, ho, hu.2⟩, e⟩
    revert hk
    simp
    tauto

/-- How `DECFRAME` ends (R184). -/
theorem decframe_ends {s t : State} (hr : Running s) (h : exec .decframe s = .next t) :
    EndsWith (WithEnd fun u => Reach s 0 s.frameLen.toNat (8 * s.aOff.toNat) s.maxW.toNat u ∧
        (s.aOff.toNat ≤ s.bufLen.toNat ∧ s.frameLen.toNat ≤ Config.valCap) ∧ OnlyDecodeFrame s u)
        (DecodeFrameReach s)
      [.badConfig, .badArgument, .signednessMismatch, .sizeMismatch, .readOverrun, .widthOutOfRange] t := by
  refine endsWith_of_runCommand (exec_decframe s) hr h (.inl rfl)
      (by simp [decframeChecks, badBlockSize, badOffset, signedIntoUnsigned, frameTooLong]) fun hn => ?_
  have ho : s.aOff.toNat ≤ s.bufLen.toNat := failing_none_offset hn (by simp [decframeChecks])
  have hc := failing_none_frame (s := s) hn (by simp [decframeChecks])
  have hb := decFrameBlocks_within (E := fun u => Reach s 0 s.frameLen.toNat (8 * s.aOff.toNat) s.maxW.toNat u
      ∧ OnlyDecodeFrame s u)
    ((Reach.readClosed _ _ _ _ _).and (OnlyDecodeFrame.readClosed s))
    ((Reach.widthClosed _ _ _ _ _).and (OnlyDecodeFrame.widthClosed s))
    ((Reach.sinkClosed _ _ _ _ _).and (OnlyDecodeFrame.sinkClosed s _ _))
    ((Reach.consumeClosed _ _ _ _ _).and (OnlyDecodeFrame.consumeClosed s))
    (fun u hu => by rw [hu.1.inputs.2.2.2.2.1])
    s.frameLen.toNat (s := frameStart s) ⟨Reach.frameStart ho _ _, rfl⟩
  rcases runFrame_cases hb with ⟨u, hu, e⟩ | ⟨k, hk, u, hu, e⟩
  · exact .inl ⟨_, ⟨u, ⟨hu.1, ⟨ho, hc⟩, hu.2⟩, rfl⟩, e⟩
  · refine .inr ⟨k, ?_, u, .inr ⟨hu.1, ⟨ho, hc⟩, hu.2⟩, e⟩
    revert hk
    simp
    tauto

/-- How `SCANFRAME` ends (R186). -/
theorem scanframe_ends {s t : State} (hr : Running s) (h : exec .scanframe s = .next t) :
    EndsWith (WithEnd fun u => Reach s 0 0 (8 * s.aOff.toNat) s.maxW.toNat u ∧
        s.aOff.toNat ≤ s.bufLen.toNat ∧ OnlyScanFrame s u) (ScanFrameReach s)
      [.badConfig, .badArgument, .readOverrun, .widthOutOfRange] t := by
  refine endsWith_of_runCommand (exec_scanframe s) hr h (.inl rfl)
      (by simp [scanframeChecks, badBlockSize, badOffset]) fun hn => ?_
  have ho : s.aOff.toNat ≤ s.bufLen.toNat := failing_none_offset hn (by simp [scanframeChecks])
  have hb := scanFrameBlocks_within (E := fun u => Reach s 0 0 (8 * s.aOff.toNat) s.maxW.toNat u
      ∧ OnlyScanFrame s u)
    ((Reach.readClosed _ _ _ _ _).and (OnlyScanFrame.readClosed s))
    ((Reach.widthClosed _ _ _ _ _).and (OnlyScanFrame.widthClosed s))
    ((Reach.consumeClosed _ _ _ _ _).and (OnlyScanFrame.consumeClosed s))
    s.frameLen.toNat (s := frameStart s) ⟨Reach.frameStart ho _ _, rfl⟩
  rcases runFrame_cases hb with ⟨u, hu, e⟩ | ⟨k, hk, u, hu, e⟩
  · exact .inl ⟨_, ⟨u, ⟨hu.1, ho, hu.2⟩, rfl⟩, e⟩
  · refine .inr ⟨k, ?_, u, .inr ⟨hu.1, ho, hu.2⟩, e⟩
    revert hk
    simp
    tauto

/-- A faulted core ignores every instruction but `RESET` (R210). -/
theorem exec_of_faulted {i : Instr} {s : State} (h : s.faulted = true) (hi : i ≠ .reset) :
    exec i s = .next s := by
  obtain ⟨checks, body, e⟩ := exec_eq_runCommand i s hi
  rw [e]
  exact runCommand_of_faulted h _ _

/-- How a reserved stream form ends (R98). -/
theorem abs11Illegal_ends (c : BitVec 6) {s t : State} (hr : Running s)
    (h : exec (.abs11Illegal c) s = .next t) :
    t = raiseFault .widthOutOfRange { s with pos := s.pos + 12#64 } := by
  rw [exec_abs11Illegal, runCommand_of_pass hr rfl] at h
  cases h
  rfl

/-- How the other stream forms end (R93, R162). -/
theorem stream_form_ends {f : HeaderForm} (hl : f.legal = true) {s t : State} (hr : Running s)
    (h : exec f.toInstr s = .next t) :
    t = { s with
      pos := s.pos + BitVec.ofNat 64 f.length,
      prevW := BitVec.ofNat 7 (f.width s.prevW.toNat), curW := BitVec.ofNat 7 (f.width s.prevW.toNat) } := by
  rw [exec_toInstr_legal f hr hl] at h
  cases h
  rfl

/-- How an illegal command ends (R104). -/
theorem illegal_ends (c : Byte) {s t : State} (hr : Running s) (h : exec (.illegal c) s = .next t) :
    t = raiseFault .illegalCommand s := by
  rw [exec_illegal, runCommand_of_check hr (k := .illegalCommand) rfl] at h
  cases h
  rfl

end Sys2Proof.Machine
end

