-- ==== Sys2Proof/Laws/Payload.lean ====
section
/-! SUPPORT. Payloads: what the block commands do when a field does not fit (60_exceptions.md R229), the
fields the buffer holds, and what a sink cell reads after its value was encoded and decoded (41_block_codec.md
R146). -/

namespace Sys2Proof.Machine

/-- The checks of `ENCBLK` pass (R143, R223). -/
theorem encblkChecks_pass {s : State} (h0 : s.blockSize ≠ 0#64) (h1 : s.aN.toNat ≤ 64)
    (h2 : s.aK.toNat ≤ s.blockSize.toNat) (h3 : s.aIdx.toNat + s.aK.toNat ≤ Config.valCap) :
    firstFailing (encblkChecks s) = none := by
  simp [encblkChecks, badBlockSize_pass h0, badWidth_pass h1, badCount_pass h2, blockTooLong_pass h3]

/-- The checks of `DECBLK` pass (R145, R223). -/
theorem decblkChecks_pass {s : State} (h0 : s.blockSize ≠ 0#64) (h1 : s.aN.toNat ≤ 64)
    (h2 : s.aK.toNat ≤ s.blockSize.toNat) (h4 : s.signedMode = true → s.tgtSigned = true)
    (h3 : s.aIdx.toNat + s.aK.toNat ≤ Config.valCap) : firstFailing (decblkChecks s) = none := by
  simp [decblkChecks, badBlockSize_pass h0, badWidth_pass h1, badCount_pass h2, blockTooLong_pass h3,
    signedIntoUnsigned_pass h4]

theorem decValue_congr {s t : State} (h : s.cfg = t.cfg) (f w : Nat) : decValue s f w = decValue t f w := by
  unfold decValue State.signedMode State.tgtWidth State.tgtSigned
  rw [h]

/-- `enc_block` when `m` fields fit and the next does not (R143, R229). -/
theorem encFields_overrun (w idx k m : Nat) (s : State) (hcap : 8 * s.bufLen.toNat < 2 ^ 64) (hm : m < k)
    (h : m = 0 ∨ s.pos.toNat + m * w ≤ 8 * s.bufLen.toNat)
    (h' : ¬s.pos.toNat + (m * w + w) ≤ 8 * s.bufLen.toNat) :
    ∃ b, encFields w idx k s = .raised
        (raiseFault .writeOverrun { s with buf := b, pos := s.pos + BitVec.ofNat 64 (m * w) }) ∧
      OredAt s { s with buf := b } s.pos.toNat (payloadBits w (encodedFields s w idx m)) := by
  induction m generalizing idx k s with
  | zero =>
    obtain ⟨k, rfl⟩ : ∃ k', k = k' + 1 := ⟨k - 1, by omega⟩
    refine ⟨s.buf, ?_, by simpa [encodedFields, payloadBits] using OredAt.refl s _⟩
    unfold encFields
    rw [writeField_of_not_fits (by simpa using h')]
    simp
  | succ m ih =>
    obtain ⟨k, rfl⟩ : ∃ k', k = k' + 1 := ⟨k - 1, by omega⟩
    rw [Nat.succ_mul] at h h'
    obtain ⟨b1, e1, o1⟩ := writeField_done (pat_lt w (s.sourceValue idx)) (s := s) (n := w) (by omega)
    have hp : (s.pos + BitVec.ofNat 64 w).toNat = s.pos.toNat + w := toNat_pos_add (by omega)
    obtain ⟨b2, e2, o2⟩ := ih (idx + 1) k { s with buf := b1, pos := s.pos + BitVec.ofNat 64 w } hcap (by omega)
      (.inr (by simp only [hp]; omega)) (by simp only [hp]; omega)
    refine ⟨b2, ?_, ?_⟩
    · unfold encFields
      rw [e1, Run.bind_done, e2]
      simp only [pos_add_add]
      rw [Nat.succ_mul, Nat.add_comm w]
    · rw [encodedFields_succ, payloadBits_cons]
      refine OredAt.trans o1 ?_
      rw [fieldBits_length]
      simp only [hp] at o2
      exact o2.of_buf_eq rfl

/-- `dec_block` when `m` fields fit and the next does not (R145, R229). -/
theorem decBlock_overrun (w : Nat) (hw0 : w ≠ 0) (idx k m : Nat) (s : State)
    (hcap : 8 * s.bufLen.toNat < 2 ^ 64) (hm : m < k)
    (h : m = 0 ∨ s.pos.toNat + m * w ≤ 8 * s.bufLen.toNat)
    (h' : ¬s.pos.toNat + (m * w + w) ≤ 8 * s.bufLen.toNat) :
    ∃ vo, decBlock idx k w s = .raised
        (raiseFault .readOverrun { s with vout := vo, pos := s.pos + BitVec.ofNat 64 (m * w) }) ∧
      StoredAt s { s with vout := vo } idx
        ((List.range m).map fun i => decValue s (memRead s (s.pos.toNat + i * w) w) w) := by
  induction m generalizing idx k s with
  | zero =>
    obtain ⟨k, rfl⟩ : ∃ k', k = k' + 1 := ⟨k - 1, by omega⟩
    refine ⟨s.vout, ?_, by simpa using StoredAt.refl s _⟩
    unfold decBlock decElement
    rw [if_neg hw0, readField_of_not_fits (by simpa using h')]
    simp
  | succ m ih =>
    obtain ⟨k, rfl⟩ : ∃ k', k = k' + 1 := ⟨k - 1, by omega⟩
    rw [Nat.succ_mul] at h h'
    have hp : (s.pos + BitVec.ofNat 64 w).toNat = s.pos.toNat + w := toNat_pos_add (by omega)
    obtain ⟨vo1, hvo⟩ : ∃ vo1, vo1 =
        Memory.write s.vout idx (BitVec.ofNat 64 (decValue s (memRead s s.pos.toNat w) w)) := ⟨_, rfl⟩
    have e1 : decElement w idx s = .done () { s with vout := vo1, pos := s.pos + BitVec.ofNat 64 w } := by
      unfold decElement
      rw [if_neg hw0, readField_of_fits (by omega), hvo]
      rfl
    obtain ⟨vo, e2, o2⟩ := ih (idx + 1) k { s with vout := vo1, pos := s.pos + BitVec.ofNat 64 w } hcap
      (by omega) (.inr (by simp only [hp]; omega)) (by simp only [hp]; omega)
    refine ⟨vo, ?_, ?_⟩
    · unfold decBlock
      rw [e1, Run.bind_done, e2]
      simp only [pos_add_add]
      rw [Nat.succ_mul, Nat.add_comm w]
    · rw [List.range_succ_eq_map, List.map_cons, List.map_map, Nat.zero_mul, Nat.add_zero]
      refine StoredAt.trans (a := [_]) (storedAt_putVout s idx _) ⟨fun i => ?_⟩
      have hread : ∀ j, memRead { s with vout := vo1, pos := s.pos + BitVec.ofNat 64 w }
          (s.pos.toNat + w + j * w) w = memRead s (s.pos.toNat + (j + 1) * w) w := by
        intro j
        rw [show s.pos.toNat + (j + 1) * w = s.pos.toNat + w + j * w by ring]
        exact memRead_of_buf_eq (by rfl) _ _
      have hval : ∀ f, decValue { s with vout := vo1, pos := s.pos + BitVec.ofNat 64 w } f w =
          decValue s f w := fun f => decValue_congr (by rfl) f w
      have h2 := o2.cells i
      simp only [hp, hread, hval] at h2
      rw [h2, hvo]
      rfl

/-- The buffer holds the field that a read of it gives (R60). -/
theorem holds_fieldBits (s : State) (p n : Nat) : holdsBits s p (fieldBits n (memRead s p n)) := by
  intro i hi
  rw [fieldBits_length] at hi
  rw [fieldBits_getD, memRead_testBit]
  simp [hi]

theorem natCast_two_pow (n : Nat) : ((2 ^ n : Nat) : Int) = 2 ^ n := by
  push_cast
  rfl

/-- A value encoded under a width that is enough and decoded into a sink that can hold it reads back as
itself (R146). -/
theorem decoded_value (s : State) (idx k i w : Nat) (hi : i < k) (hbw : blockWidth s idx k ≤ w)
    (hc : s.tgtSigned = s.signedMode ∧ (s.srcWidth ≤ s.tgtWidth ∨ w ≤ s.tgtWidth) ∨
      s.signedMode = false ∧ s.tgtSigned = true ∧ (s.srcWidth < s.tgtWidth ∨ w < s.tgtWidth)) :
    (if s.tgtSigned then sint s.tgtWidth (decodedElement s w (pat w (s.sourceValue (idx + i)))) else
      ((decodedElement s w (pat w (s.sourceValue (idx + i)))) : Int)) = s.sourceValue (idx + i) := by
  obtain ⟨f1, f2⟩ := sourceValue_fits_blockWidth s idx k i hi hbw
  obtain ⟨r1, r2⟩ := s.sourceValue_range (idx + i)
  have hT : 0 < s.tgtWidth := by rcases s.tgtWidth_cases with h | h | h | h <;> omega
  have hpos : (0 : Int) < 2 ^ (s.tgtWidth - 1) := by positivity
  generalize s.sourceValue (idx + i) = v at *
  by_cases hw : w = 0
  · subst hw
    have hv : v = 0 := by
      cases hs : s.signedMode with
      | true => exact (f1 hs).2.2 rfl
      | false => have := f2 hs; simp at this; omega
    subst hv
    simp [decodedElement, sint]
  · unfold decodedElement
    rw [if_neg hw]
    cases hs : s.signedMode with
    | true =>
      have ht : s.tgtSigned = true := by rcases hc with h | h <;> simp_all
      obtain ⟨a, b, _⟩ := f1 hs
      obtain ⟨c, d⟩ := r1 hs
      rw [if_pos ht, decValue_signed hs (by omega) a b]
      have hr : -(2 ^ (s.tgtWidth - 1)) ≤ v ∧ v ≤ 2 ^ (s.tgtWidth - 1) - 1 := by
        have hh : s.srcWidth ≤ s.tgtWidth ∨ w ≤ s.tgtWidth := by rcases hc with h | h <;> simp_all
        rcases hh with h | h
        · have : (2 : Int) ^ (s.srcWidth - 1) ≤ 2 ^ (s.tgtWidth - 1) :=
          pow_le_pow_right₀ (by norm_num) (by omega)
          omega
        · have : (2 : Int) ^ (w - 1) ≤ 2 ^ (s.tgtWidth - 1) := pow_le_pow_right₀ (by norm_num) (by omega)
          omega
      rw [clamp_of_mem hr.1 hr.2]
      exact sint_pat hT hr.1 (by omega)
    | false =>
      obtain ⟨a, b⟩ := f2 hs
      obtain ⟨c, d⟩ := r2 hs
      have hpat : (pat w v : Int) = v := by
        unfold pat
        rw [Int.toNat_of_nonneg (Int.emod_nonneg _ (by positivity))]
        exact Int.emod_eq_of_lt a b
      have hlt : ∀ n, s.srcWidth ≤ n ∨ w ≤ n → v < 2 ^ n := by
        intro n h
        rcases h with h | h
        · have : (2 : Int) ^ s.srcWidth ≤ 2 ^ n := pow_le_pow_right₀ (by norm_num) h
          omega
        · have : (2 : Int) ^ w ≤ 2 ^ n := pow_le_pow_right₀ (by norm_num) h
          omega
      have hltn : ∀ n, s.srcWidth ≤ n ∨ w ≤ n → pat w v < 2 ^ n := by
        intro n h
        have := hlt n h
        rw [← hpat, ← natCast_two_pow] at this
        exact_mod_cast this
      rcases hc with ⟨h1, h2⟩ | ⟨_, h1, h2⟩
      · rw [hs] at h1
        rw [decValue_unsigned hs (hltn _ h2)]
        simp [h1, hpat]
      · have h3 : s.srcWidth ≤ s.tgtWidth - 1 ∨ w ≤ s.tgtWidth - 1 := by omega
        have h4 : s.srcWidth ≤ s.tgtWidth ∨ w ≤ s.tgtWidth := by omega
        rw [decValue_unsigned hs (hltn _ h4)]
        rw [if_pos h1]
        unfold sint
        rw [if_pos (hltn _ h3), hpat]

/-- What a sink cell reads when it holds a pattern of the sink's class (R30). -/
theorem sinkValue_of_cell {u : State} {i x : Nat} (h : Memory.read? u.vout i = some (BitVec.ofNat 64 x))
    (hx : x < 2 ^ u.tgtWidth) :
    u.sinkValue i = if u.tgtSigned then sint u.tgtWidth x else (x : Int) := by
  have h64 : 2 ^ u.tgtWidth ≤ 2 ^ 64 :=
    Nat.pow_le_pow_right (by omega) (by rcases u.tgtWidth_cases with h | h | h | h <;> omega)
  have hc : (u.voutCell i).toNat = x := by
    unfold State.voutCell
    rw [h, Option.getD_some, BitVec.toNat_ofNat]
    exact Nat.mod_eq_of_lt (Nat.lt_of_lt_of_le hx h64)
  unfold State.sinkValue
  rw [hc, Nat.mod_eq_of_lt hx]

theorem decodedElement_lt (s : State) (w f : Nat) : decodedElement s w f < 2 ^ s.tgtWidth := by
  unfold decodedElement
  split
  · positivity
  · exact decValue_lt _ _ _

/-- `dec_block` from a cursor inside the buffer: it passes all its fields, or overruns exactly where a skip of
them would (R145, R187). -/
theorem decBlock_cases (idx k w : Nat) (s : State) (hcap : 8 * s.bufLen.toNat < 2 ^ 64)
    (hp : s.pos.toNat ≤ 8 * s.bufLen.toNat) :
    (s.pos.toNat + k * w ≤ 8 * s.bufLen.toNat ∧
        ∃ vo, decBlock idx k w s =
          .done () { s with vout := vo, pos := s.pos + BitVec.ofNat 64 (k * w) }) ∨
      (¬s.pos.toNat + k * w ≤ 8 * s.bufLen.toNat ∧
        ∃ u, decBlock idx k w s = .raised (raiseFault .readOverrun u)) := by
  induction k generalizing idx s with
  | zero => exact .inl ⟨by simpa using hp, s.vout, by simp [decBlock]⟩
  | succ k ih =>
    unfold decBlock decElement
    by_cases hw : w = 0
    · subst hw
      rw [if_pos rfl, Run.bind_done]
      refine .inl ⟨by simpa using hp, ?_⟩
      rcases ih (idx + 1) (s.putVout idx 0#64) hcap hp with ⟨_, vo, e⟩ | ⟨h, _⟩
      · exact ⟨vo, e⟩
      · exact absurd hp (by simpa using h)
    · rw [if_neg hw, Nat.succ_mul]
      rcases readField_cases w s with ⟨h, e⟩ | ⟨h, e⟩
      · rw [e]
        simp only [Run.bind_done]
        have hp2 : ∀ i x, ((advance w s).putVout i x).pos.toNat = s.pos.toNat + w :=
          fun i x => advance_pos_toNat (by omega)
        have hl : ∀ i x, ((advance w s).putVout i x).bufLen = s.bufLen := fun _ _ => rfl
        generalize hx : BitVec.ofNat 64 (decValue (advance w s) (memRead s s.pos.toNat w) w) = x
        rcases ih (idx + 1) ((advance w s).putVout idx x) hcap (by rw [hp2]; exact h) with
          ⟨h', vo, e'⟩ | ⟨h', u, e'⟩
        · rw [hp2, hl] at h'
          refine .inl ⟨by omega, vo, ?_⟩
          rw [e', Nat.add_comm (k * w), ← pos_add_add]
          rfl
        · rw [hp2, hl] at h'
          exact .inr ⟨by omega, u, e'⟩
      · rw [e]
        exact .inr ⟨by omega, s, rfl⟩

end Sys2Proof.Machine
end

