-- ==== Sys2Proof/Laws/PerInstr.lean ====
section
/-! SUPPORT. Facts about each instruction as syntax, one lemma per constructor. -/

namespace Sys2Proof

theorem HeaderForm.bits_length_cases (f : HeaderForm) :
    f.bits.length = 1 ∨ f.bits.length = 4 ∨ f.bits.length = 6 ∨ f.bits.length = 12 := by
  unfold HeaderForm.bits
  rw [fieldBits_length]
  cases f <;> simp [HeaderForm.length]

end Sys2Proof

namespace Sys2Proof.Laws.EncodeLength

/-- An instruction is one byte for `CMD` (30_encoding.md R102) or a header of 1, 4, 6 or 12 bits (R93). -/
def Statement (i : Sys2Proof.Instr) : Prop :=
  match Sys2Proof.encode i with
  | .command _ => True
  | .header bits => bits.length = 1 ∨ bits.length = 4 ∨ bits.length = 6 ∨ bits.length = 12

theorem rdbit : Statement .rdbit := trivial

theorem rdbits : Statement .rdbits := trivial

theorem wrbits : Statement .wrbits := trivial

theorem posbits : Statement .posbits := trivial

theorem align : Statement .align := trivial

theorem seek : Statement .seek := trivial

theorem blkwidth : Statement .blkwidth := trivial

theorem encblk : Statement .encblk := trivial

theorem decblk : Statement .decblk := trivial

theorem enchdr : Statement .enchdr := trivial

theorem dechdr : Statement .dechdr := trivial

theorem encframe : Statement .encframe := trivial

theorem decframe : Statement .decframe := trivial

theorem scanframe : Statement .scanframe := trivial

theorem reset : Statement .reset := trivial

theorem reuse : Statement .reuse := Sys2Proof.HeaderForm.bits_length_cases .reuse

theorem abs3 (x : BitVec 3) : Statement (.abs3 x) := Sys2Proof.HeaderForm.bits_length_cases (.abs3 x)

theorem abs5 (x : BitVec 2) : Statement (.abs5 x) := Sys2Proof.HeaderForm.bits_length_cases (.abs5 x)

theorem abs11 (x : BitVec 6) : Statement (.abs11 x) := Sys2Proof.HeaderForm.bits_length_cases (.abs11 x)

theorem abs11Illegal (x : BitVec 6) :
    Statement (.abs11Illegal x) := Sys2Proof.HeaderForm.bits_length_cases (.abs11Illegal x)

theorem illegal (opcode : Sys2Proof.Byte) : Statement (.illegal opcode) := trivial

end Sys2Proof.Laws.EncodeLength
end

