-- ==== Sys2Proof/Machine/Assembler.lean ====
section
/-! DEFINITION. The notation for host programs (30_encoding.md R105): what each line makes the host do. -/

namespace Sys2Proof.Machine

/-- The registers by name (R22). -/
inductive RegName where
  | cmd | status | err | cfg | blockSize | frameLen | bufLen | maxW | prevW | curW | consumed | pos | nextOff
  | aVal | aN | aK | aIdx | aOff | rVal
deriving DecidableEq, Repr

/-- The number of a register (R22). -/
def RegName.number (r : RegName) : Nat :=
  match r with
  | .cmd => 0
  | .status => 1
  | .err => 2
  | .cfg => 3
  | .blockSize => 4
  | .frameLen => 5
  | .bufLen => 6
  | .maxW => 7
  | .prevW => 8
  | .curW => 9
  | .consumed => 10
  | .pos => 11
  | .nextOff => 12
  | .aVal => 13
  | .aN => 14
  | .aK => 15
  | .aIdx => 16
  | .aOff => 17
  | .rVal => 18

/-- The fields of `CFG` by name (R24, R105). -/
inductive CfgField where
  | signedMode | srcClass | tgtSigned | tgtClass
deriving DecidableEq, Repr

/-- `CFG` with one field, at its place of R24, replaced and the others kept. A value too wide for the field
is cut to its low bits: neither R24 nor R105 says what `SET` does with it (DESIGN CHOICE, log entry 21). -/
def setCfgField (f : CfgField) (v : Nat) (cfg : Byte) : Byte :=
  match f with
  | .signedMode => (cfg &&& 0x3E#8) ||| BitVec.ofNat 8 (v % 2)
  | .srcClass => (cfg &&& 0x39#8) ||| BitVec.ofNat 8 (2 * (v % 4))
  | .tgtSigned => (cfg &&& 0x37#8) ||| BitVec.ofNat 8 (8 * (v % 2))
  | .tgtClass => (cfg &&& 0x0F#8) ||| BitVec.ofNat 8 (16 * (v % 4))

/-- The operands of a command line; one left out keeps its register's value. `n` and `w` both name `A_N`
(R105). -/
structure AsmOperands where
  val : Option Word := none
  n : Option Word := none
  k : Option Word := none
  idx : Option Word := none
  off : Option Word := none
deriving DecidableEq, Repr

/-- One line of a host program (R105). -/
inductive AsmLine where
  | set (r : RegName) (v : Word)
  | setField (f : CfgField) (v : Nat)
  | loadBuf (j : Nat) (bytes : List Byte)
  | loadVin (i : Nat) (values : List Word)
  | command (opcode : Byte) (operands : AsmOperands)
deriving DecidableEq, Repr

/-- The host writes of consecutive cells. -/
def loadCells {α : Type} (write : Nat → α → HostAction) (a : Nat) (values : List α) : List HostAction :=
  match values with
  | [] => []
  | v :: rest => write a v :: loadCells write (a + 1) rest

/-- The host write of an operand register, if the line names it (R105). -/
def setOperand (r : RegName) (v : Option Word) : List HostAction :=
  match v with
  | none => []
  | some x => [.writeReg r.number x]

/-- What a line makes the host do, when `CFG` holds `cfg` (R105). -/
def assembleLine (cfg : Byte) (line : AsmLine) : List HostAction :=
  match line with
  | .set r v => [.writeReg r.number v]
  | .setField f v => [.writeReg RegName.cfg.number ((setCfgField f v cfg).setWidth 64)]
  | .loadBuf j bytes => loadCells .writeBuf j bytes
  | .loadVin i values => loadCells .writeVin i values
  | .command opcode o =>
    setOperand .aVal o.val ++ setOperand .aN o.n ++ setOperand .aK o.k ++ setOperand .aIdx o.idx ++
      setOperand .aOff o.off ++ [.writeReg RegName.cmd.number (opcode.setWidth 64)]

/-- What `CFG` holds after a line (R24, R105, R211). A whole-register `SET` of `CFG` to 256 or more is refused
when its write is made (log entry 6), so what this says of it is never used; for a field too wide see
`setCfgField` (log entry 21). -/
def cfgAfter (cfg : Byte) (line : AsmLine) : Byte :=
  match line with
  | .set .cfg v => v.setWidth 8 &&& 0x3F#8
  | .setField f v => setCfgField f v cfg
  | .command opcode _ => if opcode = 0x7F#8 then 0#8 else cfg
  | _ => cfg

/-- A host program as the host's actions, `CFG` holding `cfg` before it (R105). -/
def assemble (cfg : Byte) (program : List AsmLine) : List HostAction :=
  match program with
  | [] => []
  | line :: rest => assembleLine cfg line ++ assemble (cfgAfter cfg line) rest

end Sys2Proof.Machine
end

