-- ==== Sys2Proof/Tests/Slice0.lean ====
section
/-! SUPPORT. Tests of the model against the spec's own words and vectors, and for every obligation that has
premises a state that meets them. Expected values are those of spec/95_test_vectors.md (V1 to V10, E1 to E6,
P1 to P5) or of the rule a comment names. A value memory is known to have at least one cell only (R4), so
what needs more cells is tested on the meaning's body, after its checks. -/

namespace Sys2Proof.Machine

/-! ### Helpers -/

/-- What holds of the state an outcome goes on in. -/
def after (o : Host.Outcome State Fault Refusal) (p : State → Bool) : Bool :=
  match o with
  | .next t => p t
  | .fault _ => false
  | .refused _ => false

/-- Cells `0, 1, …` holding these values. -/
def listed {w : Nat} (a : Nat) (values : List (BitVec w)) : List (Nat × BitVec w) :=
  match values with
  | [] => []
  | v :: rest => (a, v) :: listed (a + 1) rest

/-- The state after reset with these bytes in `BUF`, and `BUF_LEN` their number. -/
def bufState (bytes : List Byte) : State :=
  { State.reset with bufLen := BitVec.ofNat 64 bytes.length, buf := listed 0 bytes }

/-- The state after reset with `BUF_LEN`, `POS` and `A_N`, the buffer unwritten. -/
def cursorState (len pos n : Nat) : State :=
  { State.reset with
    bufLen := BitVec.ofNat 64 len, pos := BitVec.ofNat 64 pos, aN := BitVec.ofNat 8 n }

/-- A faulted core. -/
def faultedState : State := { cursorState 4 5 3 with status := 1#8, err := 4#8 }

/-! ### Well-formedness refuses what is no encoding -/

/-- R93: `a = 7` escapes. -/
theorem test_wellFormed_abs3 : (Instr.abs3 7#3).wellFormed = false ∧ (Instr.abs3 6#3).wellFormed = true := by
  decide

/-- R93: `b = 3` escapes. -/
theorem test_wellFormed_abs5 : (Instr.abs5 3#2).wellFormed = false ∧ (Instr.abs5 2#2).wellFormed = true := by
  decide

/-- R98: `c` is 0..54 in a legal header. -/
theorem test_wellFormed_abs11 :
    (Instr.abs11 55#6).wellFormed = false ∧ (Instr.abs11 54#6).wellFormed = true := by decide

/-- R98: `c` is 55..63 in the reserved one. -/
theorem test_wellFormed_abs11Illegal :
    (Instr.abs11Illegal 54#6).wellFormed = false ∧ (Instr.abs11Illegal 55#6).wellFormed = true := by decide

/-- R103, R104: an opcode is not illegal. -/
theorem test_wellFormed_illegal :
    (Instr.illegal 0x7F#8).wellFormed = false ∧ (Instr.illegal 0x13#8).wellFormed = true := by decide

/-! ### Decoding: words written out from the spec -/

/-- R103: the opcodes of the bit cursor. -/
theorem test_decode_cursor :
    decode (.command 0b00000001#8) = .ok .rdbit ∧ decode (.command 0b00000010#8) = .ok .rdbits ∧
    decode (.command 0b00000011#8) = .ok .wrbits ∧ decode (.command 0b00000100#8) = .ok .posbits ∧
    decode (.command 0b00000101#8) = .ok .align ∧ decode (.command 0b00000110#8) = .ok .seek := by decide

/-- R103: the opcodes of the block codec and of the header code. -/
theorem test_decode_block_header :
    decode (.command 0b00010000#8) = .ok .blkwidth ∧ decode (.command 0b00010001#8) = .ok .encblk ∧
    decode (.command 0b00010010#8) = .ok .decblk ∧ decode (.command 0b00100000#8) = .ok .enchdr ∧
    decode (.command 0b00100001#8) = .ok .dechdr := by decide

/-- R103: the opcodes of the frame codec and `RESET`. -/
theorem test_decode_frame_system :
    decode (.command 0b00110000#8) = .ok .encframe ∧ decode (.command 0b00110001#8) = .ok .decframe ∧
    decode (.command 0b00110010#8) = .ok .scanframe ∧ decode (.command 0b01111111#8) = .ok .reset := by
  decide

/-- R104 and V10: values that are no opcode. -/
theorem test_decode_illegal :
    decode (.command 0x00#8) = .ok (.illegal 0x00#8) ∧ decode (.command 0x07#8) = .ok (.illegal 0x07#8) ∧
    decode (.command 0x13#8) = .ok (.illegal 0x13#8) ∧ decode (.command 0x80#8) = .ok (.illegal 0x80#8) ∧
    decode (.command 0xFF#8) = .ok (.illegal 0xFF#8) := by decide

/-- V3: stream bits `1`, `0110` (width 3), `011101` (width 9), `011111011011` (width 64). -/
theorem test_decode_headers :
    decode (.header [true]) = .ok .reuse ∧
    decode (.header [false, true, true, false]) = .ok (.abs3 3#3) ∧
    decode (.header [false, true, true, true, false, true]) = .ok (.abs5 2#2) ∧
    decode (.header [false, true, true, true, true, true, false, true, true, false, true, true]) =
      .ok (.abs11 54#6) := by decide

/-- R98: `c = 55` is `111011`, least significant bit first; V3: the encoder's `0x53E` for width 30 (E4). -/
theorem test_decode_reserved_header :
    decode (.header [false, true, true, true, true, true, true, true, true, false, true, true]) =
      .ok (.abs11Illegal 55#6) ∧
    encode (.abs11 20#6) =
      .header [false, true, true, true, true, true, false, false, true, false, true, false] := by decide

/-- Rejected by name: bits that end inside a header, and bits left after one (R97). -/
theorem test_decode_rejects :
    decode (.header []) = .error .truncated ∧ decode (.header [false, true, true, true]) = .error .truncated ∧
    decode (.header [true, false]) = .error .trailing := by decide

/-- The opcode table's words, bit 0 the first (R103, R93). -/
theorem test_decodeTableWord :
    decodeTableWord 8 0x12 = some .decblk ∧ decodeTableWord 8 0x2E = some (.abs5 2#2) ∧
    decodeTableWord 8 0x00 = some (.abs3 0#3) ∧ decodeTableWord 8 0x0C = some (.abs3 6#3) ∧
    decodeTableWord 16 0x53E = some (.abs11 20#6) ∧ decodeTableWord 16 0xDFE = some (.abs11Illegal 55#6) ∧
    decodeTableWord 8 0xFF = some (.illegal 0xFF#8) := by decide

/-! ### The bit cursor -/

/-- V2 "single bits": `BUF[0] = 05`, the bit at `POS = 2` is 1. -/
theorem test_rdbit : after (exec .rdbit { bufState [0x05#8] with pos := 2#64 })
    (fun t => t.rVal = 1#64 && t.pos = 3#64) = true := by decide

/-- V2 "last bit": at the end of the buffer, `ReadOverrun` and `POS` unchanged. -/
theorem test_rdbit_overrun : after (exec .rdbit (cursorState 2 16 0))
    (fun t => t.status = 1#8 && t.err = 4#8 && t.pos = 16#64) = true := by decide

/-- V2 "read back": `FD 07`, eight bits from bit 3. -/
theorem test_rdbits : after (exec .rdbits { bufState [0xFD#8, 0x07#8] with pos := 3#64, aN := 8#8 })
    (fun t => t.rVal = 255#64 && t.pos = 11#64) = true := by decide

/-- V2 "straddling the end": `10 + 7 > 16`. -/
theorem test_rdbits_overrun : after (exec .rdbits (cursorState 2 10 7))
    (fun t => t.err = 4#8 && t.pos = 10#64 && t.rVal = 0#64) = true := by decide

/-- V1: `V = 0x8123456789ABCDEF`, `n = 64`, offset 7 spans nine bytes. -/
theorem test_wrbits_nine_bytes :
    after (exec .wrbits
      { bufState (List.replicate 9 0#8) with aVal := 0x8123456789ABCDEF#64, aN := 64#8, pos := 7#64 })
    (fun t => t.buf = listed 0 [0x80#8, 0xF7#8, 0xE6#8, 0xD5#8, 0xC4#8, 0xB3#8, 0xA2#8, 0x91#8, 0x40#8] &&
      t.pos = 71#64) = true := by decide

/-- V2 "OR, not store" and "value masked": `0xF0F` in 4 bits onto `A5`. -/
theorem test_wrbits_or : after (exec .wrbits { bufState [0xA5#8] with aVal := 0xF0F#64, aN := 4#8 })
    (fun t => t.buf = [(0, 0xAF#8)] && t.pos = 4#64) = true := by decide

/-- V2 "position". -/
theorem test_posbits : after (exec .posbits (cursorState 2 11 0)) (fun t => t.rVal = 11#64) = true := by decide

/-- V2 "align": 11 to 16 and 16 to 16. -/
theorem test_align : after (exec .align (cursorState 2 11 0)) (fun t => t.pos = 16#64) = true ∧
    after (exec .align (cursorState 2 16 0)) (fun t => t.pos = 16#64) = true := by decide

/-- V2 "seek": `BUF_LEN = 4`, offsets 4 and 5. -/
theorem test_seek : after (exec .seek { cursorState 4 1 0 with aOff := 4#64 }) (fun t => t.pos = 32#64) = true ∧
    after (exec .seek { cursorState 4 1 0 with aOff := 5#64 })
      (fun t => t.err = 7#8 && t.pos = 1#64) = true := by decide

/-! ### The block codec -/

/-- V5: signed 8-bit −128 is 8 wide (the type minimum); the cell's upper bits are ignored. -/
theorem test_blkwidth : after (exec .blkwidth
    { State.reset with cfg := 0x01#8, aK := 1#64, vin := [(0, 0xFFFFFFFFFFFFFF80#64)] })
    (fun t => t.rVal = 8#64) = true := by decide

/-- V5: signed 16-bit −300, 300, −128, 127, −129, 128, −1, 0 are 10 wide; −1 alone is 2. -/
theorem test_blockWidth :
    let s := { State.reset with
      cfg := 0x03#8
      vin := listed 0 [0xFED4#64, 300#64, 0xFF80#64, 127#64, 0xFF7F#64, 128#64, 0xFFFF#64, 0#64] }
    blockWidth s 0 8 = 10 ∧ blockWidth s 6 1 = 2 ∧ blockWidth s 7 1 = 0 := by decide

/-- V6 block A: unsigned 1, 2, 3, 7 in 3 bits are `D1 0E`. -/
theorem test_encBlock :
    (encBlock 0 4 3 { bufState [0#8, 0#8] with vin := listed 0 [1#64, 2#64, 3#64, 7#64] }).state.buf =
      [(0, 0xD1#8), (1, 0x0E#8)] := by decide

/-- V6 block C through the command: signed −128 in 8 bits. -/
theorem test_encblk : after (exec .encblk
    { bufState [0#8] with cfg := 0x01#8, aK := 1#64, aN := 8#8, vin := [(0, 0x80#64)] })
    (fun t => t.buf = [(0, 0x80#8)] && t.pos = 8#64) = true := by decide

/-- V7 block B into a signed 16-bit sink: the upper 48 bits of each cell are 0. -/
theorem test_decBlock :
    (decBlock 0 4 3 { bufState [0x8F#8, 0x01#8] with cfg := 0x19#8 }).state.vout =
      listed 0 [0xFFFF#64, 1#64, 0xFFFE#64, 0#64] := by decide

/-- V8: 256 in 12 bits, unsigned, into a signed 8-bit sink saturates to 127. -/
theorem test_decblk : after (exec .decblk
    { bufState [0x00#8, 0x01#8] with cfg := 0x08#8, aK := 1#64, aN := 12#8 })
    (fun t => t.vout = [(0, 0x7F#64)] && t.pos = 12#64) = true := by decide

/-! ### The header code -/

/-- V3: width 64 after another width is `BE 0D`, twelve bits. -/
theorem test_enchdr : after (exec .enchdr { bufState [0#8, 0#8] with aN := 64#8 })
    (fun t => t.buf = [(0, 0xBE#8), (1, 0x0D#8)] && t.pos = 12#64 && t.prevW = 64#7 && t.curW = 64#7) = true := by
  decide

/-- R160: the width already held goes out as one bit. -/
theorem test_enchdr_reuse : after (exec .enchdr { bufState [0#8] with aN := 64#8, prevW := 64#7 })
    (fun t => t.buf = [(0, 0x01#8)] && t.pos = 1#64 && t.prevW = 64#7 && t.curW = 64#7) = true := by decide

/-- V4: `2E 00` is width 9. -/
theorem test_dechdr : after (exec .dechdr { bufState [0x2E#8, 0#8] with prevW := 5#7 })
    (fun t => t.rVal = 9#64 && t.prevW = 9#7 && t.curW = 9#7 && t.pos = 6#64) = true := by decide

/-- V4: `FE 0D` is width 65. -/
theorem test_dechdr_reserved : after (exec .dechdr { bufState [0xFE#8, 0x0D#8] with prevW := 5#7 })
    (fun t => t.err = 6#8 && t.prevW = 5#7 && t.rVal = 0#64 && t.pos = 12#64) = true := by decide

/-- V4: `REUSE` after width 5. -/
theorem test_reuse : after (exec .reuse { cursorState 2 0 0 with prevW := 5#7 })
    (fun t => t.curW = 5#7 && t.prevW = 5#7 && t.pos = 1#64) = true := by decide

/-- V4: `0C` is width 6. -/
theorem test_abs3 : after (exec (.abs3 6#3) { cursorState 2 0 0 with prevW := 5#7 })
    (fun t => t.curW = 6#7 && t.prevW = 6#7 && t.pos = 4#64) = true := by decide

/-- V4: `1E` is width 8. -/
theorem test_abs5 : after (exec (.abs5 1#2) { cursorState 2 0 0 with prevW := 5#7 })
    (fun t => t.curW = 8#7 && t.prevW = 8#7 && t.pos = 6#64) = true := by decide

/-- V4: `3E 05` is width 30. -/
theorem test_abs11 : after (exec (.abs11 20#6) { cursorState 2 0 0 with prevW := 5#7 })
    (fun t => t.curW = 30#7 && t.prevW = 30#7 && t.pos = 12#64) = true := by decide

/-- V4: `FE 0F` is width 73, refused by the core with its fault. -/
theorem test_abs11Illegal : after (exec (.abs11Illegal 63#6) { cursorState 2 0 0 with prevW := 5#7 })
    (fun t => t.err = 6#8 && t.curW = 0#7 && t.prevW = 5#7 && t.pos = 12#64) = true := by decide

/-! ### The frame codec -/

/-- V9: the signed 64-bit −1 as a frame of one value is `34`. -/
theorem test_encframe : after (exec .encframe
    { bufState [0#8] with cfg := 0x07#8, frameLen := 1#64, vin := [(0, 0xFFFFFFFFFFFFFFFF#64)] })
    (fun t => t.buf = [(0, 0x34#8)] && t.nextOff = 1#64 && t.pos = 8#64 && t.maxW = 2#7) = true := by decide

/-- P2 line 01: three blocks, `36 3C E0 B2 04`. -/
theorem test_encframe_blocks :
    let s := { bufState (List.replicate 5 0#8) with
      cfg := 0x02#8, blockSize := 4#64, frameLen := 9#64
      vin := listed 0 [3#64, 0#64, 7#64, 1#64, 0#64, 0#64, 0#64, 0#64, 300#64] }
    let t := (runFrame encFrameBlock s).state
    t.buf = listed 0 [0x36#8, 0x3C#8, 0xE0#8, 0xB2#8, 0x04#8] ∧ t.pos = 40#64 ∧ t.prevW = 9#7 ∧
      t.maxW = 9#7 ∧ t.consumed = 9#64 ∧ t.nextOff = 5#64 := by decide

/-- P3 line 05: frame A, `76 15 00`, into a signed 16-bit sink. -/
theorem test_decframe_blocks :
    let s := { bufState [0x76#8, 0x15#8, 0x00#8] with cfg := 0x19#8, blockSize := 3#64, frameLen := 5#64 }
    let t := (runFrame decFrameBlock s).state
    t.vout = listed 0 [0xFFFF#64, 2#64, 0xFFFD#64, 0#64, 0#64] ∧ t.pos = 24#64 ∧ t.prevW = 0#7 ∧
      t.nextOff = 3#64 := by decide

/-- P4b: `FE 0D` ends the frame with `WidthOutOfRange`, `POS = 12`, `PREV_W` cleared by the frame start. -/
theorem test_decframe_reserved : after (exec .decframe
    { bufState [0xFE#8, 0x0D#8] with blockSize := 4#64, frameLen := 1#64, prevW := 5#7 })
    (fun t => t.err = 6#8 && t.pos = 12#64 && t.prevW = 0#7 && t.consumed = 0#64 && t.vout = []) = true := by
  decide

/-- P3 line 03: the scan of frame A ends at `POS = 24`, `NEXT_OFF = 3`, whatever the sink's class. -/
theorem test_scanframe : after (exec .scanframe
    { bufState [0x76#8, 0x15#8, 0x00#8] with cfg := 0x01#8, blockSize := 3#64, frameLen := 5#64 })
    (fun t => t.pos = 24#64 && t.nextOff = 3#64 && t.consumed = 5#64 && t.vout = []) = true := by decide

/-- P4c: the last field is cut off: `ReadOverrun` at `POS = 26` after two blocks of four. -/
theorem test_scanframe_truncated : after (exec .scanframe
    { bufState [0x36#8, 0x3C#8, 0xE0#8, 0xB2#8] with blockSize := 4#64, frameLen := 9#64 })
    (fun t => t.err = 4#8 && t.pos = 26#64 && t.consumed = 8#64 && t.nextOff = 0#64) = true := by decide

/-! ### System operations and the host -/

/-- V10: `RESET` of a faulted core. -/
theorem test_reset : after (exec .reset { faultedState with blockSize := 3#64, buf := [(0, 7#8)] })
    (fun t => t = { State.reset with buf := [(0, 7#8)] }) = true := by decide

/-- V10: `0x13` written to `CMD` raises `IllegalCommand`, and a faulted core ignores it. -/
theorem test_illegal :
    after (step { cursorState 4 5 3 with host := [.writeReg 0 0x13#64] })
      (fun t => t = { cursorState 4 5 3 with status := 1#8, err := 9#8 }) = true ∧
    after (step { faultedState with host := [.writeReg 0 0x13#64] }) (fun t => t = faultedState) = true := by
  decide

/-- P1 lines 01 and 02 as host accesses (R105): after four of them `CMD` is written with `A_N = 3`. -/
theorem test_assemble :
    assemble 0#8 [.command 0x06#8 { off := some 0#64 }, .command 0x03#8 { val := some 5#64, n := some 3#64 }] =
      [.writeReg 17 0#64, .writeReg 0 0x06#64, .writeReg 13 5#64, .writeReg 14 3#64, .writeReg 0 0x03#64] := by
  decide

/-- P2: `SET TGT_CLASS, 1` on `CFG = 0x02` makes it `0x12`; R24: the reserved bits are dropped. -/
theorem test_cfg : setCfgField .tgtClass 1 0x02#8 = 0x12#8 ∧
    after (step { State.reset with host := [.writeReg 3 0xFF#64] }) (fun t => t.cfg = 0x3F#8) = true := by decide

/-- R28: `MAX_W` ignores 65 and takes 64. -/
theorem test_maxW :
    after (step { State.reset with maxW := 3#7, host := [.writeReg 7 65#64] }) (fun t => t.maxW = 3#7) = true ∧
    after (step { State.reset with maxW := 3#7, host := [.writeReg 7 64#64] }) (fun t => t.maxW = 64#7) = true := by
  decide

/-- The first instruction after reset: an opcode written to `CMD`, and a header fetched by `DECHDR` (R93). -/
theorem test_withFetchWord :
    after (step (State.reset.withFetchWord 8 0x04)) (fun t => t = State.reset) = true ∧
    after (step (State.reset.withFetchWord 8 0x2E)) (fun t => t.curW = 9#7 && t.pos = 6#64) = true := by decide

/-! ### Witnesses: the premises of every obligation that has any are met together -/

theorem one_le_valCap : 1 ≤ Config.valCap := Nat.succ_le_succ (Nat.zero_le _)

theorem one_le_bufCap : 1 ≤ Config.bufCap := Nat.succ_le_succ (Nat.zero_le _)

theorem valCap_lt : Config.valCap < 2 ^ 64 := by
  have := Config.valCapPred.isLt
  unfold Config.valCap
  omega

/-- `VAL_CAP` as a register's value: the first index past the end. -/
def capWord : Word := BitVec.ofNat 64 Config.valCap

/-- `VAL_CAP - 1` as a register's value: the last index. -/
def lastWord : Word := BitVec.ofNat 64 (Config.valCap - 1)

theorem capWord_toNat : capWord.toNat = Config.valCap := by
  rw [capWord, BitVec.toNat_ofNat, Nat.mod_eq_of_lt valCap_lt]

theorem lastWord_toNat : lastWord.toNat + 1 = Config.valCap := by
  have := valCap_lt
  have := one_le_valCap
  rw [lastWord, BitVec.toNat_ofNat, Nat.mod_eq_of_lt (by omega)]
  omega

theorem witness_DecodeInvertsEncode :
    (∃ i : Instr, i.wellFormed = true) ∧ (∃ (c : Code) (i : Instr), decode c = .ok i) :=
  ⟨⟨.abs11 54#6, by decide⟩, ⟨.command 0x00#8, .illegal 0x00#8, by decide⟩⟩

theorem witness_HeaderDecodesBeforeAnyBits :
    (∃ (f : HeaderForm) (_ : List Bool), f.wellFormed = true) ∧
    (∃ f g : HeaderForm, f.wellFormed = true ∧ g.wellFormed = true ∧ f.bits <+: g.bits) :=
  ⟨⟨.abs11Illegal 55#6, [true], by decide⟩, ⟨.abs3 6#3, .abs3 6#3, by decide⟩⟩

theorem witness_HeadersOfDifferentWidthsDiffer :
    ∃ prev w : Nat, w ≤ 64 ∧ ∃ v, v ≤ 64 ∧ (formFor w prev).bits = (formFor v prev).bits :=
  ⟨0, 64, by decide, 64, by decide⟩

theorem witness_RdbitsReadsAField :
    (∃ s : State, Running s ∧ 64 < s.aN.toNat) ∧
    (∃ s : State, Running s ∧ s.aN.toNat ≤ 64 ∧ ¬Fits s s.aN.toNat) ∧
    (∃ s : State, Running s ∧ s.aN.toNat ≤ 64 ∧ Fits s s.aN.toNat ∧ s.aN.toNat = 64) ∧
    (∃ s : State, Running s ∧ s.aN.toNat ≤ 64 ∧ Fits s s.aN.toNat ∧ s.aN.toNat = 0) :=
  ⟨⟨cursorState 8 0 65, by decide⟩, ⟨cursorState 8 1 64, by decide⟩, ⟨cursorState 8 0 64, by decide⟩,
    ⟨cursorState 8 64 0, by decide⟩⟩

theorem witness_RdbitReadsOneBit :
    (∃ s : State, Running s ∧ Fits s 1) ∧ (∃ s : State, Running s ∧ ¬Fits s 1) :=
  ⟨⟨cursorState 2 15 0, by decide⟩, ⟨cursorState 2 16 0, by decide⟩⟩

theorem witness_WrbitsOrsAField :
    (∃ s : State, Running s ∧ 64 < s.aN.toNat) ∧
    (∃ s : State, Running s ∧ s.aN.toNat ≤ 64 ∧ ¬Fits s s.aN.toNat) ∧
    (∃ s : State, Running s ∧ s.aN.toNat ≤ 64 ∧ Fits s s.aN.toNat ∧ s.aN.toNat = 64) ∧
    (∃ s : State, Running s ∧ s.aN.toNat ≤ 64 ∧ Fits s s.aN.toNat ∧ s.aN.toNat = 0) :=
  ⟨⟨cursorState 8 0 255, by decide⟩, ⟨cursorState 2 16 1, by decide⟩, ⟨cursorState 9 7 64, by decide⟩,
    ⟨cursorState 2 16 0, by decide⟩⟩

theorem witness_PosbitsReportsThePosition : ∃ s : State, Running s := ⟨cursorState 2 11 0, by decide⟩

theorem witness_AlignRoundsThePositionUp :
    (∃ s : State, Running s ∧ s.pos.toNat ≤ 2 ^ 64 - 8 ∧ s.pos.toNat = 2 ^ 64 - 8) ∧
    (∃ s : State, Running s ∧ s.pos.toNat ≤ 2 ^ 64 - 8 ∧ s.pos.toNat ≤ 8 * s.bufLen.toNat) :=
  ⟨⟨cursorState 0 (2 ^ 64 - 8) 0, by decide⟩, ⟨cursorState 2 15 0, by decide⟩⟩

theorem witness_SeekPlacesTheCursor :
    (∃ s : State, Running s ∧ NoWrap s ∧ s.bufLen.toNat < s.aOff.toNat) ∧
    (∃ s : State, Running s ∧ NoWrap s ∧ s.aOff.toNat ≤ s.bufLen.toNat) :=
  ⟨⟨{ cursorState 4 1 0 with aOff := 5#64 }, by decide⟩, ⟨{ cursorState 4 1 0 with aOff := 4#64 }, by decide⟩⟩

theorem witness_ReadAfterWrite :
    ∃ s : State, Running s ∧ NoWrap s ∧ s.aN.toNat ≤ 64 ∧ Fits s s.aN.toNat ∧
      (∀ i, i < s.aN.toNat → s.bufBit (s.pos.toNat + i) = false) :=
  ⟨{ bufState (List.replicate 9 0#8) with pos := 7#64, aN := 64#8 }, by decide⟩

theorem witness_WritesConcatenate :
    ∃ (s : State) (_ _ : Word) (n1 n2 : Nat), Running s ∧ NoWrap s ∧ n1 + n2 ≤ 64 ∧ Fits s (n1 + n2) :=
  ⟨cursorState 8 0 0, 5#64, 255#64, 3, 61, by decide⟩

theorem witness_ReadsConcatenate :
    ∃ (s : State) (n1 n2 : Nat), Running s ∧ NoWrap s ∧ n1 + n2 ≤ 64 ∧ Fits s (n1 + n2) :=
  ⟨cursorState 9 8 0, 0, 64, by decide⟩

/-- Its clauses, the ones on `VAL_CAP` at the boundary: the cell past the end, and up to the end. -/
theorem witness_BlkwidthComputesTheWidth :
    (∃ s : State, Running s ∧ s.blockSize = 0#64) ∧
    (∃ s : State, Running s ∧ s.blockSize ≠ 0#64 ∧ s.blockSize.toNat < s.aK.toNat) ∧
    (∃ s : State, Running s ∧ s.blockSize ≠ 0#64 ∧ s.aK.toNat ≤ s.blockSize.toNat ∧
      Config.valCap < s.aIdx.toNat + s.aK.toNat) ∧
    (∃ s : State, Running s ∧ s.blockSize ≠ 0#64 ∧ s.aK.toNat ≤ s.blockSize.toNat ∧
      s.aIdx.toNat + s.aK.toNat ≤ Config.valCap ∧ s.aK.toNat = 1) :=
  ⟨⟨{ State.reset with blockSize := 0#64 }, by decide⟩, ⟨{ State.reset with aK := 13#64 }, by decide⟩,
    ⟨{ State.reset with aK := 1#64, aIdx := capWord }, by decide, by decide, by decide,
      Nat.lt_succ_of_le (Nat.le_of_eq capWord_toNat.symm)⟩,
    ⟨{ State.reset with aK := 1#64, aIdx := lastWord }, by decide, by decide, by decide,
      Nat.le_of_eq lastWord_toNat, by decide⟩⟩

theorem witness_BlockWidthHoldsEveryValue :
    ∃ (s : State) (idx k i w : Nat), s.signedMode = true ∧ i < k ∧ blockWidth s idx k ≤ w ∧ 0 < w :=
  ⟨{ State.reset with cfg := 0x01#8, vin := [(0, 0x80#64)] }, 0, 1, 0, 8, by decide⟩

/-- A width of 0, a field of 64 bits that ends with the buffer, taken from the last cell, and no field with
the cursor past the end. -/
theorem witness_EncblkWritesTheFields :
    (∃ s : State, Running s ∧ NoWrap s ∧ s.blockSize ≠ 0#64 ∧ s.aN.toNat ≤ 64 ∧
      s.aK.toNat ≤ s.blockSize.toNat ∧ s.aIdx.toNat + s.aK.toNat ≤ Config.valCap ∧
      (s.aN.toNat = 0 ∨ s.aK.toNat = 0 ∨ Fits s (s.aK.toNat * s.aN.toNat)) ∧ s.aN.toNat = 0) ∧
    (∃ s : State, Running s ∧ NoWrap s ∧ s.blockSize ≠ 0#64 ∧ s.aN.toNat ≤ 64 ∧
      s.aK.toNat ≤ s.blockSize.toNat ∧ s.aIdx.toNat + s.aK.toNat ≤ Config.valCap ∧
      (s.aN.toNat = 0 ∨ s.aK.toNat = 0 ∨ Fits s (s.aK.toNat * s.aN.toNat)) ∧ s.aN.toNat = 64) ∧
    (∃ s : State, Running s ∧ NoWrap s ∧ s.blockSize ≠ 0#64 ∧ s.aN.toNat ≤ 64 ∧
      s.aK.toNat ≤ s.blockSize.toNat ∧ s.aIdx.toNat + s.aK.toNat ≤ Config.valCap ∧
      (s.aN.toNat = 0 ∨ s.aK.toNat = 0 ∨ Fits s (s.aK.toNat * s.aN.toNat)) ∧ s.aN.toNat = 1 ∧
      8 * s.bufLen.toNat < s.pos.toNat) :=
  ⟨⟨{ cursorState 1 8 0 with aK := 1#64 }, by decide⟩,
    ⟨{ cursorState 8 0 64 with aK := 1#64, aIdx := lastWord }, by decide, by decide, by decide, by decide,
      by decide, Nat.le_of_eq lastWord_toNat, by decide, by decide⟩,
    ⟨cursorState 1 9 1, by decide⟩⟩

/-- No field fits; and, where there are two cells, the first fits and the second does not. -/
theorem witness_EncblkOverrunKeepsWholeFields :
    (∃ (s : State) (m : Nat), Running s ∧ NoWrap s ∧ s.blockSize ≠ 0#64 ∧ s.aN.toNat ≤ 64 ∧
      s.aK.toNat ≤ s.blockSize.toNat ∧ s.aIdx.toNat + s.aK.toNat ≤ Config.valCap ∧
      s.aN.toNat ≠ 0 ∧ m < s.aK.toNat ∧ (m = 0 ∨ Fits s (m * s.aN.toNat)) ∧
      ¬Fits s (m * s.aN.toNat + s.aN.toNat)) ∧
    (2 ≤ Config.valCap →
      ∃ (s : State) (m : Nat), Running s ∧ NoWrap s ∧ s.blockSize ≠ 0#64 ∧ s.aN.toNat ≤ 64 ∧
        s.aK.toNat ≤ s.blockSize.toNat ∧ s.aIdx.toNat + s.aK.toNat ≤ Config.valCap ∧
        s.aN.toNat ≠ 0 ∧ m < s.aK.toNat ∧ (m = 0 ∨ Fits s (m * s.aN.toNat)) ∧
        ¬Fits s (m * s.aN.toNat + s.aN.toNat) ∧ m = 1) :=
  ⟨⟨{ cursorState 8 1 64 with aK := 1#64 }, 0, by decide⟩, fun h =>
    ⟨{ cursorState 1 1 7 with aK := 2#64 }, 1, by decide, by decide, by decide, by decide, by decide, h,
      by decide, by decide, by decide, by decide, by decide⟩⟩

/-- A width of 0, a signed field of 64 bits that ends with the buffer, stored in the last cell, and no field
with the cursor past the end. -/
theorem witness_DecblkStoresTheValues :
    (∃ s : State, Running s ∧ NoWrap s ∧ s.blockSize ≠ 0#64 ∧ s.aN.toNat ≤ 64 ∧
      s.aK.toNat ≤ s.blockSize.toNat ∧ (s.signedMode = true → s.tgtSigned = true) ∧
      s.aIdx.toNat + s.aK.toNat ≤ Config.valCap ∧
      (s.aN.toNat = 0 ∨ s.aK.toNat = 0 ∨ Fits s (s.aK.toNat * s.aN.toNat)) ∧ s.aN.toNat = 0) ∧
    (∃ s : State, Running s ∧ NoWrap s ∧ s.blockSize ≠ 0#64 ∧ s.aN.toNat ≤ 64 ∧
      s.aK.toNat ≤ s.blockSize.toNat ∧ (s.signedMode = true → s.tgtSigned = true) ∧
      s.aIdx.toNat + s.aK.toNat ≤ Config.valCap ∧
      (s.aN.toNat = 0 ∨ s.aK.toNat = 0 ∨ Fits s (s.aK.toNat * s.aN.toNat)) ∧ s.signedMode = true ∧
      s.aN.toNat = 64) ∧
    (∃ s : State, Running s ∧ NoWrap s ∧ s.blockSize ≠ 0#64 ∧ s.aN.toNat ≤ 64 ∧
      s.aK.toNat ≤ s.blockSize.toNat ∧ (s.signedMode = true → s.tgtSigned = true) ∧
      s.aIdx.toNat + s.aK.toNat ≤ Config.valCap ∧
      (s.aN.toNat = 0 ∨ s.aK.toNat = 0 ∨ Fits s (s.aK.toNat * s.aN.toNat)) ∧ s.aN.toNat = 1 ∧
      8 * s.bufLen.toNat < s.pos.toNat) :=
  ⟨⟨{ cursorState 1 8 0 with aK := 1#64 }, by decide⟩,
    ⟨{ cursorState 8 0 64 with cfg := 0x09#8, aK := 1#64, aIdx := lastWord }, by decide, by decide, by decide,
      by decide, by decide, by decide, Nat.le_of_eq lastWord_toNat, by decide, by decide, by decide⟩,
    ⟨cursorState 1 9 1, by decide⟩⟩

theorem witness_DecblkOverrunKeepsWholeElements :
    (∃ (s : State) (m : Nat), Running s ∧ NoWrap s ∧ s.blockSize ≠ 0#64 ∧ s.aN.toNat ≤ 64 ∧
      s.aK.toNat ≤ s.blockSize.toNat ∧ (s.signedMode = true → s.tgtSigned = true) ∧
      s.aIdx.toNat + s.aK.toNat ≤ Config.valCap ∧
      s.aN.toNat ≠ 0 ∧ m < s.aK.toNat ∧ (m = 0 ∨ Fits s (m * s.aN.toNat)) ∧
      ¬Fits s (m * s.aN.toNat + s.aN.toNat)) ∧
    (2 ≤ Config.valCap →
      ∃ (s : State) (m : Nat), Running s ∧ NoWrap s ∧ s.blockSize ≠ 0#64 ∧ s.aN.toNat ≤ 64 ∧
        s.aK.toNat ≤ s.blockSize.toNat ∧ (s.signedMode = true → s.tgtSigned = true) ∧
        s.aIdx.toNat + s.aK.toNat ≤ Config.valCap ∧
        s.aN.toNat ≠ 0 ∧ m < s.aK.toNat ∧ (m = 0 ∨ Fits s (m * s.aN.toNat)) ∧
        ¬Fits s (m * s.aN.toNat + s.aN.toNat) ∧ m = 1) :=
  ⟨⟨{ cursorState 8 1 64 with cfg := 0x09#8, aK := 1#64 }, 0, by decide⟩, fun h =>
    ⟨{ cursorState 1 1 7 with aK := 2#64 }, 1, by decide, by decide, by decide, by decide, by decide,
      by decide, h, by decide, by decide, by decide, by decide, by decide⟩⟩

/-- Each clause at its boundary: `A_N = 65`, `A_K = BLOCK_SIZE + 1`, the cell past the end. -/
theorem witness_BlockCommandCheckOrder :
    (∃ s : State, Running s ∧ s.blockSize = 0#64) ∧
    (∃ s : State, Running s ∧ s.blockSize ≠ 0#64 ∧ 64 < s.aN.toNat) ∧
    (∃ s : State, Running s ∧ s.blockSize ≠ 0#64 ∧ s.blockSize.toNat < s.aK.toNat) ∧
    (∃ s : State, Running s ∧ s.blockSize ≠ 0#64 ∧ s.aN.toNat ≤ 64 ∧ s.aK.toNat ≤ s.blockSize.toNat ∧
      s.signedMode = true ∧ s.tgtSigned = false) ∧
    (∃ s : State, Running s ∧ s.blockSize ≠ 0#64 ∧ s.aN.toNat ≤ 64 ∧ s.aK.toNat ≤ s.blockSize.toNat ∧
      Config.valCap < s.aIdx.toNat + s.aK.toNat ∧ (s.signedMode = true → s.tgtSigned = true)) :=
  ⟨⟨{ cursorState 4 0 70 with blockSize := 0#64 }, by decide⟩, ⟨cursorState 4 0 65, by decide⟩,
    ⟨{ cursorState 4 0 3 with aK := 13#64 }, by decide⟩, ⟨{ cursorState 4 0 64 with cfg := 0x01#8 }, by decide⟩,
    ⟨{ cursorState 4 0 64 with aK := 1#64, aIdx := capWord }, by decide, by decide, by decide, by decide,
      Nat.lt_succ_of_le (Nat.le_of_eq capWord_toNat.symm), by decide⟩⟩

/-- Each clause, at `w = T` and at the first field that does not fit. -/
theorem witness_DecodedValuesSaturate :
    (∃ (s : State) (f w : Nat), 0 < w ∧ f < 2 ^ w ∧ s.signedMode = true ∧ w ≤ s.tgtWidth) ∧
    (∃ (s : State) (f w : Nat), 0 < w ∧ f < 2 ^ w ∧ s.signedMode = false ∧ f < 2 ^ s.tgtWidth) ∧
    (∃ (s : State) (f w : Nat), 0 < w ∧ f < 2 ^ w ∧ s.signedMode = false ∧ 2 ^ s.tgtWidth ≤ f) :=
  ⟨⟨{ State.reset with cfg := 0x09#8 }, 0x80, 8, by decide⟩, ⟨State.reset, 255, 12, by decide⟩,
    ⟨State.reset, 256, 12, by decide⟩⟩

/-- Equal signedness, and unsigned values in a wider signed sink. -/
theorem witness_BlockRoundTrip :
    (∃ s : State, Running s ∧ NoWrap s ∧ s.blockSize ≠ 0#64 ∧ s.aN.toNat ≤ 64 ∧
      s.aK.toNat ≤ s.blockSize.toNat ∧ s.aIdx.toNat + s.aK.toNat ≤ Config.valCap ∧
      (s.aN.toNat = 0 ∨ s.aK.toNat = 0 ∨ Fits s (s.aK.toNat * s.aN.toNat)) ∧
      (∀ i, i < s.aK.toNat * s.aN.toNat → s.bufBit (s.pos.toNat + i) = false) ∧
      blockWidth s s.aIdx.toNat s.aK.toNat ≤ s.aN.toNat ∧
      s.tgtSigned = s.signedMode ∧ s.srcWidth ≤ s.tgtWidth ∧ s.signedMode = true) ∧
    (∃ s : State, Running s ∧ NoWrap s ∧ s.blockSize ≠ 0#64 ∧ s.aN.toNat ≤ 64 ∧
      s.aK.toNat ≤ s.blockSize.toNat ∧ s.aIdx.toNat + s.aK.toNat ≤ Config.valCap ∧
      (s.aN.toNat = 0 ∨ s.aK.toNat = 0 ∨ Fits s (s.aK.toNat * s.aN.toNat)) ∧
      (∀ i, i < s.aK.toNat * s.aN.toNat → s.bufBit (s.pos.toNat + i) = false) ∧
      blockWidth s s.aIdx.toNat s.aK.toNat ≤ s.aN.toNat ∧
      s.signedMode = false ∧ s.tgtSigned = true ∧ s.aN.toNat < s.tgtWidth) :=
  ⟨⟨{ bufState [0#8] with cfg := 0x09#8, aK := 1#64, aN := 8#8, vin := [(0, 0x80#64)] }, by decide⟩,
    ⟨{ bufState [0#8] with cfg := 0x08#8, aK := 1#64, aN := 7#8, vin := [(0, 0x7F#64)] }, by decide⟩⟩

/-- The width already held, the widths at the edge of each form, and the two faults. -/
theorem witness_EnchdrWritesTheHeader :
    let header (s : State) (w H L : Nat) : Prop := w = s.aN.toNat ∧
      (H, L) = (if w = s.prevW.toNat then (1, 1)
        else if w < 7 then (2 * w, 4)
        else if w < 10 then (0x0E + 16 * (w - 7), 6)
        else (0x3E + 64 * (w - 10), 12))
    (∃ (s : State) (w H L : Nat), Running s ∧ header s w H L ∧ 64 < w) ∧
    (∃ (s : State) (w H L : Nat), Running s ∧ header s w H L ∧ w ≤ 64 ∧ ¬Fits s L) ∧
    (∃ (s : State) (w H L : Nat), Running s ∧ header s w H L ∧ w ≤ 64 ∧ Fits s L ∧ L = 1) ∧
    (∃ (s : State) (w H L : Nat), Running s ∧ header s w H L ∧ w ≤ 64 ∧ Fits s L ∧ w = 6) ∧
    (∃ (s : State) (w H L : Nat), Running s ∧ header s w H L ∧ w ≤ 64 ∧ Fits s L ∧ w = 7) ∧
    (∃ (s : State) (w H L : Nat), Running s ∧ header s w H L ∧ w ≤ 64 ∧ Fits s L ∧ w = 64) := by
  refine ⟨⟨cursorState 2 0 65, 65, 0x3E + 64 * 55, 12, ?_⟩, ⟨cursorState 2 5 64, 64, 0xDBE, 12, ?_⟩,
    ⟨cursorState 1 7 0, 0, 1, 1, ?_⟩, ⟨cursorState 1 4 6, 6, 0x0C, 4, ?_⟩, ⟨cursorState 1 2 7, 7, 0x0E, 6, ?_⟩,
    ⟨cursorState 2 4 64, 64, 0xDBE, 12, ?_⟩⟩ <;> dsimp only <;> decide

/-- `BE 0D` in the last twelve bits of the buffer is width 64. -/
theorem witness_DechdrDecodesTheHeader :
    ∃ (s : State) (f : HeaderForm), Running s ∧ NoWrap s ∧ f.legal = true ∧ Fits s f.length ∧
      holdsBits s s.pos.toNat f.bits :=
  ⟨{ bufState [0xE0#8, 0xDB#8] with pos := 4#64 }, .abs11 54#6, by unfold holdsBits; decide⟩

/-- The least reserved `c`, 55, and the greatest, 63 (V4). -/
theorem witness_DechdrRefusesWidthsAbove64 :
    (∃ (s : State) (c : BitVec 6), Running s ∧ NoWrap s ∧ 54 < c.toNat ∧ Fits s 12 ∧
      holdsBits s s.pos.toNat
        ([false, true, true, true, true, true] ++ (List.range 6).map fun i => c.getLsbD i) ∧ c = 55#6) ∧
    (∃ (s : State) (c : BitVec 6), Running s ∧ NoWrap s ∧ 54 < c.toNat ∧ Fits s 12 ∧
      holdsBits s s.pos.toNat
        ([false, true, true, true, true, true] ++ (List.range 6).map fun i => c.getLsbD i) ∧ c = 63#6) :=
  ⟨⟨bufState [0xFE#8, 0x0D#8], 55#6, by unfold holdsBits; decide⟩,
    ⟨bufState [0xFE#8, 0x0F#8], 63#6, by unfold holdsBits; decide⟩⟩

/-- The buffer ends before each of the four fields. -/
theorem witness_DechdrStopsAtTheFirstMissingField :
    ∀ p n, (p, n) ∈ [([], 1), ([false], 3), ([false, true, true, true], 2),
        ([false, true, true, true, true, true], 6)] →
      ∃ s : State, Running s ∧ NoWrap s ∧ holdsBits s s.pos.toNat p ∧ (p = [] ∨ Fits s p.length) ∧
        ¬Fits s (p.length + n) := by
  intro p n h
  simp only [List.mem_cons, List.not_mem_nil, or_false, Prod.mk.injEq] at h
  obtain ⟨rfl, rfl⟩ | ⟨rfl, rfl⟩ | ⟨rfl, rfl⟩ | ⟨rfl, rfl⟩ := h
  · exact ⟨cursorState 1 8 0, by unfold holdsBits; decide⟩
  · exact ⟨{ bufState [0x00#8] with pos := 5#64 }, by unfold holdsBits; decide⟩
  · exact ⟨{ bufState [0xE0#8] with pos := 4#64 }, by unfold holdsBits; decide⟩
  · exact ⟨{ bufState [0xF8#8] with pos := 2#64 }, by unfold holdsBits; decide⟩

theorem witness_StreamFormsSetTheWidth :
    ∃ (s : State) (a : BitVec 3) (b : BitVec 2) (c d : BitVec 6), Running s ∧ a.toNat ≤ 6 ∧ b.toNat ≤ 2 ∧
      c.toNat ≤ 54 ∧ 55 ≤ d.toNat :=
  ⟨State.reset, 6#3, 2#2, 54#6, 55#6, by decide⟩

theorem witness_DechdrRunsTheFormAtPos :
    ∃ (s : State) (bits rest : List Bool) (f : HeaderForm), Running s ∧ NoWrap s ∧
      holdsBits s s.pos.toNat bits ∧ Fits s bits.length ∧ decodeHeader bits = .ok (f, rest) :=
  ⟨bufState [0x2E#8], [false, true, true, true, false, true], [], .abs5 2#2, by unfold holdsBits; decide⟩

theorem witness_HeaderRoundTrip :
    ∃ s : State, Running s ∧ NoWrap s ∧ s.aN.toNat ≤ 64 ∧ Fits s (hdrLen s.aN.toNat s.prevW.toNat) ∧
      (∀ i, i < hdrLen s.aN.toNat s.prevW.toNat → s.bufBit (s.pos.toNat + i) = false) :=
  ⟨{ bufState [0x0F#8, 0#8] with pos := 4#64, aN := 64#8 }, by decide⟩

/-- The value 255 as a frame of one block at byte 1: `ABS5 8` and its field, 14 bits. -/
def oneValueFrame : State :=
  { bufState [0#8, 0#8, 0#8] with aOff := 1#64, frameLen := 1#64, vin := [(0, 255#64)] }

theorem witness_EncframeWritesTheLayout :
    ∃ (s : State) (blocks : List StreamBlock), Running s ∧ NoWrap s ∧ s.blockSize ≠ 0#64 ∧
      s.aOff.toNat ≤ s.bufLen.toNat ∧ s.frameLen.toNat ≤ Config.valCap ∧ blocks = encodedFrame s ∧
      8 * s.aOff.toNat + (blockBits 0 blocks).length ≤ 8 * s.bufLen.toNat ∧ blocks ≠ [] :=
  ⟨oneValueFrame, encodedFrame oneValueFrame, by decide⟩

theorem witness_EncodedFrameIsLegalAndCanonical :
    ∃ s : State, s.blockSize ≠ 0#64 ∧ ∃ before b after, encodedFrame s = before ++ b :: after :=
  ⟨oneValueFrame, by decide, [], ⟨.abs5 1#2, [255]⟩, [], by decide⟩

theorem witness_EncframeOverrunKeepsWholeFields :
    ∃ s : State, Running s ∧ NoWrap s ∧ s.blockSize ≠ 0#64 ∧ s.aOff.toNat ≤ s.bufLen.toNat ∧
      s.frameLen.toNat ≤ Config.valCap ∧
      8 * s.bufLen.toNat < 8 * s.aOff.toNat + (blockBits 0 (encodedFrame s)).length :=
  ⟨{ oneValueFrame with bufLen := 2#64 }, by decide⟩

theorem witness_FrameSizeIsBounded :
    ∃ s : State, s.blockSize ≠ 0#64 ∧ ∃ before b after, encodedFrame s = before ++ b :: after :=
  ⟨oneValueFrame, by decide, [], ⟨.abs5 1#2, [255]⟩, [], by decide⟩

/-- The frame `DE 3F` of `oneValueFrame`, in the last two bytes. -/
theorem witness_DecframeDecodesTheLayout :
    ∃ (s : State) (blocks : List StreamBlock), Running s ∧ NoWrap s ∧ s.blockSize ≠ 0#64 ∧
      s.aOff.toNat ≤ s.bufLen.toNat ∧ (s.signedMode = true → s.tgtSigned = true) ∧
      s.frameLen.toNat ≤ Config.valCap ∧
      blocksCover s.blockSize.toNat s.frameLen.toNat blocks = true ∧ blocksLegal 0 blocks = true ∧
      8 * s.aOff.toNat + (blockBits 0 blocks).length ≤ 8 * s.bufLen.toNat ∧
      holdsBits s (8 * s.aOff.toNat) (blockBits 0 blocks) ∧ blocks ≠ [] :=
  ⟨{ bufState [0#8, 0xDE#8, 0x3F#8] with aOff := 1#64, frameLen := 1#64 }, [⟨.abs5 1#2, [255]⟩],
    by unfold holdsBits; decide⟩

/-- The three blocks of P2, `36 3C E0 B2 04`. -/
theorem witness_ScanframeSkipsTheLayout :
    ∃ (s : State) (blocks : List StreamBlock), Running s ∧ NoWrap s ∧ s.blockSize ≠ 0#64 ∧
      s.aOff.toNat ≤ s.bufLen.toNat ∧
      blocksCover s.blockSize.toNat s.frameLen.toNat blocks = true ∧ blocksLegal 0 blocks = true ∧
      8 * s.aOff.toNat + (blockBits 0 blocks).length ≤ 8 * s.bufLen.toNat ∧
      holdsBits s (8 * s.aOff.toNat) (blockBits 0 blocks) ∧ blocks.length = 3 :=
  ⟨{ bufState [0x36#8, 0x3C#8, 0xE0#8, 0xB2#8, 0x04#8] with blockSize := 4#64, frameLen := 9#64 },
    [⟨.abs3 3#3, [3, 0, 7, 1]⟩, ⟨.abs3 0#3, [0, 0, 0, 0]⟩, ⟨.abs5 2#2, [300]⟩], by unfold holdsBits; decide⟩

/-- A reserved header after one block, and one that begins a frame the sink can hold. -/
theorem witness_FramesStopAtAReservedHeader :
    (∃ (s : State) (blocks : List StreamBlock) (c : BitVec 6) (n : Nat), Running s ∧ NoWrap s ∧
      s.blockSize ≠ 0#64 ∧ s.aOff.toNat ≤ s.bufLen.toNat ∧ 55 ≤ c.toNat ∧ n < s.frameLen.toNat ∧
      blocksCover s.blockSize.toNat n blocks = true ∧ n % s.blockSize.toNat = 0 ∧
      blocksLegal 0 blocks = true ∧
      8 * s.aOff.toNat + (blockBits 0 blocks).length + 12 ≤ 8 * s.bufLen.toNat ∧
      holdsBits s (8 * s.aOff.toNat) (blockBits 0 blocks ++ HeaderForm.bits (.abs11Illegal c)) ∧ n = 1) ∧
    (∃ (s : State) (blocks : List StreamBlock) (c : BitVec 6) (n : Nat), Running s ∧ NoWrap s ∧
      s.blockSize ≠ 0#64 ∧ s.aOff.toNat ≤ s.bufLen.toNat ∧ 55 ≤ c.toNat ∧ n < s.frameLen.toNat ∧
      blocksCover s.blockSize.toNat n blocks = true ∧ n % s.blockSize.toNat = 0 ∧
      blocksLegal 0 blocks = true ∧
      8 * s.aOff.toNat + (blockBits 0 blocks).length + 12 ≤ 8 * s.bufLen.toNat ∧
      holdsBits s (8 * s.aOff.toNat) (blockBits 0 blocks ++ HeaderForm.bits (.abs11Illegal c)) ∧
      (s.signedMode = true → s.tgtSigned = true) ∧ s.frameLen.toNat ≤ Config.valCap) :=
  ⟨⟨{ bufState [0xD2#8, 0xBF#8, 0x01#8] with blockSize := 1#64, frameLen := 2#64 }, [⟨.abs3 1#3, [1]⟩], 55#6, 1,
      by unfold holdsBits; decide⟩,
    ⟨{ bufState [0xFE#8, 0x0D#8] with frameLen := 1#64 }, [], 55#6, 0, by unfold holdsBits; decide⟩⟩

/-- A frame both commands decode, and the premise of the first clause. -/
theorem witness_ScanAndDecodeAgree :
    ∃ s t : State, Running s ∧ NoWrap s ∧ (s.signedMode = true → s.tgtSigned = true) ∧
      s.frameLen.toNat ≤ Config.valCap ∧ exec .decframe s = .next t ∧ t.faulted = false :=
  ⟨{ bufState [0xDE#8, 0x3F#8] with frameLen := 1#64 }, _, by decide, by decide, by decide, by decide, rfl,
    by decide⟩

theorem witness_FrameRoundTrip :
    ∃ s : State, Running s ∧ NoWrap s ∧ s.blockSize ≠ 0#64 ∧ s.aOff.toNat ≤ s.bufLen.toNat ∧
      s.frameLen.toNat ≤ Config.valCap ∧ s.tgtSigned = s.signedMode ∧ s.srcWidth ≤ s.tgtWidth ∧
      8 * s.aOff.toNat + (blockBits 0 (encodedFrame s)).length ≤ 8 * s.bufLen.toNat ∧
      (∀ q, 8 * s.aOff.toNat ≤ q → q < 8 * s.bufLen.toNat → s.bufBit q = false) ∧ s.frameLen = 1#64 := by
  refine ⟨oneValueFrame, by decide, by decide, by decide, by decide, by decide, by decide, by decide, by decide,
    ?_, by decide⟩
  have h : ∀ q, q < 24 → oneValueFrame.bufBit q = false := by decide
  exact fun q _ hq => h q hq

theorem witness_DecoderMachineAgrees :
    ∀ c : DecoderCommand, ∃ (s : State) (i : Instr), Running s ∧
      (i = match c with
        | .decframe => Instr.decframe
        | .scanframe => Instr.scanframe) ∧
      s.blockSize ≠ 0#64 ∧ s.aOff.toNat ≤ s.bufLen.toNat ∧
      (c = .decframe → (s.signedMode = true → s.tgtSigned = true) ∧ s.frameLen.toNat ≤ Config.valCap) := by
  intro c
  cases c
  · exact ⟨{ oneValueFrame with cfg := 0x09#8 }, _, by decide, rfl, by decide, by decide, fun _ => by decide⟩
  · exact ⟨{ oneValueFrame with cfg := 0x01#8 }, _, by decide, rfl, by decide, by decide, fun h => by cases h⟩

/-- Each clause; the last needs a `VAL_CAP` below the greatest value `FRAME_LEN` can hold. -/
theorem witness_FrameCommandCheckOrder :
    (∃ s : State, Running s ∧ s.blockSize = 0#64) ∧
    (∃ s : State, Running s ∧ s.blockSize ≠ 0#64 ∧ s.bufLen.toNat < s.aOff.toNat) ∧
    (∃ s : State, Running s ∧ s.blockSize ≠ 0#64 ∧ s.aOff.toNat ≤ s.bufLen.toNat ∧ s.signedMode = true ∧
      s.tgtSigned = false) ∧
    (Config.valCap < 2 ^ 64 - 1 →
      ∃ s : State, Running s ∧ s.blockSize ≠ 0#64 ∧ s.aOff.toNat ≤ s.bufLen.toNat ∧
        Config.valCap < s.frameLen.toNat ∧ (s.signedMode = true → s.tgtSigned = true)) :=
  ⟨⟨{ State.reset with blockSize := 0#64 }, by decide⟩, ⟨{ cursorState 2 0 0 with aOff := 3#64 }, by decide⟩,
    ⟨{ cursorState 2 0 0 with cfg := 0x01#8, aOff := 2#64 }, by decide⟩, fun h =>
    ⟨{ cursorState 2 0 0 with frameLen := BitVec.allOnes 64 }, by decide, by decide, by decide, h, by decide⟩⟩

theorem witness_ScanframeIgnoresValuesAndClasses :
    ∃ s t : State, Running s ∧ firstFailing (scanframeChecks s) = none ∧ exec .scanframe s = .next t :=
  ⟨{ bufState [0xDE#8, 0x3F#8] with frameLen := 1#64 }, _, by decide, by decide, rfl⟩

theorem witness_DecframeIgnoresTheSource :
    ∃ (s t : State) (cfg : Byte), Running s ∧ firstFailing (decframeChecks s) = none ∧
      cfg &&& 0xF9#8 = s.cfg &&& 0xF9#8 ∧ cfg ≠ s.cfg ∧ exec .decframe s = .next t :=
  ⟨{ bufState [0xDE#8, 0x3F#8] with frameLen := 1#64 }, _, 0x06#8, by decide, by decide, by decide, by decide,
    rfl⟩

/-- `exec i s = .next t` for an instruction of each premise: `ENCFRAME`, and one that is neither. -/
theorem witness_MaxWOnlyGrowsByEncframe :
    (∃ (i : Instr) (s t : State), exec i s = .next t ∧ i ≠ .encframe ∧ i ≠ .reset) ∧
    (∃ (i : Instr) (s t : State), exec i s = .next t ∧ i = .encframe ∧ s.maxW ≠ t.maxW) :=
  ⟨⟨.decframe, oneValueFrame, _, rfl, by decide, by decide⟩, ⟨.encframe, oneValueFrame, _, rfl, rfl, by decide⟩⟩

theorem witness_CoreLeavesHostState :
    (∃ (i : Instr) (s t : State), exec i s = .next t ∧ i ≠ .reset) ∧
    (∃ (i : Instr) (s t : State), exec i s = .next t ∧ i = .reset ∧ t.frameLen ≠ s.frameLen) :=
  ⟨⟨.encframe, oneValueFrame, _, rfl, by decide⟩, ⟨.reset, oneValueFrame, _, rfl, rfl, by decide⟩⟩

theorem witness_ResultRegistersHaveFewWriters :
    (∃ (i : Instr) (s t : State), exec i s = .next t ∧ i ≠ .reset ∧ t.rVal ≠ s.rVal) ∧
    (∃ (i : Instr) (s t : State), exec i s = .next t ∧ i ≠ .reset ∧ t.nextOff ≠ s.nextOff) ∧
    (∃ (i : Instr) (s t : State), exec i s = .next t ∧ i ≠ .reset ∧ i ∈ [Instr.posbits, Instr.blkwidth]) :=
  ⟨⟨.rdbit, bufState [1#8], _, rfl, by decide⟩, ⟨.encframe, oneValueFrame, _, rfl, by decide⟩,
    ⟨.posbits, cursorState 2 11 0, _, rfl, by decide⟩⟩

theorem witness_BufferBitsAreNeverCleared :
    (∃ (i : Instr) (s t : State) (q : Nat), exec i s = .next t ∧ s.bufBit q = true ∧ t.buf ≠ s.buf) ∧
    (∃ (i : Instr) (s t : State) (j : Nat), exec i s = .next t ∧
      i ∉ [Instr.wrbits, Instr.encblk, Instr.enchdr, Instr.encframe] ∧ s.bufLen.toNat ≤ j) :=
  ⟨⟨.enchdr, { bufState [0x80#8] with aN := 6#8 }, _, 7, rfl, by decide⟩,
    ⟨.align, cursorState 2 11 0, _, 2, rfl, by decide⟩⟩

theorem witness_OnlyDecodesWriteTheSink :
    (∃ (i : Instr) (s t : State), exec i s = .next t ∧ i ≠ .decblk ∧ i ≠ .decframe) ∧
    (∃ (i : Instr) (s t : State) (a : Nat), exec i s = .next t ∧ i = .decblk ∧ t.vout ≠ s.vout ∧
      s.aIdx.toNat + s.aK.toNat ≤ a) ∧
    (∃ (i : Instr) (s t : State) (a : Nat), exec i s = .next t ∧ i = .decframe ∧ t.vout ≠ s.vout ∧
      s.frameLen.toNat ≤ a) :=
  ⟨⟨.encframe, oneValueFrame, _, rfl, by decide⟩,
    ⟨.decblk, { bufState [0xFF#8] with aK := 1#64, aN := 8#8 }, _, 1, rfl, by decide⟩,
    ⟨.decframe, { bufState [0xDE#8, 0x3F#8] with frameLen := 1#64 }, _, 1, rfl, by decide⟩⟩

/-- A state in order whose cursor stands at the end of the greatest buffer every implementation has. -/
def orderedState : State :=
  { bufState [0x5A#8] with pos := 8#64, maxW := 64#7, prevW := 64#7, curW := 64#7, cfg := 0x3F#8 }

theorem orderedState_inv : orderedState.Inv where
  flags := by decide
  cfg := by decide
  maxW := by decide
  prevW := by decide
  curW := by decide
  bufLen := by decide
  pos := Nat.mul_le_mul_left 8 one_le_bufCap
  bufWf := by decide
  vinWf := by decide
  voutWf := by decide
  bufBelow := by decide
  vinBelow := by decide
  voutBelow := by decide

theorem witness_PositionStaysInBounds :
    ∃ (i : Instr) (s t : State), s.Inv ∧ exec i s = .next t ∧
      i ∉ [Instr.seek, Instr.encframe, Instr.decframe, Instr.scanframe, Instr.reset] ∧
      s.pos.toNat ≤ 8 * s.bufLen.toNat :=
  ⟨.align, orderedState, _, orderedState_inv, rfl, by decide, by decide⟩

theorem witness_FaultedCoreObeysOnlyReset : ∃ (i : Instr) (s : State), s.faulted = true ∧ i ≠ .reset :=
  ⟨.rdbit, faultedState, by decide⟩

theorem witness_EachInstructionHasItsFaults :
    ∃ (i : Instr) (s t : State), Running s ∧ i ≠ .reset ∧ exec i s = .next t ∧ t.err ≠ s.err :=
  ⟨.rdbit, cursorState 2 16 0, _, by decide, by decide, rfl, by decide⟩

theorem witness_IllegalCommandsFault :
    ∃ (s : State) (c d : Byte), Running s ∧ c ∈ opcodes ∧ d ∉ opcodes :=
  ⟨State.reset, 0x7F#8, 0x80#8, by decide⟩

theorem witness_ResetValues : ∃ n : Nat, n ≠ 4 := ⟨18, by decide⟩

theorem witness_StepKeepsOrder : ∃ s t : State, s.Inv ∧ step s = .next t ∧ s.host ≠ [] :=
  ⟨{ orderedState with host := [.writeReg 0 0x05#64] }, _,
    { flags := by decide, cfg := by decide, maxW := by decide, prevW := by decide, curW := by decide,
      bufLen := by decide, pos := orderedState_inv.pos, bufWf := by decide, vinWf := by decide,
      voutWf := by decide, bufBelow := by decide, vinBelow := by decide, voutBelow := by decide },
    rfl, by decide⟩

theorem witness_StepRunsTheDecodedCommand :
    (∃ (_ : State) (c : Byte) (i : Instr), decode (.command c) = .ok i) ∧ (∃ s : State, s.host = []) :=
  ⟨⟨State.reset, 0x32#8, .scanframe, by decide⟩, ⟨State.reset, by decide⟩⟩

theorem witness_HostWritesRegisters :
    (18 ∈ [1, 2, 9, 10, 11, 12, 18] ∨ 19 ≤ 18) ∧ (19 ∈ [1, 2, 9, 10, 11, 12, 18] ∨ 19 ≤ 19) := by decide

/-- The first cell and the last. -/
theorem witness_HostAccessesCells :
    (∃ a : Nat, a < Config.bufCap ∧ a = 0) ∧ (∃ a : Nat, a < Config.bufCap ∧ a + 1 = Config.bufCap) ∧
    (∃ a : Nat, a < Config.valCap ∧ a = 0) ∧ (∃ a : Nat, a < Config.valCap ∧ a + 1 = Config.valCap) :=
  ⟨⟨0, one_le_bufCap, rfl⟩, ⟨Config.bufCapPred.val, Nat.lt_succ_self _, rfl⟩, ⟨0, one_le_valCap, rfl⟩,
    ⟨Config.valCapPred.val, Nat.lt_succ_self _, rfl⟩⟩

/-- A command of each premise. -/
theorem witness_HardResetWins :
    (0x7F#8 ∉ [0x03#8, 0x11#8, 0x20#8, 0x30#8] ∧ 0x7F#8 ∉ [0x12#8, 0x31#8]) ∧
    (∃ (s : State) (c : Byte) (j : Nat), c ∈ [0x03#8, 0x11#8, 0x20#8] ∧ j < s.pos.toNat / 8) ∧
    (∃ (s : State) (c : Byte) (j : Nat), c = 0x30#8 ∧ j < s.aOff.toNat) ∧
    (∃ (s : State) (c : Byte) (a : Nat), c = 0x12#8 ∧ (a < s.aIdx.toNat ∨ s.aIdx.toNat + s.aK.toNat ≤ a)) ∧
    (∃ (s : State) (c : Byte) (a : Nat), c = 0x31#8 ∧ s.frameLen.toNat ≤ a) :=
  ⟨by decide, ⟨cursorState 2 8 0, 0x03#8, 0, by decide⟩, ⟨oneValueFrame, 0x30#8, 0, by decide⟩,
    ⟨State.reset, 0x12#8, 0, by decide⟩, ⟨oneValueFrame, 0x31#8, 1, by decide⟩⟩

/-- The clauses for register 0, the last register and the first absent one. -/
theorem witness_HostReadsRegisters :
    (∃ n : Nat, (n = 0 ∨ 19 ≤ n) ∧ n = 0) ∧ (∃ n : Nat, n = 18) ∧ (∃ n : Nat, (n = 0 ∨ 19 ≤ n) ∧ n = 19) :=
  ⟨⟨0, by decide⟩, ⟨18, rfl⟩, ⟨19, by decide⟩⟩

end Sys2Proof.Machine
end

section
/-! What an instruction may have changed, said once for every instruction (60_exceptions.md R224, R229): a
footprint of its pseudocode, and the four ways in which it can end. -/

namespace Sys2Proof

/-- The block headers of the stream, which the host cannot issue (R59, R93). -/
def Instr.isStreamForm : Instr → Bool
  | .reuse => true
  | .abs3 _ => true
  | .abs5 _ => true
  | .abs11 _ => true
  | .abs11Illegal _ => true
  | _ => false

/-- No value written to `CMD` is a header of the stream (R103, R104). -/
theorem decodeCommand_isStreamForm (c : Byte) : (decodeCommand c).isStreamForm = false := by
  unfold decodeCommand
  split <;> rfl

end Sys2Proof

namespace Sys2Proof.Machine

/-! ### Which instructions write what -/

/-- The commands that answer in `R_VAL` (R35). -/
abbrev resultWriters : List Instr := [.rdbit, .rdbits, .posbits, .blkwidth, .dechdr]

/-- The commands that run over a frame (R180). -/
abbrev frameCommands : List Instr := [.encframe, .decframe, .scanframe]

/-- The commands of the cursor and of the block codec, which leave the width registers (R165). -/
abbrev widthKeepers : List Instr :=
  [.rdbit, .rdbits, .wrbits, .posbits, .align, .seek, .blkwidth, .encblk, .decblk]

/-- The commands that leave the cursor where it is whatever they do. -/
abbrev cursorKeepers : List Instr := [.posbits, .blkwidth]

/-- The instructions that place the cursor anew (R126, R181, R211). -/
abbrev placements : List Instr := [.seek, .encframe, .decframe, .scanframe, .reset]

/-- The sink cells an instruction writes: from the first number on and below the second (R145, R184). -/
def sinkRange (i : Instr) (s : State) : Nat × Nat :=
  match i with
  | .decblk => (s.aIdx.toNat, s.aIdx.toNat + s.aK.toNat)
  | .decframe => (0, s.frameLen.toNat)
  | _ => (0, 0)

/-- No frame command is a stream form, and each places the cursor. -/
theorem frameCommands_spec {i : Instr} (hi : i ∈ frameCommands) : i.isStreamForm = false ∧ i ∈ placements := by
  revert i
  decide

theorem SameInputs.flags {s t : State} (h : SameInputs s t) : t.status = s.status ∧ t.err = s.err := by
  obtain ⟨hst, herr, _⟩ := h
  exact ⟨hst, herr⟩

theorem SameInputs.status {s t : State} (h : SameInputs s t) : t.status = s.status := h.1

theorem SameInputs.bufLen {s t : State} (h : SameInputs s t) : t.bufLen = s.bufLen := by
  obtain ⟨_, _, _, _, _, hl, _⟩ := h
  exact hl

/-! ### The footprint of the pseudocode -/

/-- The registers and the sink, as far as the instruction does not write them at all. -/
structure KeepsUnwritten (i : Instr) (s u : State) : Prop where
  consumed : i ∉ frameCommands → u.consumed = s.consumed
  widthRegs : i ∈ widthKeepers → u.prevW = s.prevW ∧ u.curW = s.curW
  maxW : i ≠ .encframe → u.maxW = s.maxW
  vout : i ≠ .decblk → i ≠ .decframe → u.vout = s.vout
  pos : i ∈ cursorKeepers → u.pos = s.pos

/-- What the pseudocode of an instruction may have done to the state `s` by the time it stops in `u`. -/
structure Footprint (i : Instr) (s u : State) : Prop extends KeepsUnwritten i s u where
  inputs : SameInputs s u
  result : u.rVal = s.rVal
  nextOff : u.nextOff = s.nextOff
  grows : s.maxW.toNat ≤ u.maxW.toNat
  widths : i.isStreamForm = false → WidthsHold s → WidthsHold u
  buffer : BufGrows s u
  sink : SinkWithin (sinkRange i s).1 (sinkRange i s).2 s u
  sinkExists : u.vout = s.vout ∨ (sinkRange i s).2 ≤ Config.valCap
  inBuf : i.isStreamForm = false → NoWrap s → ∀ cap, s.bufLen.toNat ≤ cap → s.pos.toNat ≤ 8 * cap →
    u.pos.toNat ≤ 8 * cap
  forward : NoWrap s → s.pos.toNat + 12 < 2 ^ 64 → i ∉ placements → s.pos.toNat ≤ u.pos.toNat
  passed : i.isStreamForm = true → u.pos.toNat ≤ s.pos.toNat + 12

/-- Doing nothing is within the footprint of every instruction. -/
theorem Footprint.refl (i : Instr) (s : State) : Footprint i s s where
  consumed := fun _ => rfl
  widthRegs := fun _ => ⟨rfl, rfl⟩
  maxW := fun _ => rfl
  vout := fun _ _ => rfl
  pos := fun _ => rfl
  inputs := SameInputs.refl s
  result := rfl
  nextOff := rfl
  grows := Nat.le_refl _
  widths := fun _ h => h
  buffer := .of_eq rfl
  sink := .of_eq rfl
  sinkExists := .inl rfl
  inBuf := fun _ _ _ _ h => h
  forward := fun _ _ _ => Nat.le_refl _
  passed := fun _ => Nat.le_add_right _ _

/-- The pseudocode of a command, from where it puts the cursor (`p`) to any point it reaches. -/
theorem Footprint.of_reach {i : Instr} {s u : State} {p : Nat}
    (h : Reach s (sinkRange i s).1 (sinkRange i s).2 p s.maxW.toNat u) (kept : KeepsUnwritten i s u)
    (hi : i.isStreamForm = false) (hcells : (sinkRange i s).2 ≤ Config.valCap)
    (hin : ∀ cap, s.bufLen.toNat ≤ cap → s.pos.toNat ≤ 8 * cap → p ≤ 8 * cap)
    (hp : i ∉ placements → p = s.pos.toNat) : Footprint i s u where
  toKeepsUnwritten := kept
  inputs := h.inputs
  result := h.result
  nextOff := h.nextOff
  grows := h.maxW
  widths := fun _ ⟨hm, he, hc⟩ => ⟨h.widths hm, h.encoded he, h.current he hc⟩
  buffer := h.bufGrows
  sink := h.sink
  sinkExists := .inr hcells
  inBuf := fun _ hw cap hl hc => h.inBuf hw _ (Nat.mul_le_mul_left 8 hl) (hin cap hl hc)
  forward := fun hw _ hn => hp hn ▸ h.forward hw
  passed := fun hs => absurd hs (by simp [hi])

/-- The pseudocode of a command that starts at the cursor. -/
theorem Footprint.of_reach_pos {i : Instr} {s u : State}
    (h : Reach s (sinkRange i s).1 (sinkRange i s).2 s.pos.toNat s.maxW.toNat u)
    (kept : KeepsUnwritten i s u) (hi : i.isStreamForm = false)
    (hcells : (sinkRange i s).2 ≤ Config.valCap) : Footprint i s u :=
  .of_reach h kept hi hcells (fun _ _ hc => hc) fun _ => rfl

/-- The pseudocode of a frame command, which starts at the byte `A_OFF` (R181). -/
theorem Footprint.of_reach_frame {i : Instr} {s u : State}
    (h : Reach s (sinkRange i s).1 (sinkRange i s).2 (8 * s.aOff.toNat) s.maxW.toNat u)
    (ho : s.aOff.toNat ≤ s.bufLen.toNat) (kept : KeepsUnwritten i s u) (hi : i ∈ frameCommands)
    (hcells : (sinkRange i s).2 ≤ Config.valCap) : Footprint i s u :=
  have ⟨hform, hplace⟩ := frameCommands_spec hi
  .of_reach h kept hform hcells (fun _ hl _ => Nat.mul_le_mul_left 8 (ho.trans hl))
    fun hn => absurd hplace hn

/-! ### What each family leaves unwritten -/

theorem OnlyCursor.keeps {i : Instr} {s u : State} (hi : i ∉ cursorKeepers) (h : OnlyCursor s u) :
    KeepsUnwritten i s u :=
  ⟨fun _ => by rw [h], fun _ => by rw [h]; exact ⟨rfl, rfl⟩, fun _ => by rw [h], fun _ _ => by rw [h],
    fun hk => absurd hk hi⟩

theorem OnlyBuf.keeps {i : Instr} {s u : State} (hi : i ∉ cursorKeepers) (h : OnlyBuf s u) :
    KeepsUnwritten i s u :=
  ⟨fun _ => by rw [h], fun _ => by rw [h]; exact ⟨rfl, rfl⟩, fun _ => by rw [h], fun _ _ => by rw [h],
    fun hk => absurd hk hi⟩

theorem OnlyHeader.keeps {s u : State} (h : OnlyHeader s u) : KeepsUnwritten .dechdr s u :=
  ⟨fun _ => by rw [h], fun hi => absurd hi (by decide), fun _ => by rw [h], fun _ _ => by rw [h],
    fun hi => absurd hi (by decide)⟩

theorem OnlyEncode.keeps {s u : State} (h : OnlyEncode s u) : KeepsUnwritten .enchdr s u :=
  ⟨fun _ => by rw [h], fun hi => absurd hi (by decide), fun _ => by rw [h], fun _ _ => by rw [h],
    fun hi => absurd hi (by decide)⟩

theorem OnlySink.keeps {s u : State} (h : OnlySink s u) : KeepsUnwritten .decblk s u :=
  ⟨fun _ => by rw [h], fun _ => by rw [h]; exact ⟨rfl, rfl⟩, fun _ => by rw [h], nofun,
    fun hi => absurd hi (by decide)⟩

theorem OnlyEncodeFrame.keeps {s u : State} (h : OnlyEncodeFrame s u) : KeepsUnwritten .encframe s u :=
  ⟨fun hi => absurd hi (by decide), fun hi => absurd hi (by decide), nofun, fun _ _ => by rw [h],
    fun hi => absurd hi (by decide)⟩

theorem OnlyDecodeFrame.keeps {s u : State} (h : OnlyDecodeFrame s u) : KeepsUnwritten .decframe s u :=
  ⟨fun hi => absurd hi (by decide), fun hi => absurd hi (by decide), fun _ => by rw [h], nofun,
    fun hi => absurd hi (by decide)⟩

theorem OnlyScanFrame.keeps {s u : State} (h : OnlyScanFrame s u) : KeepsUnwritten .scanframe s u :=
  ⟨fun hi => absurd hi (by decide), fun hi => absurd hi (by decide), fun _ => by rw [h], fun _ _ => by rw [h],
    fun hi => absurd hi (by decide)⟩

/-! ### The footprint of each family -/

/-- Aligning does not leave whole bytes that held the position (R125). -/
theorem alignUp_le {p cap : Nat} (h : p ≤ 8 * cap) : alignUp p ≤ 8 * cap := by
  obtain ⟨hmod, _, hlt⟩ := alignUp_spec p
  omega

theorem Footprint.of_cursorReach {i : Instr} {s u : State} (hi : i ∈ [Instr.rdbit, Instr.rdbits])
    (h : CursorReach s u) : Footprint i s u := by
  obtain ⟨hr, ho⟩ := h
  simp only [List.mem_cons, List.not_mem_nil, or_false] at hi
  rcases hi with rfl | rfl <;> exact .of_reach_pos hr (ho.keeps (by decide)) rfl (Nat.zero_le _)

theorem Footprint.of_bufReach {i : Instr} {s u : State} (hi : i ∈ [Instr.wrbits, Instr.encblk])
    (h : BufReach s u) : Footprint i s u := by
  obtain ⟨hr, ho⟩ := h
  simp only [List.mem_cons, List.not_mem_nil, or_false] at hi
  rcases hi with rfl | rfl <;> exact .of_reach_pos hr (ho.keeps (by decide)) rfl (Nat.zero_le _)

theorem Footprint.of_headerReach {s u : State} (h : HeaderReach s u) : Footprint .dechdr s u :=
  .of_reach_pos h.1 h.2.keeps rfl (Nat.zero_le _)

theorem Footprint.of_encodeReach {s u : State} (h : EncodeReach s u) : Footprint .enchdr s u :=
  .of_reach_pos h.1 h.2.keeps rfl (Nat.zero_le _)

theorem Footprint.of_sinkReach {s u : State} (h : SinkReach s u) : Footprint .decblk s u := by
  rcases h with rfl | ⟨⟨hr, ho⟩, hc⟩
  · exact .refl _ _
  · exact .of_reach_pos hr ho.keeps rfl hc

theorem Footprint.of_encodeFrameReach {s u : State} (h : EncodeFrameReach s u) : Footprint .encframe s u := by
  rcases h with rfl | ⟨hr, ha, ho⟩
  · exact .refl _ _
  · exact .of_reach_frame hr ha ho.keeps (by decide) (Nat.zero_le _)

theorem Footprint.of_decodeFrameReach {s u : State} (h : DecodeFrameReach s u) : Footprint .decframe s u := by
  rcases h with rfl | ⟨hr, ⟨ha, hc⟩, ho⟩
  · exact .refl _ _
  · exact .of_reach_frame hr ha ho.keeps (by decide) hc

theorem Footprint.of_scanFrameReach {s u : State} (h : ScanFrameReach s u) : Footprint .scanframe s u := by
  rcases h with rfl | ⟨hr, ha, ho⟩
  · exact .refl _ _
  · exact .of_reach_frame hr ha ho.keeps (by decide) (Nat.zero_le _)

/-- `ALIGN` moves the cursor only, to the next byte boundary (R125). -/
theorem alignPos_footprint (s : State) : Footprint .align s (alignPos s) :=
  { Footprint.refl .align s with
    pos := fun hk => absurd hk (by decide)
    inBuf := fun _ _ cap _ hc => by
      rw [alignPos_pos, BitVec.toNat_ofNat]
      exact (Nat.mod_le _ _).trans (alignUp_le hc)
    forward := fun _ hp _ => by
      obtain ⟨_, hle, hlt⟩ := alignUp_spec s.pos.toNat
      rw [alignPos_pos, BitVec.toNat_ofNat, Nat.mod_eq_of_lt (by omega)]
      exact hle
    passed := nofun }

/-- `SEEK` moves the cursor only, to a byte of the buffer (R126). -/
theorem seekPos_footprint {s : State} (ho : s.aOff.toNat ≤ s.bufLen.toNat) : Footprint .seek s (seekPos s) :=
  { Footprint.refl .seek s with
    pos := fun hk => absurd hk (by decide)
    inBuf := fun _ _ cap hl _ => by
      rw [seekPos_pos, BitVec.toNat_ofNat]
      exact (Nat.mod_le _ _).trans (Nat.mul_le_mul_left 8 (ho.trans hl))
    forward := fun _ _ hn => absurd (by decide) hn
    passed := nofun }

/-- A stream form passes its bits, 12 at most, and sets the width registers (R93, R98, R162). -/
theorem streamForm_footprint {i : Instr} (hi : i.isStreamForm = true) (s : State) {n : Nat} (hn : n ≤ 12)
    (p c : Width) :
    Footprint i s { s with pos := s.pos + BitVec.ofNat 64 n, prevW := p, curW := c } :=
  have hkeep : ∀ j ∈ widthKeepers, j.isStreamForm = false := by decide
  have hpos : ∀ j ∈ cursorKeepers, j.isStreamForm = false := by decide
  { Footprint.refl i s with
    widthRegs := fun hk => absurd hi (by simp [hkeep i hk])
    pos := fun hk => absurd hi (by simp [hpos i hk])
    widths := fun h => absurd hi (by simp [h])
    inBuf := fun h => absurd hi (by simp [h])
    forward := fun _ hp _ => by
      rw [toNat_pos_add (by omega)]
      omega
    passed := fun _ => by
      rw [BitVec.toNat_add, BitVec.toNat_ofNat]
      omega }

/-! ### How an instruction ends -/

/-- The four ways in which an instruction other than `RESET` ends: where its pseudocode stops, with a result,
with the end of a frame, or with one of its faults. -/
inductive Ends (i : Instr) (s : State) : State → Prop
  | stops {u : State} (h : Footprint i s u) : Ends i s u
  | answers {u : State} (v : Nat) (h : Footprint i s u) (hr : Running s) (hi : i ∈ resultWriters) :
      Ends i s (setResult v u)
  | endsFrame {u : State} (h : Footprint i s u) (hr : Running s) (hi : i ∈ frameCommands) :
      Ends i s (frameEnd u)
  | faults {u : State} {k : FaultKind} (h : Footprint i s u) (hr : Running s) (hk : k.code ∈ i.faultCodes) :
      Ends i s (raiseFault k u)

section Outcomes

variable {i : Instr} {D E : State → Prop} {ks : List FaultKind} {s t : State}

theorem EndsWith.ends (h : EndsWith D E ks t) (hr : Running s) (hD : ∀ u, D u → Ends i s u)
    (hE : ∀ u, E u → Footprint i s u) (hk : ∀ k ∈ ks, k.code ∈ i.faultCodes) : Ends i s t := by
  rcases h with hd | ⟨k, hmem, u, hu, rfl⟩
  · exact hD t hd
  · exact .faults (hE u hu) hr (hk k hmem)

theorem EndsWith.stops (h : EndsWith D E ks t) (hr : Running s) (hD : ∀ u, D u → Footprint i s u)
    (hE : ∀ u, E u → Footprint i s u) (hk : ∀ k ∈ ks, k.code ∈ i.faultCodes) : Ends i s t :=
  h.ends hr (fun u hu => .stops (hD u hu)) hE hk

theorem EndsWith.answers (h : EndsWith (WithResult E) E ks t) (hr : Running s)
    (hE : ∀ u, E u → Footprint i s u) (hi : i ∈ resultWriters) (hk : ∀ k ∈ ks, k.code ∈ i.faultCodes) :
    Ends i s t := by
  refine h.ends hr ?_ hE hk
  rintro _ ⟨u, v, hu, rfl⟩
  exact .answers v (hE u hu) hr hi

theorem EndsWith.endsFrame (h : EndsWith (WithEnd D) E ks t) (hr : Running s) (hD : ∀ u, D u → E u)
    (hE : ∀ u, E u → Footprint i s u) (hi : i ∈ frameCommands) (hk : ∀ k ∈ ks, k.code ∈ i.faultCodes) :
    Ends i s t := by
  refine h.ends hr ?_ hE hk
  rintro _ ⟨u, hu, rfl⟩
  exact .endsFrame (hE u (hD u hu)) hr hi

end Outcomes

/-- How a stream form whose bits and effect are known ends. -/
theorem runHeader_ends {i : Instr} {s t : State} {n w : Nat} {p c : Width} {effect : State → Run Nat}
    (hr : Running s) (h : runHeader n effect s = .next t) (hi : i.isStreamForm = true) (hn : n ≤ 12)
    (he : effect (advance n s) = .done w { advance n s with prevW := p, curW := c }) : Ends i s t := by
  unfold runHeader at h
  rw [runCommand_of_pass hr rfl, he] at h
  cases h
  exact .stops (streamForm_footprint hi s hn p c)

/-- Every instruction but `RESET`, in every state, ends in one of the four ways. -/
theorem exec_ends {i : Instr} {s t : State} (hi : i ≠ .reset) (h : exec i s = .next t) : Ends i s t := by
  cases hf : s.faulted with
  | true =>
    rw [exec_of_faulted hf hi] at h
    cases h
    exact .stops (.refl i s)
  | false =>
    have same : ∀ u, u = s → Footprint i s u := fun u hu => hu ▸ .refl i s
    cases i with
    | reset => exact absurd rfl hi
    | rdbit =>
      exact (rdbit_ends hf h).answers hf (fun _ => .of_cursorReach (by decide)) (by decide) (by decide)
    | rdbits =>
      exact (rdbits_ends hf h).answers hf (fun _ => .of_cursorReach (by decide)) (by decide) (by decide)
    | wrbits =>
      exact (wrbits_ends hf h).stops hf (fun _ => .of_bufReach (by decide)) (fun _ => .of_bufReach (by decide))
        (by decide)
    | posbits => exact (posbits_ends hf h).answers hf same (by decide) (by decide)
    | align => exact (align_ends hf h).stops hf (fun _ hu => hu ▸ alignPos_footprint s) same (by decide)
    | seek =>
      exact (seek_ends hf h).stops hf (fun _ ⟨ho, hu⟩ => hu ▸ seekPos_footprint ho) same (by decide)
    | blkwidth => exact (blkwidth_ends hf h).answers hf same (by decide) (by decide)
    | encblk =>
      exact (encblk_ends hf h).stops hf (fun _ => .of_bufReach (by decide)) (fun _ => .of_bufReach (by decide))
        (by decide)
    | decblk =>
      exact (decblk_ends hf h).stops hf (fun _ => .of_sinkReach) (fun _ => .of_sinkReach) (by decide)
    | enchdr =>
      exact (enchdr_ends hf h).stops hf (fun _ => .of_encodeReach) (fun _ => .of_encodeReach) (by decide)
    | dechdr => exact (dechdr_ends hf h).answers hf (fun _ => .of_headerReach) (by decide) (by decide)
    | encframe =>
      exact (encframe_ends hf h).endsFrame hf (fun _ => .inr) (fun _ => .of_encodeFrameReach)
        (by decide) (by decide)
    | decframe =>
      exact (decframe_ends hf h).endsFrame hf (fun _ => .inr) (fun _ => .of_decodeFrameReach)
        (by decide) (by decide)
    | scanframe =>
      exact (scanframe_ends hf h).endsFrame hf (fun _ => .inr) (fun _ => .of_scanFrameReach)
        (by decide) (by decide)
    | reuse => exact runHeader_ends hf h rfl (by decide) rfl
    | abs3 a => exact runHeader_ends hf h rfl (by decide) rfl
    | abs5 b => exact runHeader_ends hf h rfl (by decide) rfl
    | abs11 c => exact runHeader_ends hf h rfl (by decide) rfl
    | abs11Illegal c =>
      rw [abs11Illegal_ends c hf h]
      exact .faults (streamForm_footprint rfl s (n := 12) (by decide) s.prevW s.curW) hf
        (List.mem_singleton_self _)
    | illegal c =>
      rw [illegal_ends c hf h]
      exact .faults (.refl _ s) hf (List.mem_singleton_self _)

end Sys2Proof.Machine
end

section
/-! Every step keeps the state in order (10_state.md R24, R27, R28, R29, R30, R32, R36): the instructions by
their footprints, then the host's accesses and the hardware reset. -/

namespace Sys2Proof.Machine

/-! ### Instructions -/

/-- The buffer of the machine is so small that its bit addresses stay below `2^63` (R4, R32). -/
theorem eight_mul_bufCap_lt : 8 * Config.bufCap ≤ 2 ^ 63 - 8 := by
  have := Config.bufCapPred.isLt
  unfold Config.bufCap
  omega

theorem State.Inv.noWrap {s : State} (hs : s.Inv) : NoWrap s := by
  have hlen : s.bufLen.toNat ≤ Config.bufCap := hs.bufLen
  have hcap := eight_mul_bufCap_lt
  show 8 * s.bufLen.toNat < 2 ^ 64
  omega

/-- The flags of an unfaulted core in order are those of the reset (R36). -/
theorem FlagsAgree.of_running {s : State} (h : FlagsAgree s) (hr : Running s) :
    s.status = 0#8 ∧ s.err = 0#8 := by
  rcases h with h | ⟨hst, _⟩
  · exact h
  · simp [Running, State.faulted, hst] at hr

/-- The codes the instructions raise are codes of R220 that the core raises at all. -/
theorem faultCodes_range (i : Instr) : ∀ c ∈ i.faultCodes, c ≠ 0#8 ∧ c ≠ 3#8 ∧ c.toNat ≤ 9 := by
  cases i <;> simp [Instr.faultCodes]

theorem Footprint.inv {i : Instr} {s u : State} (h : Footprint i s u) (hi : i.isStreamForm = false)
    (hs : s.Inv) : u.Inv := by
  obtain ⟨hst, herr, hcfg, -, -, hlen, -, -, -, -, -, hvin, -⟩ := h.inputs
  obtain ⟨hmax, hprev, hcur⟩ := h.widths hi ⟨hs.maxW, hs.prevW, hs.curW⟩
  obtain ⟨-, -, hbufWf, hbufBelow⟩ := h.buffer
  obtain ⟨-, hvoutWf, hvoutBelow⟩ := h.sink
  exact
    { flags := by rw [FlagsAgree, hst, herr]; exact hs.flags
      cfg := by rw [hcfg]; exact hs.cfg
      maxW := hmax
      prevW := hprev
      curW := hcur
      bufLen := by rw [BufLenInCap, hlen]; exact hs.bufLen
      pos := h.inBuf hi hs.noWrap _ hs.bufLen hs.pos
      bufWf := hbufWf hs.bufWf
      vinWf := by rw [hvin]; exact hs.vinWf
      voutWf := hvoutWf hs.voutWf
      bufBelow := hbufBelow _ hs.bufLen hs.bufBelow
      vinBelow := by rw [hvin]; exact hs.vinBelow
      voutBelow := by
        rcases h.sinkExists with hv | hc
        · rw [hv]
          exact hs.voutBelow
        · exact hvoutBelow _ hc hs.voutBelow }

/-- `frame_end()` aligns the cursor, which keeps it inside the buffer (R181). -/
theorem frameEnd_inv {u : State} (hu : u.Inv) : (frameEnd u).Inv :=
  { hu with
    pos := by
      rw [frameEnd_pos, BitVec.toNat_ofNat]
      exact (Nat.mod_le _ _).trans (alignUp_le hu.pos) }

/-- Raising one of its faults leaves a running core's flags in agreement (R224). -/
theorem raiseFault_inv {u : State} {k : FaultKind} {i : Instr} (hu : u.Inv) (hr : Running u)
    (hk : k.code ∈ i.faultCodes) : (raiseFault k u).Inv :=
  { hu with
    flags := by
      obtain ⟨hst, -⟩ := hu.flags.of_running hr
      refine .inr ⟨?_, faultCodes_range i _ hk⟩
      rw [raiseFault_status, hst]
      rfl }

theorem Footprint.running {i : Instr} {s u : State} (h : Footprint i s u) (hr : Running s) : Running u :=
  (faulted_congr h.inputs.status).trans hr

theorem resetRegisters_inv {s : State} (hs : s.Inv) : (resetRegisters s).Inv :=
  { hs with
    flags := .inl ⟨rfl, rfl⟩
    cfg := BitVec.zero_and
    maxW := Nat.zero_le _
    prevW := Nat.zero_le _
    curW := Nat.zero_le _
    bufLen := Nat.zero_le _
    pos := Nat.zero_le _ }

/-- Every instruction the host can issue keeps the state in order. -/
theorem exec_inv {i : Instr} {s t : State} (hi : i.isStreamForm = false) (hs : s.Inv)
    (h : exec i s = .next t) : t.Inv := by
  by_cases hreset : i = .reset
  · subst hreset
    cases h
    exact resetRegisters_inv hs
  · cases exec_ends hreset h with
    | stops hu => exact hu.inv hi hs
    | answers v hu => exact { hu.inv hi hs with }
    | endsFrame hu => exact frameEnd_inv (hu.inv hi hs)
    | faults hu hr hk => exact raiseFault_inv (hu.inv hi hs) (hu.running hr) hk

theorem issueCommand_inv {c : Byte} {s t : State} (hs : s.Inv) (h : issueCommand c s = .next t) : t.Inv :=
  exec_inv (decodeCommand_isStreamForm c) hs h

/-! ### Host accesses -/

/-- With no access waiting the core idles (R260). -/
theorem step_of_host_nil {s : State} (h : s.host = []) : step s = .next s := by
  simp [step, nextAction, h]

/-- With an access waiting, the step makes it, in the state that no longer lists it (R37). -/
theorem step_of_host_cons {s : State} {a : HostAction} {rest : List HostAction} (h : s.host = a :: rest) :
    step s = hostAct a { s with host := rest } := by
  simp [step, nextAction, h]

/-- A host write of a byte to `CMD` is a command (R23). -/
theorem hostAct_writeCmd {v : Word} (h : v.toNat < 256) (s : State) :
    hostAct (.writeReg 0 v) s = issueCommand (v.setWidth 8) s :=
  if_pos h

theorem hostAct_writeReg {n : Nat} (hn : n ≠ 0) (v : Word) (s : State) :
    hostAct (.writeReg n v) s = writeRegister n v s := by
  cases n with
  | zero => exact absurd rfl hn
  | succ n => rfl

theorem withByte_eq_next {v : Word} {f : Byte → State} {t : State} (h : withByte v f = .next t) :
    t = f (v.setWidth 8) := by
  unfold withByte at h
  split at h <;> cases h
  rfl

theorem withCell_eq_next {a cap : Nat} {u t : State} (h : withCell a cap u = .next t) : a < cap ∧ t = u := by
  unfold withCell at h
  split at h <;> cases h
  exact ⟨‹_›, rfl⟩

/-- A width that a host write leaves in a width register is at most 64 (R28, R29). -/
theorem width_setWidth_le {v : Word} (h : v.toNat ≤ 64) : (v.setWidth 7 : Width).toNat ≤ 64 := by
  rw [BitVec.toNat_setWidth]
  omega

theorem cfg_reserved_zero (b : Byte) : (b &&& 0x3F#8) &&& 0xC0#8 = 0#8 := by
  rw [BitVec.and_assoc]
  exact BitVec.and_zero

/-- A host write of a register other than `CMD` keeps the state in order (R22, R24, R27, R28, R29). -/
theorem writeRegister_inv {n : Nat} {v : Word} {s t : State} (hs : s.Inv)
    (h : writeRegister n v s = .next t) : t.Inv := by
  unfold writeRegister at h
  split at h
  case h_1 =>
    rw [withByte_eq_next h]
    exact { hs with cfg := cfg_reserved_zero _ }
  case h_4 =>
    cases h
    split
    · exact { hs with bufLen := ‹_› }
    · exact hs
  case h_5 =>
    cases h
    split
    · exact { hs with maxW := width_setWidth_le ‹_› }
    · exact hs
  case h_6 =>
    cases h
    split
    · exact { hs with prevW := width_setWidth_le ‹_› }
    · exact hs
  case h_8 =>
    rw [withByte_eq_next h]
    exact { hs with }
  all_goals
    cases h
    exact { hs with }

theorem setHostData_inv {s : State} (hs : s.Inv) (v : Word) : (setHostData v s).Inv := { hs with }

/-! ### The hardware reset in mid-command (R260) -/

theorem freeBuf_inv {j count : Nat} {s : State} (hs : s.Inv) (h : count = 0 ∨ j + count ≤ Config.bufCap) :
    (freeBuf j count s).Inv := by
  obtain ⟨heq, -, hwf, hbelow⟩ := freeBuf_spec count j s
  rw [heq]
  exact { hs with bufWf := hwf hs.bufWf, bufBelow := hbelow _ h hs.bufBelow }

theorem freeVout_inv {i count : Nat} {s : State} (hs : s.Inv) (h : count = 0 ∨ i + count ≤ Config.valCap) :
    (freeVout i count s).Inv := by
  obtain ⟨heq, -, hwf, hbelow⟩ := freeVout_spec count i s
  rw [heq]
  exact { hs with voutWf := hwf hs.voutWf, voutBelow := hbelow _ h hs.voutBelow }

theorem endState_inv {s : State} (hs : s.Inv) (c : Byte) : (endState c s).Inv := by
  unfold endState
  split
  · exact issueCommand_inv hs ‹_›
  · exact hs
  · exact hs

/-- The bytes a command could write exist: they end where its cursor does, inside the buffer (R229). -/
theorem couldWriteBuf_exists {s : State} (hs : s.Inv) (c : Byte) :
    (couldWriteBuf c s).2 = 0 ∨ (couldWriteBuf c s).1 + (couldWriteBuf c s).2 ≤ Config.bufCap := by
  have hpos := (endState_inv hs c).pos
  unfold couldWriteBuf
  dsimp only
  split
  case h_5 => exact .inl rfl
  all_goals split <;> dsimp only <;> omega

theorem firstFailing_of_starts {checks : List (Bool × FaultKind)} {s : State} (h : starts checks s = true) :
    firstFailing checks = none := by
  unfold starts at h
  simp only [Bool.and_eq_true, Option.isNone_iff_eq_none] at h
  exact h.2

/-- The sink cells a command could write exist: its checks passed (R223). -/
theorem couldWriteVout_exists (s : State) (c : Byte) :
    (couldWriteVout c s).2 = 0 ∨ (couldWriteVout c s).1 + (couldWriteVout c s).2 ≤ Config.valCap := by
  unfold couldWriteVout
  split
  · split
    · rename_i hstart
      exact .inr (failing_none_block (firstFailing_of_starts (s := s) hstart) (by simp [decblkChecks]))
    · exact .inl rfl
  · split
    · rename_i hstart
      refine .inr ((Nat.zero_add _).trans_le ?_)
      exact failing_none_frame (firstFailing_of_starts hstart) (by simp [decframeChecks])
    · exact .inl rfl
  · exact .inl rfl

theorem resetDuring_inv {s : State} (hs : s.Inv) (c : Byte) : (resetDuring c s).Inv :=
  resetRegisters_inv
    (freeVout_inv (freeBuf_inv hs (couldWriteBuf_exists hs c)) (couldWriteVout_exists s c))

/-! ### One step -/

/-- Every action of the host keeps the state in order. -/
theorem hostAct_inv {a : HostAction} {s t : State} (hs : s.Inv) (h : hostAct a s = .next t) : t.Inv := by
  cases a with
  | writeReg n v =>
    by_cases hn : n = 0
    · subst hn
      by_cases hv : v.toNat < 256
      · rw [hostAct_writeCmd hv] at h
        exact issueCommand_inv hs h
      · rw [hostAct, if_neg hv] at h
        cases h
    · rw [hostAct_writeReg hn] at h
      exact writeRegister_inv hs h
  | readReg n =>
    cases h
    exact setHostData_inv hs _
  | writeBuf j b =>
    obtain ⟨hj, rfl⟩ := withCell_eq_next h
    exact { hs with bufWf := Memory.wf_write hs.bufWf j b, bufBelow := Memory.below_write hs.bufBelow hj b }
  | writeVin i v =>
    obtain ⟨hi, rfl⟩ := withCell_eq_next h
    exact { hs with vinWf := Memory.wf_write hs.vinWf i v, vinBelow := Memory.below_write hs.vinBelow hi v }
  | writeVout i v =>
    obtain ⟨hi, rfl⟩ := withCell_eq_next h
    exact
      { hs with voutWf := Memory.wf_write hs.voutWf i v, voutBelow := Memory.below_write hs.voutBelow hi v }
  | readBuf j =>
    obtain ⟨-, rfl⟩ := withCell_eq_next h
    exact setHostData_inv hs _
  | readVin i =>
    obtain ⟨-, rfl⟩ := withCell_eq_next h
    exact setHostData_inv hs _
  | readVout i =>
    obtain ⟨-, rfl⟩ := withCell_eq_next h
    exact setHostData_inv hs _
  | hardReset =>
    cases h
    exact resetRegisters_inv hs
  | hardResetDuring c =>
    cases h
    exact resetDuring_inv hs c

/-- Settles O55: an idle step changes nothing, and every action of the host keeps the order. -/
theorem stepKeepsOrder : Obligations.StepKeepsOrder := by
  intro s t hs h
  cases hhost : s.host with
  | nil =>
    rw [step_of_host_nil hhost] at h
    cases h
    exact hs
  | cons a rest =>
    rw [step_of_host_cons hhost] at h
    exact hostAct_inv (s := { s with host := rest }) { hs with } h

end Sys2Proof.Machine
end

section
/-! What every instruction may change, and the faults it may raise (10_state.md R28, R30 to R36,
60_exceptions.md R220): read off its footprint and the way it ends. -/

namespace Sys2Proof.Machine

/-! ### What the end of an instruction adds to its footprint -/

/-- The end of an instruction writes the flags, the results and the cursor at most. -/
abbrev OnlyEnding (u t : State) : Prop :=
  t = { u with status := t.status, err := t.err, rVal := t.rVal, nextOff := t.nextOff, pos := t.pos }

variable {i : Instr} {s t : State}

theorem exec_footprint (hi : i ≠ .reset) (h : exec i s = .next t) :
    ∃ u, Footprint i s u ∧ OnlyEnding u t := by
  cases exec_ends hi h with
  | stops hu => exact ⟨_, hu, rfl⟩
  | answers v hu => exact ⟨_, hu, rfl⟩
  | endsFrame hu => exact ⟨_, hu, rfl⟩
  | faults hu => exact ⟨_, hu, rfl⟩

theorem exec_bufLen (hi : i ≠ .reset) (h : exec i s = .next t) : t.bufLen = s.bufLen := by
  obtain ⟨u, hu, ht⟩ := exec_footprint hi h
  rw [ht]
  exact hu.inputs.bufLen

/-- Only a frame command moves the cursor at its end (R181). -/
theorem exec_pos (hi : i ≠ .reset) (hf : i ∉ frameCommands) (h : exec i s = .next t) :
    ∃ u, Footprint i s u ∧ t.pos = u.pos := by
  cases exec_ends hi h with
  | stops hu => exact ⟨_, hu, rfl⟩
  | answers v hu => exact ⟨_, hu, rfl⟩
  | endsFrame hu hr hfi => exact absurd hfi hf
  | faults hu => exact ⟨_, hu, rfl⟩

/-- No command takes the cursor out of whole bytes that hold it and the buffer (R32). -/
theorem exec_pos_le (hform : i.isStreamForm = false) (hw : NoWrap s) (h : exec i s = .next t) {cap : Nat}
    (hl : s.bufLen.toNat ≤ cap) (hp : s.pos.toNat ≤ 8 * cap) : t.pos.toNat ≤ 8 * cap := by
  by_cases hreset : i = .reset
  · subst hreset
    cases h
    exact Nat.zero_le _
  · cases exec_ends hreset h with
    | stops hu => exact hu.inBuf hform hw cap hl hp
    | answers v hu => exact hu.inBuf hform hw cap hl hp
    | endsFrame hu =>
      rw [frameEnd_pos, BitVec.toNat_ofNat]
      exact (Nat.mod_le _ _).trans (alignUp_le (hu.inBuf hform hw cap hl hp))
    | faults hu => exact hu.inBuf hform hw cap hl hp

/-- An instruction takes the cursor 4 bits at most beyond the greatest buffer (R32, R93). -/
theorem exec_pos_lt (hs : s.Inv) (h : exec i s = .next t) : t.pos.toNat < 2 ^ 63 + 8 := by
  have hcap := eight_mul_bufCap_lt
  have hpos := hs.pos
  cases hform : i.isStreamForm with
  | false =>
    have := exec_pos_le hform hs.noWrap h hs.bufLen hpos
    omega
  | true =>
    have hreset : i ≠ .reset := fun e => by simp [e, Instr.isStreamForm] at hform
    have hframe : i ∉ frameCommands := fun hmem => by simp [(frameCommands_spec hmem).1] at hform
    obtain ⟨u, hu, ht⟩ := exec_pos hreset hframe h
    have := hu.passed hform
    rw [ht]
    omega

/-! ### The statements -/

/-- Settles O43: the footprint of every other command leaves `MAX_W`, and no footprint lowers it. -/
theorem maxWOnlyGrowsByEncframe : Obligations.MaxWOnlyGrowsByEncframe := by
  intro i s t h
  by_cases hreset : i = .reset
  · exact ⟨fun _ hn => absurd hreset hn, fun he => by simp [hreset] at he⟩
  · obtain ⟨u, hu, ht⟩ := exec_footprint hreset h
    have hmax : t.maxW = u.maxW := by rw [ht]
    rw [hmax]
    exact ⟨fun hne _ => hu.maxW hne, fun _ => hu.grows⟩

/-- Settles O44: the inputs are in no footprint, and `RESET` sets the registers among them. -/
theorem coreLeavesHostState : Obligations.CoreLeavesHostState := by
  intro i s t h
  by_cases hreset : i = .reset
  · subst hreset
    cases h
    exact ⟨rfl, rfl, rfl, rfl, fun hn => absurd rfl hn,
      fun _ => ⟨rfl, rfl, rfl, rfl, rfl, rfl, rfl, rfl, rfl⟩⟩
  · obtain ⟨u, hu, ht⟩ := exec_footprint hreset h
    obtain ⟨-, -, hcfg, hbs, hfl, hlen, hval, hn, hk, hidx, hoff, hvin, hhost, hdata, hfree⟩ := hu.inputs
    rw [ht]
    exact ⟨hvin, hhost, hdata, hfree, fun _ => ⟨hcfg, hbs, hfl, hlen, hval, hn, hk, hidx, hoff⟩,
      fun he => absurd he hreset⟩

/-- Settles O45: `R_VAL` and `NEXT_OFF` change only in the ends that are no fault, the other registers only
within a footprint. -/
theorem resultRegistersHaveFewWriters : Obligations.ResultRegistersHaveFewWriters := by
  intro i s t h hreset
  have hresults : (t.rVal = s.rVal ∨ t.faulted = false ∧ i ∈ resultWriters) ∧
      (t.nextOff = s.nextOff ∨ t.faulted = false ∧ i ∈ frameCommands) := by
    cases exec_ends hreset h with
    | stops hu => exact ⟨.inl hu.result, .inl hu.nextOff⟩
    | answers v hu hr hi => exact ⟨.inr ⟨hu.running hr, hi⟩, .inl hu.nextOff⟩
    | endsFrame hu hr hi => exact ⟨.inl hu.result, .inr ⟨hu.running hr, hi⟩⟩
    | faults hu => exact ⟨.inl hu.result, .inl hu.nextOff⟩
  have hpos : i ∈ cursorKeepers → t.pos = s.pos := fun hi => by
    have hno : ∀ j ∈ cursorKeepers, j ∉ frameCommands := by decide
    obtain ⟨u, hu, ht⟩ := exec_pos hreset (hno i hi) h
    exact ht.trans (hu.pos hi)
  obtain ⟨u, hu, ht⟩ := exec_footprint hreset h
  have hcons : t.consumed = s.consumed ∨ i ∈ frameCommands := by
    by_cases hi : i ∈ frameCommands
    · exact .inr hi
    · rw [ht]
      exact .inl (hu.consumed hi)
  have hwidths : i ∈ widthKeepers → t.prevW = s.prevW ∧ t.curW = s.curW := by
    rw [ht]
    exact hu.widthRegs
  exact ⟨hresults.1, hresults.2, hcons, hwidths, hpos⟩

/-- Settles O47: the footprint gives the sink cells each instruction writes. -/
theorem onlyDecodesWriteTheSink : Obligations.OnlyDecodesWriteTheSink := by
  intro i s t h
  by_cases hreset : i = .reset
  · subst hreset
    cases h
    exact ⟨fun _ _ => rfl, nofun, nofun⟩
  · obtain ⟨u, hu, ht⟩ := exec_footprint hreset h
    have hvout : t.vout = u.vout := by rw [ht]
    obtain ⟨hcells, -⟩ := hu.sink
    rw [hvout]
    refine ⟨hu.vout, ?_, ?_⟩
    · rintro rfl a ha
      exact hcells a ha
    · rintro rfl a ha
      exact hcells a (.inr ha)

/-- Settles O48: the bounds come from the greatest buffer and from `BUF_LEN`, the direction from the
footprint. -/
theorem positionStaysInBounds : Obligations.PositionStaysInBounds := by
  intro i s t hs h
  have hcap := eight_mul_bufCap_lt
  have hpos := hs.pos
  refine ⟨hs.noWrap, by omega, exec_pos_lt hs h, fun hplace => ?_, fun hcommand hin => ?_⟩
  · have hreset : i ≠ .reset := fun e => hplace (by simp [e])
    have hframe : i ∉ frameCommands := fun hmem => hplace (frameCommands_spec hmem).2
    obtain ⟨u, hu, ht⟩ := exec_pos hreset hframe h
    rw [ht]
    exact hu.forward hs.noWrap (by omega) hplace
  · have hform : i.isStreamForm = false ∧ i ≠ .reset := by
      clear h
      revert i
      decide
    rw [exec_bufLen hform.2 h]
    exact exec_pos_le hform.1 hs.noWrap h (Nat.le_refl _) hin

/-- Settles O50: a footprint leaves the flags, and an instruction that ends with a fault ends with one of its
codes. -/
theorem eachInstructionHasItsFaults : Obligations.EachInstructionHasItsFaults := by
  intro i s t _ hreset h
  cases exec_ends hreset h with
  | stops hu => exact .inl hu.inputs.flags
  | answers v hu => exact .inl hu.inputs.flags
  | endsFrame hu => exact .inl hu.inputs.flags
  | faults hu hr hk => exact .inr ⟨by rw [raiseFault_status, hu.inputs.status], hk⟩

/-- Settles O49: a command of a faulted core is ignored, and `RESET` clears the flags. -/
theorem faultedCoreObeysOnlyReset : Obligations.FaultedCoreObeysOnlyReset := fun _ s h =>
  ⟨exec_of_faulted h, resetRegisters s, exec_reset s, by simp [State.faulted], rfl⟩

end Sys2Proof.Machine
end

section
/-! `DECBLK` where everything it reads is there (41_block_codec.md R144, R145). -/

namespace Sys2Proof.Machine

/-- The `k` fields of `w` bits that stand in the buffer from bit address `p` on. -/
def fieldsAt (s : State) (p w k : Nat) : List Nat :=
  (List.range k).map fun i => memRead s (p + i * w) w

@[simp] theorem fieldsAt_length (s : State) (p w k : Nat) : (fieldsAt s p w k).length = k := by
  simp [fieldsAt]

theorem fieldsAt_succ (s : State) (p w k : Nat) :
    fieldsAt s p w (k + 1) = memRead s p w :: fieldsAt s (p + w) w k := by
  unfold fieldsAt
  rw [List.range_succ_eq_map, List.map_cons, List.map_map, Nat.zero_mul, Nat.add_zero]
  congr 1
  refine List.map_congr_left fun i _ => ?_
  rw [Function.comp_apply, Nat.succ_mul, Nat.add_comm (i * w), Nat.add_assoc]

theorem fieldsAt_lt (s : State) (p w k : Nat) : ∀ f ∈ fieldsAt s p w k, f < 2 ^ w := by
  intro f hf
  obtain ⟨i, _, rfl⟩ := List.mem_map.mp hf
  exact memRead_lt s _ w

/-- The buffer holds the payload of the fields that are read from it (R60). -/
theorem holdsBits_payload_fieldsAt (s : State) (p w k : Nat) :
    holdsBits s p (payloadBits w (fieldsAt s p w k)) := by
  induction k generalizing p with
  | zero => exact nofun
  | succ k ih =>
    rw [fieldsAt_succ, payloadBits_cons, holdsBits_append, fieldBits_length]
    exact ⟨holds_fieldBits s p w, ih (p + w)⟩

/-- Settles O18: the block decodes to the fields that stand at the cursor. -/
theorem decblkStoresTheValues : Obligations.DecblkStoresTheValues := by
  intro s hr hw hbs hn hk hsign hidx hfits
  obtain ⟨vo, e, hstored⟩ := decBlock_done s.opIdx s.opN (fieldsAt s s.pos.toNat s.opN s.opK) s hw
    (fieldsAt_lt s _ _ _) (by rw [fieldsAt_length]; exact hfits) (holdsBits_payload_fieldsAt s _ _ _)
  rw [fieldsAt_length] at e
  refine ⟨{ s with vout := vo, pos := s.pos + BitVec.ofNat 64 (s.opK * s.opN) }, ?_, rfl, ?_⟩
  · rw [exec_decblk, runCommand_of_pass hr (decblkChecks_pass hbs hn hk hsign hidx), e]
    rfl
  · unfold fieldsAt at hstored
    rw [List.map_map] at hstored
    exact hstored.of_vout_eq rfl

end Sys2Proof.Machine
end

section
/-! The reset state, and what the host's accesses do (10_state.md R22 to R30, R37, R38; 44_system.md R211,
R212). -/

namespace Sys2Proof.Machine

/-! ### Reset -/

/-- Settles O51: `RESET` is `resetRegisters`, whose fields these are. -/
theorem resetRestoresTheRegisters : Obligations.ResetRestoresTheRegisters := exec_reset

/-- Right after reset every register but `BLOCK_SIZE` reads 0 (R38). -/
theorem readRegister_reset {n : Nat} (hn : n ≠ 4) : readRegister State.reset n = 0#64 := by
  unfold readRegister
  split
  case h_4 => exact absurd rfl hn
  all_goals rfl

/-- Settles O53: the fields of the reset state, read off. -/
theorem resetValues : Obligations.ResetValues :=
  ⟨fun _ => readRegister_reset, rfl, rfl, rfl, rfl, rfl, rfl, fun _ => ⟨rfl, rfl, rfl⟩⟩

/-- Settles O54: the registers are 0 but for `BLOCK_SIZE`, and no memory has a cell. -/
theorem resetIsInOrder : Obligations.ResetIsInOrder where
  flags := .inl ⟨rfl, rfl⟩
  cfg := rfl
  maxW := Nat.zero_le _
  prevW := Nat.zero_le _
  curW := Nat.zero_le _
  bufLen := Nat.zero_le _
  pos := Nat.zero_le _
  bufWf := rfl
  vinWf := rfl
  voutWf := rfl
  bufBelow := rfl
  vinBelow := rfl
  voutBelow := rfl

/-! ### Commands and register writes -/

theorem step_host_cons (s : State) (a : HostAction) (rest : List HostAction) :
    step { s with host := a :: rest } = hostAct a { s with host := rest } :=
  step_of_host_cons rfl

/-- A byte that the host writes zero-extended arrives as it is (R22). -/
theorem setWidth_byte (b : Byte) : (b.setWidth 64).toNat < 256 ∧ (b.setWidth 64).setWidth 8 = b := by
  constructor
  · rw [BitVec.toNat_setWidth]
    omega
  · simp

/-- Settles O56: a byte written to `CMD` arrives as it is, and `decode` of a command is `decodeCommand`. -/
theorem stepRunsTheDecodedCommand : Obligations.StepRunsTheDecodedCommand := by
  intro s c rest
  obtain ⟨hlt, hc⟩ := setWidth_byte c
  refine ⟨fun i hi => ?_, step_of_host_nil⟩
  rw [step_host_cons, hostAct_writeCmd hlt, hc]
  cases hi
  rfl

theorem withByte_of_byte (b : Byte) (f : Byte → State) : withByte (b.setWidth 64) f = .next (f b) := by
  obtain ⟨hlt, hb⟩ := setWidth_byte b
  rw [withByte, if_pos hlt, hb]

/-- `CFG` drops its reserved bits (R24). -/
theorem writeRegister_cfg (b : Byte) (s : State) :
    writeRegister 3 (b.setWidth 64) s = .next { s with cfg := b &&& 0x3F#8 } :=
  withByte_of_byte b fun b => { s with cfg := b &&& 0x3F#8 }

theorem writeRegister_aN (b : Byte) (s : State) :
    writeRegister 14 (b.setWidth 64) s = .next { s with aN := b } :=
  withByte_of_byte b fun b => { s with aN := b }

/-- `BUF_LEN` ignores a value above `BUF_CAP` (R27). -/
theorem writeRegister_bufLen (v : Word) (s : State) :
    writeRegister 6 v s = .next { s with bufLen := if v.toNat ≤ Config.bufCap then v else s.bufLen } := by
  simp only [writeRegister]
  split <;> rfl

/-- `MAX_W` ignores a value above 64 (R28). -/
theorem writeRegister_maxW (v : Word) (s : State) :
    writeRegister 7 v s = .next { s with maxW := if v.toNat ≤ 64 then v.setWidth 7 else s.maxW } := by
  simp only [writeRegister]
  split <;> rfl

/-- `PREV_W` ignores a value above 64 (R29). -/
theorem writeRegister_prevW (v : Word) (s : State) :
    writeRegister 8 v s = .next { s with prevW := if v.toNat ≤ 64 then v.setWidth 7 else s.prevW } := by
  simp only [writeRegister]
  split <;> rfl

/-- Read-only and absent registers ignore a write (R22). -/
theorem writeRegister_readOnly {n : Nat} (hn : n ∈ [1, 2, 9, 10, 11, 12, 18] ∨ 19 ≤ n) (v : Word)
    (s : State) : writeRegister n v s = .next s := by
  unfold writeRegister
  split
  case h_12 => rfl
  all_goals simp at hn

/-- Settles O57: each write is the one of its register. -/
theorem hostWritesRegisters : Obligations.HostWritesRegisters := by
  intro s v b rest
  have hstep : ∀ {n : Nat} {v : Word} {t : State}, n ≠ 0 →
      writeRegister n v { s with host := rest } = .next t →
      step { s with host := .writeReg n v :: rest } = .next t := fun hn h =>
    (step_host_cons s _ rest).trans ((hostAct_writeReg hn _ _).trans h)
  exact ⟨hstep (by decide) (writeRegister_cfg b _), hstep (by decide) rfl, hstep (by decide) rfl,
    hstep (by decide) (writeRegister_bufLen v _), hstep (by decide) (writeRegister_maxW v _),
    hstep (by decide) (writeRegister_prevW v _), hstep (by decide) rfl,
    hstep (by decide) (writeRegister_aN b _), hstep (by decide) rfl, hstep (by decide) rfl,
    hstep (by decide) rfl,
    fun n hn => hstep (by rintro rfl; simp at hn) (writeRegister_readOnly hn v _)⟩

/-! ### Cells and register reads -/

/-- A host access of a cell that exists (R37). -/
theorem withCell_of_lt {a cap : Nat} (h : a < cap) (t : State) : withCell a cap t = .next t := if_pos h

/-- Settles O58: a write is the memory's write, by the laws of a read after a write. -/
theorem hostAccessesCells : Obligations.HostAccessesCells := by
  intro s a b v rest
  refine ⟨fun ha => ?_, fun ha => ?_⟩
  · refine ⟨{ s with host := rest, buf := Memory.write s.buf a b }, ?_, rfl, ?_,
      fun j hj => Memory.read?_write_other _ _ hj, ?_⟩
    · exact (step_host_cons s _ rest).trans (withCell_of_lt ha _)
    · exact (State.bufByte_putBuf s a a b).trans (if_pos rfl)
    · exact (step_host_cons s _ rest).trans (withCell_of_lt ha _)
  · refine ⟨{ s with host := rest, vin := Memory.write s.vin a v },
      { s with host := rest, vout := Memory.write s.vout a v }, ?_, rfl, ?_,
      fun j hj => Memory.read?_write_other _ _ hj, ?_, rfl, ?_,
      fun j hj => Memory.read?_write_other _ _ hj, ?_, ?_⟩
    · exact (step_host_cons s _ rest).trans (withCell_of_lt ha _)
    · exact (State.vinCell_putVin s a a v).trans (if_pos rfl)
    · exact (step_host_cons s _ rest).trans (withCell_of_lt ha _)
    · exact (State.voutCell_putVout s a a v).trans (if_pos rfl)
    · exact (step_host_cons s _ rest).trans (withCell_of_lt ha _)
    · exact (step_host_cons s _ rest).trans (withCell_of_lt ha _)

/-- `CMD` and absent registers read 0 (R22). -/
theorem readRegister_absent {n : Nat} (hn : n = 0 ∨ 19 ≤ n) (s : State) : readRegister s n = 0#64 := by
  unfold readRegister
  split
  case h_19 => rfl
  all_goals simp at hn

/-- `STATUS` shows only `FAULT` (R22). -/
theorem readRegister_status (s : State) : readRegister s 1 = if s.faulted then 1#64 else 0#64 := by
  show (s.status &&& 1#8).setWidth 64 = _
  unfold State.faulted
  generalize s.status = x
  revert x
  decide

/-- Settles O60: the narrow registers read zero-extended, the others as they are. -/
theorem hostReadsRegisters : Obligations.HostReadsRegisters := by
  intro s n rest
  refine ⟨readRegister s n, step_host_cons s _ rest, fun hn => readRegister_absent hn s, ?_, ?_, ?_, ?_, ?_, ?_,
    ?_, ?_, ?_, ?_, ?_, ?_, ?_, ?_, ?_, ?_, ?_, ?_⟩ <;> rintro rfl
  case refine_1 => exact readRegister_status s
  case refine_2 | refine_3 | refine_7 | refine_8 | refine_9 | refine_14 =>
    exact BitVec.toNat_setWidth_of_le (by decide)
  all_goals rfl

end Sys2Proof.Machine
end

section
/-! The buffer (20_memory.md R60 to R62, R66, 40_bit_cursor.md R127): fields written and read back, fields
written or read in two pieces, and which instructions change `BUF` at all. -/

namespace Sys2Proof.Machine

/-! ### Fields at the cursor -/

/-- A byte of the buffer is its eight bits (R60). -/
theorem State.bufByte_getLsbD (s : State) (j : Nat) {i : Nat} (hi : i < 8) :
    (s.bufByte j).getLsbD i = s.bufBit (8 * j + i) := by
  have hdiv : (8 * j + i) / 8 = j := by omega
  have hmod : (8 * j + i) % 8 = i := by omega
  rw [State.bufBit, hdiv, hmod]

theorem State.bufByte_eq_of_bufBit {s t : State} (h : ∀ q, s.bufBit q = t.bufBit q) (j : Nat) :
    s.bufByte j = t.bufByte j := by
  refine BitVec.eq_of_getLsbD_eq fun i hi => ?_
  rw [State.bufByte_getLsbD s j hi, State.bufByte_getLsbD t j hi, h]

/-- The bits ORed in determine every byte of the buffer (R61). -/
theorem OredAt.bufByte_eq {s t u : State} {p : Nat} {bits : List Bool} (ht : OredAt s t p bits)
    (hu : OredAt s u p bits) (j : Nat) : t.bufByte j = u.bufByte j :=
  State.bufByte_eq_of_bufBit (fun q => (ht.bit q).trans (hu.bit q).symm) j

/-- A field of `n` bits was passed: the cursor stands behind it, the flags and the bound are as before
(R32, R120). -/
structure Passed (n : Nat) (s t : State) : Prop where
  status : t.status = s.status
  bufLen : t.bufLen = s.bufLen
  pos : t.pos = s.pos + BitVec.ofNat 64 n

theorem Passed.running {n : Nat} {s t : State} (h : Passed n s t) (hr : Running s) : Running t :=
  (faulted_congr h.status).trans hr

/-- Inside the buffer no position wraps (R32). -/
theorem Passed.pos_toNat {n : Nat} {s t : State} (h : Passed n s t) (hw : NoWrap s) (hfits : Fits s n) :
    t.pos.toNat = s.pos.toNat + n := by
  rw [h.pos]
  exact toNat_pos_add (by omega)

/-- Behind the first part of a field that fits, the rest of it fits. -/
theorem Passed.fits_rest {m n : Nat} {s t : State} (h : Passed m s t) (hw : NoWrap s)
    (hfits : Fits s (m + n)) : Fits t n := by
  rw [Fits, h.pos_toNat hw (by omega), h.bufLen]
  omega

/-- Two fields take the cursor as far as one as long as both. -/
theorem Passed.pos_eq_of_pieces {m n : Nat} {s t u v : State} (h1 : Passed m s t) (h2 : Passed n t u)
    (h : Passed (m + n) s v) : u.pos = v.pos := by
  rw [h2.pos, h1.pos, h.pos, BitVec.ofNat_add, BitVec.add_assoc]

/-- `RDBITS` of a field inside the buffer: `R_VAL` holds the whole of it (R35, R121). -/
theorem exec_rdbits_of_fits {s : State} {n : Nat} (hr : Running s) (hn : s.aN.toNat = n) (h64 : n ≤ 64)
    (hfits : Fits s n) :
    ∃ t, exec .rdbits s = .next t ∧ Passed n s t ∧ t.buf = s.buf ∧ t.rVal.toNat = memRead s s.pos.toNat n := by
  subst hn
  have hpass : firstFailing [badWidth s] = none := by simp [badWidth_pass h64]
  have hfield : memRead s s.pos.toNat s.aN.toNat < 2 ^ 64 :=
    (memRead_lt s _ _).trans_le (Nat.pow_le_pow_right (by decide) h64)
  refine ⟨setResult (memRead s s.pos.toNat s.aN.toNat) (advance s.aN.toNat s), ?_, ⟨rfl, rfl, rfl⟩, rfl, ?_⟩
  · rw [exec_rdbits, runCommand_of_pass hr hpass, readResult, State.opN, readField_of_fits hfits]
    rfl
  · rw [setResult_rVal, BitVec.toNat_ofNat, Nat.mod_eq_of_lt hfield]

/-- `WRBITS` of a field inside the buffer: its bits are ORed in (R123). -/
theorem exec_wrbits_of_fits {s : State} {n : Nat} (hr : Running s) (hn : s.aN.toNat = n) (h64 : n ≤ 64)
    (hfits : Fits s n) :
    ∃ t, exec .wrbits s = .next t ∧ Passed n s t ∧ t.aN = s.aN ∧
      OredAt s t s.pos.toNat (fieldBits n (s.aVal.toNat % 2 ^ n)) := by
  subst hn
  have hpass : firstFailing [badWidth s] = none := by simp [badWidth_pass h64]
  obtain ⟨b, hdone, hored⟩ := writeField_done (v := s.aVal.toNat % 2 ^ s.aN.toNat)
    (Nat.mod_lt _ (by positivity)) hfits
  refine ⟨{ s with buf := b, pos := s.pos + BitVec.ofNat 64 s.aN.toNat }, ?_, ⟨rfl, rfl, rfl⟩, rfl, hored⟩
  rw [exec_wrbits, runCommand_of_pass hr hpass, State.opN, hdone]
  rfl

theorem ofNat8_toNat {n : Nat} (h : n ≤ 64) : (BitVec.ofNat 8 n).toNat = n := by
  rw [BitVec.toNat_ofNat]
  omega

/-- `RDBITS` with its operand placed in `A_N` (R34, R121). -/
theorem exec_rdbits_operand {s : State} {n : Nat} (hr : Running s) (h64 : n ≤ 64) (hfits : Fits s n) :
    ∃ t, exec .rdbits { s with aN := BitVec.ofNat 8 n } = .next t ∧ Passed n s t ∧ t.buf = s.buf ∧
      t.rVal.toNat = memRead s s.pos.toNat n := by
  obtain ⟨t, hexec, hpassed, hbuf, hval⟩ :=
    exec_rdbits_of_fits (s := { s with aN := BitVec.ofNat 8 n }) hr (ofNat8_toNat h64) h64 hfits
  have hsame : memRead { s with aN := BitVec.ofNat 8 n } s.pos.toNat n = memRead s s.pos.toNat n :=
    memRead_of_buf_eq (by rfl) _ _
  exact ⟨t, hexec, ⟨hpassed.status, hpassed.bufLen, hpassed.pos⟩, hbuf, hval.trans hsame⟩

/-- `WRBITS` with its operands placed in `A_VAL` and `A_N` (R34, R123). -/
theorem exec_wrbits_operands {s : State} {n : Nat} (x : Word) (hr : Running s) (h64 : n ≤ 64)
    (hfits : Fits s n) :
    ∃ t, exec .wrbits { s with aVal := x, aN := BitVec.ofNat 8 n } = .next t ∧ Passed n s t ∧
      OredAt s t s.pos.toNat (fieldBits n (x.toNat % 2 ^ n)) := by
  obtain ⟨t, hexec, hpassed, -, hored⟩ :=
    exec_wrbits_of_fits (s := { s with aVal := x, aN := BitVec.ofNat 8 n }) hr (ofNat8_toNat h64) h64 hfits
  exact ⟨t, hexec, ⟨hpassed.status, hpassed.bufLen, hpassed.pos⟩, hored.of_buf_eq_left rfl⟩

/-- A field of at most 64 bits is the low bits of the word that holds it (R34). -/
theorem ofNat64_toNat_mod {n v : Nat} (hv : v < 2 ^ n) (h64 : n ≤ 64) :
    (BitVec.ofNat 64 v).toNat % 2 ^ n = v := by
  rw [BitVec.toNat_ofNat, Nat.mod_eq_of_lt (hv.trans_le (Nat.pow_le_pow_right (by decide) h64)),
    Nat.mod_eq_of_lt hv]

/-- A value of `m` bits and one of `n` bits above it make a value of `m + n` bits (R62). -/
theorem joined_lt {m n a b : Nat} (ha : a < 2 ^ m) (hb : b < 2 ^ n) : a + b * 2 ^ m < 2 ^ (m + n) :=
  calc
    a + b * 2 ^ m < (b + 1) * 2 ^ m := by rw [Nat.succ_mul]; omega
    _ ≤ 2 ^ n * 2 ^ m := Nat.mul_le_mul_right _ hb
    _ = 2 ^ (m + n) := by rw [Nat.pow_add, Nat.mul_comm]

/-! ### The statements on fields -/

/-- Settles O11: what is read is the field of the buffer after the OR. -/
theorem readAfterWrite : Obligations.ReadAfterWrite := by
  intro s hr _ h64 hfits
  obtain ⟨t, hwrite, ht, hn, hored⟩ := exec_wrbits_of_fits hr rfl h64 hfits
  obtain ⟨u, hread, hu, -, hval⟩ := exec_rdbits_of_fits (s := { t with pos := s.pos }) (ht.running hr)
    (congrArg _ hn) h64 (by rw [Fits, ht.bufLen]; exact hfits)
  have hback : OredAt s { t with pos := s.pos } s.pos.toNat _ := hored.of_buf_eq rfl
  have hlow : s.aVal.toNat % 2 ^ s.aN.toNat < 2 ^ s.aN.toNat := Nat.mod_lt _ (by positivity)
  refine ⟨t, u, hwrite, hread, hu.pos.trans ht.pos.symm, fun i hi => ?_, fun hzero => ?_⟩
  · rw [BitVec.getLsbD, hval, memRead_testBit, hback.bit, Nat.add_sub_cancel_left, fieldBits_getD_of_lt hlow,
      Nat.testBit_mod_two_pow]
    simp [hi, BitVec.getLsbD]
  · rw [hval]
    exact memRead_of_holds hlow (hback.holds fun i hi => hzero i (by simpa using hi))

/-- Settles O12: both ways OR the same bit string into the buffer. -/
theorem writesConcatenate : Obligations.WritesConcatenate := by
  intro s v1 v2 n1 n2 hr hw h64 hfits
  have hlow1 : v1.toNat % 2 ^ n1 < 2 ^ n1 := Nat.mod_lt _ (by positivity)
  have hlow2 : v2.toNat % 2 ^ n2 < 2 ^ n2 := Nat.mod_lt _ (by positivity)
  obtain ⟨t1, hexec1, ht1, hored1⟩ := exec_wrbits_operands v1 hr (by omega) (by omega : Fits s n1)
  obtain ⟨t2, hexec2, ht2, hored2⟩ := exec_wrbits_operands v2 (ht1.running hr) (by omega)
    (ht1.fits_rest hw hfits)
  obtain ⟨u, hexec, hu, hored⟩ := exec_wrbits_operands
    (BitVec.ofNat 64 (v1.toNat % 2 ^ n1 + v2.toNat % 2 ^ n2 * 2 ^ n1)) hr h64 hfits
  have hpieces : OredAt s t2 s.pos.toNat _ := hored1.trans (by
    rw [fieldBits_length, ← ht1.pos_toNat hw (by omega)]
    exact hored2)
  rw [fieldBits_append _ _ _ _ hlow1, Nat.mul_comm] at hpieces
  rw [ofNat64_toNat_mod (joined_lt hlow1 hlow2) h64] at hored
  exact ⟨t1, t2, u, hexec1, hexec2, hexec, ht1.pos_eq_of_pieces ht2 hu, hpieces.bufByte_eq hored,
    ht2.running (ht1.running hr), hu.running hr⟩

/-- Settles O13: a field read at once is its two halves (`memRead_add`). -/
theorem readsConcatenate : Obligations.ReadsConcatenate := by
  intro s n1 n2 hr hw h64 hfits
  obtain ⟨t1, hexec1, ht1, hbuf1, hval1⟩ := exec_rdbits_operand hr (by omega) (by omega : Fits s n1)
  obtain ⟨t2, hexec2, ht2, -, hval2⟩ := exec_rdbits_operand (ht1.running hr) (by omega)
    (ht1.fits_rest hw hfits)
  obtain ⟨u, hexec, hu, -, hval⟩ := exec_rdbits_operand hr h64 hfits
  refine ⟨t1, t2, u, hexec1, hexec2, hexec, ht1.pos_eq_of_pieces ht2 hu, ?_,
    ht2.running (ht1.running hr), hu.running hr⟩
  rw [hval, hval1, hval2, memRead_add, ht1.pos_toNat hw (by omega), memRead_of_buf_eq hbuf1]

/-! ### Which instructions write the buffer -/

/-- The commands that OR bits into `BUF` (R61, R66). -/
abbrev bufWriters : List Instr := [.wrbits, .encblk, .enchdr, .encframe]

/-- The buffer holds exactly the cells of `s`. -/
def SameBuf (s u : State) : Prop := u.buf = s.buf

theorem SameBuf.refl (s : State) : SameBuf s s := rfl

theorem SameBuf.readClosed (s : State) : ReadClosed (SameBuf s) := fun _ _ h _ => h

theorem SameBuf.widthClosed (s : State) : WidthClosed (SameBuf s) := fun _ _ h _ => h

theorem SameBuf.consumeClosed (s : State) : ConsumeClosed (SameBuf s) := fun _ _ h => h

theorem SameBuf.sinkClosed (s : State) (lo hi : Nat) : SinkClosed lo hi (SameBuf s) := fun _ _ _ h _ _ => h

theorem SameBuf.raiseFault {s u : State} (k : FaultKind) (h : SameBuf s u) : SameBuf s (raiseFault k u) := h

/-- A run all of whose steps leave the buffer leaves it, whether it completes or raises a fault (R229). -/
theorem Run.Within.keepsBuf {α : Type} {s : State} {ks : List FaultKind} {r : Run α}
    (h : r.Within (SameBuf s) ks) : r.Keeps (SameBuf s) := by
  rcases h.cases with ⟨_, u, hu, rfl⟩ | ⟨k, _, u, hu, rfl⟩
  · exact hu
  · exact SameBuf.raiseFault k hu

/-- Answering with a result leaves the buffer. -/
theorem Run.Keeps.withResult {s : State} {r : Run Nat} (h : r.Keeps (SameBuf s)) :
    (r.bind fun v u => .done () (setResult v u)).Keeps (SameBuf s) :=
  h.bind fun _ _ _ hu => hu

/-- A frame command whose blocks leave the buffer leaves it (R181). -/
theorem runFrame_keepsBuf {s : State} {ks : List FaultKind} {block : Nat → State → Run Unit}
    (h : (frameBlocks block s.frameLen.toNat (frameStart s)).Within (SameBuf s) ks) :
    (runFrame block s).Keeps (SameBuf s) := by
  rcases runFrame_cases h with ⟨u, hu, e⟩ | ⟨k, _, u, hu, e⟩
  · rw [e]
    exact hu
  · rw [e]
    exact SameBuf.raiseFault k hu

/-- A command whose pseudocode leaves the buffer leaves it, whatever becomes of its checks (R210, R223). -/
theorem runCommand_keepsBuf {checks : List (Bool × FaultKind)} {body : State → Run Unit} {s t : State}
    (hbody : (body s).Keeps (SameBuf s)) (h : runCommand checks body s = .next t) : SameBuf s t := by
  rcases runCommand_cases checks body s with ⟨_, e⟩ | ⟨_, k, _, e⟩ | ⟨_, _, e⟩ <;> rw [e] at h <;> cases h
  · exact SameBuf.refl s
  · exact (SameBuf.refl s).raiseFault k
  · exact hbody

/-- The pseudocode of every command but the four writers only reads the buffer (R66). -/
theorem exec_eq_runCommand_keepsBuf {i : Instr} (hi : i ∉ bufWriters) (hreset : i ≠ .reset) (s : State) :
    ∃ checks body, exec i s = runCommand checks body s ∧ (body s).Keeps (SameBuf s) := by
  have hrefl := SameBuf.refl s
  have hread := SameBuf.readClosed s
  have hwidth := SameBuf.widthClosed s
  cases i with
  | wrbits | encblk | enchdr | encframe => simp at hi
  | reset => exact absurd rfl hreset
  | rdbit => exact ⟨_, _, exec_rdbit s, (readField_within hread hrefl _).keepsBuf.withResult⟩
  | rdbits => exact ⟨_, _, exec_rdbits s, (readField_within hread hrefl _).keepsBuf.withResult⟩
  | posbits => exact ⟨_, _, exec_posbits s, rfl⟩
  | align => exact ⟨_, _, exec_align s, rfl⟩
  | seek => exact ⟨_, _, exec_seek s, rfl⟩
  | blkwidth => exact ⟨_, _, exec_blkwidth s, rfl⟩
  | decblk =>
    exact ⟨_, _, exec_decblk s, (decBlock_within hread (SameBuf.sinkClosed s _ _) hrefl
      (Nat.le_refl _) (Nat.le_refl _)).keepsBuf⟩
  | dechdr => exact ⟨_, _, exec_dechdr s, (decHeader_within hread hwidth hrefl).keepsBuf.withResult⟩
  | decframe =>
    exact ⟨_, _, exec_decframe s, runFrame_keepsBuf (decFrameBlocks_within hread hwidth
      (SameBuf.sinkClosed s 0 _) (SameBuf.consumeClosed s) (fun u _ => u.frameLen.isLt.le) _ hrefl)⟩
  | scanframe =>
    exact ⟨_, _, exec_scanframe s, runFrame_keepsBuf
      (scanFrameBlocks_within hread hwidth (SameBuf.consumeClosed s) _ hrefl)⟩
  | reuse => exact ⟨_, _, exec_reuse s, rfl⟩
  | abs3 a => exact ⟨_, _, exec_abs3 a s, rfl⟩
  | abs5 b => exact ⟨_, _, exec_abs5 b s, rfl⟩
  | abs11 c => exact ⟨_, _, exec_abs11 c s, rfl⟩
  | abs11Illegal c => exact ⟨_, _, exec_abs11Illegal c s, rfl⟩
  | illegal c => exact ⟨_, _, exec_illegal c s, rfl⟩

/-- Every instruction but the four writers leaves the buffer as it is (R66, R211). -/
theorem exec_buf {i : Instr} {s t : State} (hi : i ∉ bufWriters) (h : exec i s = .next t) : t.buf = s.buf := by
  by_cases hreset : i = .reset
  · subst hreset
    cases h
    rfl
  · obtain ⟨checks, body, hexec, hkeeps⟩ := exec_eq_runCommand_keepsBuf hi hreset s
    exact runCommand_keepsBuf hkeeps (hexec.symm.trans h)

/-- The buffer only grows, under every instruction (R61, R66, R211). -/
theorem exec_bufGrows {i : Instr} {s t : State} (h : exec i s = .next t) : BufGrows s t := by
  by_cases hreset : i = .reset
  · subst hreset
    cases h
    exact .of_eq rfl
  · obtain ⟨u, hu, ht⟩ := exec_footprint hreset h
    rw [ht]
    exact hu.buffer

/-- Settles O46: a footprint lets the buffer only grow, below `BUF_LEN`, and all but the four writers only
read it. -/
theorem bufferBitsAreNeverCleared : Obligations.BufferBitsAreNeverCleared := by
  intro i s t h
  obtain ⟨hbits, habove, -, -⟩ := exec_bufGrows h
  exact ⟨hbits, fun hi => exec_buf hi h, habove⟩

end Sys2Proof.Machine
end

section
/-! Decode and encode are inverse to each other (30_encoding.md R93, R97, R98, R103, R104): the two directions
for the command byte, and for the headers, whose decoder finds their end. -/

namespace Sys2Proof

/-! ### Commands -/

/-- No opcode is illegal (R103). -/
theorem decodeCommand_of_mem_opcodes :
    ∀ c ∈ opcodes, (decodeCommand c).wellFormed = true ∧ decodeCommand c ≠ .illegal c := by decide

/-- Every value that is no opcode is illegal (R104). -/
theorem decodeCommand_of_not_mem_opcodes {c : Byte} (h : c ∉ opcodes) : decodeCommand c = .illegal c := by
  have hback : BitVec.ofNat 8 c.toNat = c := by simp
  unfold decodeCommand
  split
  case h_16 => rfl
  all_goals
    rename_i hc
    rw [hc] at hback
    exact absurd (hback ▸ by decide) h

theorem wellFormed_decodeCommand (c : Byte) : (decodeCommand c).wellFormed = true := by
  by_cases h : c ∈ opcodes
  · exact (decodeCommand_of_mem_opcodes c h).1
  · rw [decodeCommand_of_not_mem_opcodes h]
    simpa [Instr.wellFormed] using h

/-- A command byte is the encoding of the instruction it decodes to (R103, R104). -/
theorem encode_decodeCommand (c : Byte) : encode (decodeCommand c) = .command c := by
  unfold decodeCommand
  split
  case h_16 => rfl
  all_goals exact congrArg Code.command (BitVec.eq_of_toNat_eq (Eq.symm ‹_›))

/-- Only a value that is no opcode decodes to an illegal command, and to itself (R104). -/
theorem decodeCommand_eq_illegal {c d : Byte} (h : decodeCommand c = .illegal d) : d = c ∧ c ∉ opcodes := by
  have hd : d = c := by
    have := encode_decodeCommand c
    rw [h] at this
    exact Code.command.inj this
  subst hd
  exact ⟨rfl, fun hmem => (decodeCommand_of_mem_opcodes d hmem).2 h⟩

/-! ### Headers -/

theorem HeaderForm.encode_toInstr (f : HeaderForm) : encode f.toInstr = .header f.bits := by
  cases f <;> rfl

theorem HeaderForm.wellFormed_toInstr (f : HeaderForm) : f.toInstr.wellFormed = f.wellFormed := by
  cases f <;> rfl

/-- A header is decoded whatever bits follow it (R97). -/
theorem decodeHeader_bits_append {f : HeaderForm} (hf : f.wellFormed = true) (rest : List Bool) :
    decodeHeader (f.bits ++ rest) = .ok (f, rest) := by
  have hflag := takeField_append (n := 1) (v := 0) (by decide)
  have ha := takeField_append (n := 3) (v := 7) (by decide)
  have hb := takeField_append (n := 2) (v := 3) (by decide)
  unfold decodeHeader
  cases f with
  | reuse => simp [HeaderForm.bits_reuse, takeField_append, headerOfFlag]
  | abs3 a => simp [HeaderForm.bits_abs3, hflag, headerOfFlag, takeField_append a.isLt, headerOfA_of_lt hf]
  | abs5 b =>
    simp [HeaderForm.bits_abs5, hflag, headerOfFlag, ha, headerOfA, takeField_append b.isLt,
      headerOfB_of_lt hf]
  | abs11 c =>
    simp [HeaderForm.bits_abs11, hflag, headerOfFlag, ha, headerOfA, hb, headerOfB,
      takeField_append c.isLt, headerOfC_of_le hf]
  | abs11Illegal c =>
    simp [HeaderForm.bits_abs11Illegal, hflag, headerOfFlag, ha, headerOfA, hb, headerOfB,
      takeField_append c.isLt, headerOfC_of_ge hf]

/-- The last field of an escaped header, put back behind its escapes (R93, R98). -/
theorem headerOfC_bits {c : Nat} (hc : c < 2 ^ 6) :
    (headerOfC c).bits = fieldBits 1 0 ++ (fieldBits 3 7 ++ (fieldBits 2 3 ++ fieldBits 6 c)) := by
  unfold headerOfC
  split
  · rw [HeaderForm.bits_abs11, BitVec.toNat_ofNat, Nat.mod_eq_of_lt hc]
  · rw [HeaderForm.bits_abs11Illegal, BitVec.toNat_ofNat, Nat.mod_eq_of_lt hc]

/-- What the header decoder answers is a well-formed header that the bits begin with (R97, R98). -/
theorem decodeHeader_eq_ok {bits rest : List Bool} {f : HeaderForm} (h : decodeHeader bits = .ok (f, rest)) :
    f.wellFormed = true ∧ bits = f.bits ++ rest := by
  unfold decodeHeader at h
  split at h
  case h_1 => cases h
  rename_i flag bits1 hflag
  obtain ⟨rfl, hflagLt⟩ := takeField_eq_ok hflag
  by_cases h1 : flag = 1
  · subst h1
    cases h
    exact ⟨rfl, rfl⟩
  obtain rfl : flag = 0 := by omega
  simp only [headerOfFlag, h1, if_false] at h
  split at h
  case h_1 => cases h
  rename_i a bits2 ha
  obtain ⟨rfl, haLt⟩ := takeField_eq_ok ha
  split at h
  · rename_i g hg
    obtain ⟨_, rfl, hwf⟩ := headerOfA_eq_some hg
    cases h
    rw [HeaderForm.bits_abs3, BitVec.toNat_ofNat, Nat.mod_eq_of_lt haLt, List.append_assoc]
    exact ⟨hwf, rfl⟩
  rename_i hescA
  have h7 : 7 ≤ a := by simpa [headerOfA] using hescA
  obtain rfl : a = 7 := by omega
  split at h
  case h_1 => cases h
  rename_i b bits3 hb
  obtain ⟨rfl, hbLt⟩ := takeField_eq_ok hb
  split at h
  · rename_i g hg
    obtain ⟨_, rfl, hwf⟩ := headerOfB_eq_some hg
    cases h
    rw [HeaderForm.bits_abs5, BitVec.toNat_ofNat, Nat.mod_eq_of_lt hbLt]
    exact ⟨hwf, by simp only [List.append_assoc]⟩
  rename_i hescB
  have h3 : 3 ≤ b := by simpa [headerOfB] using hescB
  obtain rfl : b = 3 := by omega
  split at h
  case h_1 => cases h
  rename_i c bits4 hc
  obtain ⟨rfl, hcLt⟩ := takeField_eq_ok hc
  cases h
  rw [headerOfC_bits hcLt]
  exact ⟨headerOfC_wellFormed hcLt, by simp only [List.append_assoc]⟩

/-- A bit string decodes exactly when it is one well-formed header, to that header (R97). -/
theorem decode_header_eq_ok {bits : List Bool} {i : Instr} :
    decode (.header bits) = .ok i ↔ ∃ f : HeaderForm, f.wellFormed = true ∧ f.bits = bits ∧ f.toInstr = i := by
  constructor
  · intro h
    unfold decode at h
    dsimp only at h
    split at h <;> cases h
    rename_i f hf
    obtain ⟨hwf, hbits⟩ := decodeHeader_eq_ok hf
    exact ⟨f, hwf, by rw [hbits, List.append_nil], rfl⟩
  · rintro ⟨f, hwf, rfl, rfl⟩
    have h := decodeHeader_bits_append hwf []
    rw [List.append_nil] at h
    simp only [decode, h]

/-! ### The statements -/

/-- A stream form is decoded from its encoding (R93, R97, R98). -/
theorem decode_encode_toInstr {f : HeaderForm} (h : f.toInstr.wellFormed = true) :
    decode (encode f.toInstr) = .ok f.toInstr := by
  rw [f.wellFormed_toInstr] at h
  rw [f.encode_toInstr]
  exact decode_header_eq_ok.mpr ⟨f, h, rfl, rfl⟩

/-- A well-formed instruction is decoded from its encoding (R93, R103, R104). -/
theorem decode_encode {i : Instr} (h : i.wellFormed = true) : decode (encode i) = .ok i := by
  cases i with
  | reuse => exact decode_encode_toInstr (f := .reuse) h
  | abs3 a => exact decode_encode_toInstr (f := .abs3 a) h
  | abs5 b => exact decode_encode_toInstr (f := .abs5 b) h
  | abs11 c => exact decode_encode_toInstr (f := .abs11 c) h
  | abs11Illegal c => exact decode_encode_toInstr (f := .abs11Illegal c) h
  | illegal c =>
    exact congrArg Except.ok (decodeCommand_of_not_mem_opcodes (by simpa [Instr.wellFormed] using h))
  | rdbit | rdbits | wrbits | posbits | align | seek | blkwidth | encblk | decblk | enchdr | dechdr
  | encframe | decframe | scanframe | reset => rfl

/-- Settles O2: each direction by the two kinds of code, the command byte and the header. -/
theorem decodeInvertsEncode : Obligations.DecodeInvertsEncode := by
  refine ⟨fun _ => decode_encode, fun c i h => ?_⟩
  cases c with
  | command c =>
    cases h
    exact ⟨wellFormed_decodeCommand c, encode_decodeCommand c⟩
  | header bits =>
    obtain ⟨f, hwf, rfl, rfl⟩ := decode_header_eq_ok.mp h
    exact ⟨f.wellFormed_toInstr.trans hwf, f.encode_toInstr⟩

/-- Settles O3: of two headers one of which begins the other, the decoder answers both from the same bits. -/
theorem headerDecodesBeforeAnyBits : Obligations.HeaderDecodesBeforeAnyBits := by
  refine ⟨fun f rest hf => decodeHeader_bits_append hf rest, ?_⟩
  rintro f g hf hg ⟨rest, hprefix⟩
  have hdecoded := decodeHeader_bits_append hg []
  rw [List.append_nil, ← hprefix, decodeHeader_bits_append hf] at hdecoded
  cases hdecoded
  rfl

/-- Settles O1: words written out, evaluated. -/
theorem sampleWordsDecode : Obligations.SampleWordsDecode := by
  unfold Obligations.SampleWordsDecode
  decide

end Sys2Proof

namespace Sys2Proof.Machine

/-- An illegal command raises its fault and does nothing else (R104, R224). -/
theorem exec_illegal_of_running (c : Byte) {s : State} (hr : Running s) :
    exec (.illegal c) s = .next (faultedWith 9#8 s) := by
  rw [exec_illegal, runCommand_of_check hr rfl, raiseFault_eq]
  rfl

/-- Settles O52: the decoder tells the opcodes from the other bytes, and the host's write runs what it
answers. -/
theorem illegalCommandsFault : Obligations.IllegalCommandsFault := by
  intro s c rest hr
  refine ⟨fun hmem d hd => (decodeCommand_eq_illegal hd).2 hmem, fun hmem => ?_⟩
  have hc := decodeCommand_of_not_mem_opcodes hmem
  refine ⟨hc, exec_illegal_of_running c hr, ?_⟩
  rw [(stepRunsTheDecodedCommand s c rest).1 _ (congrArg Except.ok hc)]
  exact exec_illegal_of_running c (s := { s with host := rest }) hr

end Sys2Proof.Machine
end

section
/-! `DECHDR` and the stream forms (42_header_code.md R162, R163; 30_encoding.md R97, R98): the fields of a header
are read one after another, so what `DECHDR` comes to is read off the field it stops at. -/

namespace Sys2Proof.Machine

/-! ### `DECHDR` by what header decoding comes to -/

variable {s t : State}

theorem exec_dechdr_of_done (hr : Running s) {w : Nat} (h : decHeader s = .done w t) :
    exec .dechdr s = .next (setResult w t) := by
  rw [exec_dechdr, runCommand_of_pass hr rfl, h]
  rfl

theorem exec_dechdr_of_raised (hr : Running s) (h : decHeader s = .raised t) : exec .dechdr s = .next t := by
  rw [exec_dechdr, runCommand_of_pass hr rfl, h]
  rfl

/-- Settles O24: header decoding answers the width, which `DECHDR` puts into `R_VAL`. -/
theorem dechdrDecodesTheHeader : Obligations.DechdrDecodesTheHeader := fun _ _ hr hw hl hfits hbits =>
  exec_dechdr_of_done hr (decHeader_of_holds hl hw hfits hbits)

/-- Settles O25: the bits are those of a reserved header. -/
theorem dechdrRefusesWidthsAbove64 : Obligations.DechdrRefusesWidthsAbove64 := by
  intro s c hr hw hc hfits hbits
  have hform : HeaderForm.bits (.abs11Illegal c) =
      [false, true, true, true, true, true] ++ (List.range 6).map fun i => c.getLsbD i := by
    rw [HeaderForm.bits_abs11Illegal]
    rfl
  rw [← hform] at hbits
  exact exec_dechdr_of_raised hr (decHeader_reserved hc hw hfits hbits)

/-! ### A header cut off by the end of the buffer -/

/-- A field read behind `k` bits already passed (R97, R120). -/
theorem readField_advance_of_holds {k n v : Nat} (hw : NoWrap s) (hv : v < 2 ^ n) (hfits : Fits s (k + n))
    (hbits : holdsBits s (s.pos.toNat + k) (fieldBits n v)) :
    readField n (advance k s) = .done v (advance (k + n) s) := by
  have hpos : (advance k s).pos.toNat = s.pos.toNat + k := advance_pos_toNat (by omega)
  rw [readField_of_holds hv (by rw [hpos]; exact (holdsBits_congr rfl).mp hbits)
    (by rw [hpos, advance_bufLen]; omega), advance_advance]

/-- A field cut off by the end of the buffer, behind `k` bits that were passed (R97, R229). -/
theorem readField_advance_of_not_fits {k n : Nat} (hw : NoWrap s) (hk : k = 0 ∨ Fits s k)
    (hfits : ¬Fits s (k + n)) : readField n (advance k s) = .raised (raiseFault .readOverrun (advance k s)) := by
  have hpos : (advance k s).pos.toNat = s.pos.toNat + k := by
    rcases hk with rfl | hk
    · rw [advance_zero, Nat.add_zero]
    · exact advance_pos_toNat (by omega)
  refine readField_of_not_fits ?_
  rw [hpos, advance_bufLen]
  omega

/-- The three escapes a header can begin with, and the widths of the fields after them (R93, R97). -/
theorem escape_cases {p : List Bool} {n : Nat}
    (h : (p, n) ∈ [([], 1), ([false], 3), ([false, true, true, true], 2),
      ([false, true, true, true, true, true], 6)]) :
    (p = [] ∧ n = 1) ∨ (p = fieldBits 1 0 ∧ n = 3) ∨ (p = fieldBits 1 0 ++ fieldBits 3 7 ∧ n = 2) ∨
      (p = fieldBits 1 0 ++ fieldBits 3 7 ++ fieldBits 2 3 ∧ n = 6) := by
  simp only [List.mem_cons, Prod.mk.injEq, List.not_mem_nil, or_false] at h
  exact h

/-- Fetching stops at the first field of a header that does not fit, behind the escapes before it (R97,
R162). -/
theorem fetchHeader_of_not_fits {p : List Bool} {n : Nat} (hw : NoWrap s)
    (hp : (p, n) ∈ [([], 1), ([false], 3), ([false, true, true, true], 2),
      ([false, true, true, true, true, true], 6)])
    (hbits : holdsBits s s.pos.toNat p) (hpassed : p = [] ∨ Fits s p.length)
    (hstop : ¬Fits s (p.length + n)) :
    fetchHeader s = .raised (raiseFault .readOverrun (advance p.length s)) := by
  have hlast := readField_advance_of_not_fits (n := n) hw (hpassed.imp_left (congrArg List.length)) hstop
  have hflag := readField_advance_of_holds (s := s) (k := 0) (n := 1) (v := 0) hw (by decide)
  have ha := readField_advance_of_holds (s := s) (k := 1) (n := 3) (v := 7) hw (by decide)
  have hb := readField_advance_of_holds (s := s) (k := 4) (n := 2) (v := 3) hw (by decide)
  rw [advance_zero] at hflag
  unfold fetchHeader
  rcases escape_cases hp with ⟨rfl, rfl⟩ | ⟨rfl, rfl⟩ | ⟨rfl, rfl⟩ | ⟨rfl, rfl⟩
  · rw [List.length_nil, advance_zero] at hlast ⊢
    rw [hlast, Run.bind_raised]
  · replace hpassed : Fits s 1 := hpassed.resolve_left nofun
    rw [hflag hpassed hbits, Run.bind_done]
    exact congrArg (Run.bind · _) hlast
  · replace hpassed : Fits s 4 := hpassed.resolve_left nofun
    obtain ⟨hbits1, hbits2⟩ := holdsBits_append.mp hbits
    rw [hflag (by omega) hbits1, Run.bind_done]
    simp only [headerOfFlag, Nat.zero_ne_one, if_false]
    rw [ha hpassed hbits2, Run.bind_done]
    exact congrArg (Run.bind · _) hlast
  · replace hpassed : Fits s 6 := hpassed.resolve_left nofun
    obtain ⟨hbits12, hbits3⟩ := holdsBits_append.mp hbits
    obtain ⟨hbits1, hbits2⟩ := holdsBits_append.mp hbits12
    rw [hflag (by omega) hbits1, Run.bind_done]
    simp only [headerOfFlag, Nat.zero_ne_one, if_false]
    rw [ha (by omega) hbits2, Run.bind_done]
    simp only [headerOfA, Nat.lt_irrefl, if_false]
    rw [hb hpassed hbits3, Run.bind_done]
    exact congrArg (Run.bind · _) hlast

/-- Settles O26: fetching raises the fault, before any width is set. -/
theorem dechdrStopsAtTheFirstMissingField : Obligations.DechdrStopsAtTheFirstMissingField := by
  intro s p n hr hw hp hbits hpassed hstop
  refine exec_dechdr_of_raised hr ?_
  rw [decHeader, fetchHeader_of_not_fits hw hp hbits hpassed hstop]
  rfl

/-! ### The stream forms -/

/-- The reserved form passes its bits and raises its fault (R98; log entry 10). -/
theorem exec_abs11Illegal_of_running (c : BitVec 6) (hr : Running s) :
    exec (.abs11Illegal c) s = .next (faultedWith 6#8 { s with pos := s.pos + 12#64 }) := by
  rw [exec_abs11Illegal, runCommand_of_pass hr rfl]
  rfl

/-- A width register takes the width of an absolute form, its offset and its field (R93, R95). -/
theorem ofNat_add_toNat {n : Nat} (w k : Nat) (x : BitVec n) :
    BitVec.ofNat w (k + x.toNat) = BitVec.ofNat w k + x.setWidth w := by
  rw [BitVec.ofNat_add, BitVec.ofNat_toNat]

/-- Settles O27: each form by its width. -/
theorem streamFormsSetTheWidth : Obligations.StreamFormsSetTheWidth := by
  intro s hr
  refine ⟨?_, fun a _ => ?_, fun b _ => ?_, fun c _ => ?_, fun c _ => exec_abs11Illegal_of_running c hr⟩
  · rw [exec_reuse, runCommand_of_pass hr rfl]
    rfl
  · rw [exec_abs3, runCommand_of_pass hr rfl, ← BitVec.ofNat_toNat]
    rfl
  · rw [exec_abs5, runCommand_of_pass hr rfl, ← ofNat_add_toNat]
    rfl
  · rw [exec_abs11, runCommand_of_pass hr rfl, ← ofNat_add_toNat]
    rfl

/-- A width register holds the whole of a width below 128 (R29). -/
theorem ofNat7_setWidth {w : Nat} (h : w < 128) : (BitVec.ofNat 7 w).setWidth 64 = BitVec.ofNat 64 w := by
  apply BitVec.eq_of_toNat_eq
  rw [BitVec.toNat_setWidth, ofNat7_toNat h, BitVec.toNat_ofNat]

/-- Settles O28: of a legal form both set the width, and of the reserved one both raise its fault. -/
theorem dechdrRunsTheFormAtPos : Obligations.DechdrRunsTheFormAtPos := by
  intro s bits rest f hr hw hbits hfits hdecode
  obtain ⟨hwf, rfl⟩ := decodeHeader_eq_ok hdecode
  replace hbits := (holdsBits_append.mp hbits).1
  replace hfits : Fits s f.length := by
    rw [List.length_append, HeaderForm.bits_length] at hfits
    omega
  rcases wellFormed_cases hwf with hl | ⟨c, rfl⟩
  · refine ⟨_, exec_toInstr_legal f hr hl, ?_⟩
    have hrunning : ¬(s.faulted = true) := by simpa using hr
    rw [dechdrDecodesTheHeader s f hr hw hl hfits hbits, ← ofNat7_setWidth (legal_width_lt hl s)]
    exact congrArg _ (if_neg hrunning).symm
  · refine ⟨_, exec_abs11Illegal_of_running c hr, ?_⟩
    have hc : 55 ≤ c.toNat := by simpa [HeaderForm.wellFormed] using hwf
    rw [exec_dechdr_of_raised hr (decHeader_reserved hc hw hfits hbits)]
    exact congrArg _ (if_pos (raiseFault_faulted .widthOutOfRange (advance 12 s))).symm

end Sys2Proof.Machine
end

section
/-! What the encoders write (41_block_codec.md R142, R143; 43_frame_codec.md R181, R182, R185): the fields of a
block, and the layout of a frame, which is one a decoder accepts (30_encoding.md R91, R96, R107). -/

namespace Sys2Proof.Machine

variable {s t : State}

/-! ### A block -/

/-- Settles O16: the fields are encoded one after another, once the checks pass. -/
theorem encblkWritesTheFields : Obligations.EncblkWritesTheFields := by
  intro s hr hw hbs hn hk hidx hfits
  obtain ⟨b, e, hored⟩ := encBlock_done s.opIdx s.opK s.opN s hw hfits
  refine ⟨{ s with buf := b, pos := s.pos + BitVec.ofNat 64 (s.opK * s.opN) }, ?_, rfl, hored.of_buf_eq rfl⟩
  rw [exec_encblk, runCommand_of_pass hr (encblkChecks_pass hbs hn hk hidx), e]
  rfl

/-! ### A frame command whose loop completes -/

/-- A frame command whose loop ends `n` bits behind byte `a`: `frame_end()` aligns `POS` and reports its byte
(R181). -/
theorem runFrame_of_done {block : Nat → State → Run Unit} {a n : Nat}
    (h : frameBlocks block s.frameLen.toNat (frameStart s) = .done () t)
    (hpos : t.pos = BitVec.ofNat 64 (8 * a) + BitVec.ofNat 64 n) (hn : 8 * a + n ≤ 8 * t.bufLen.toNat)
    (hw : NoWrap t) :
    (runFrame block s).state = { t with
      pos := BitVec.ofNat 64 (8 * (a + (n + 7) / 8)), nextOff := BitVec.ofNat 64 (a + (n + 7) / 8) } := by
  obtain ⟨hp, hnext⟩ := frameEnd_positions hn hw
  rw [runFrame, h, ← hp, ← hnext, ← hpos]
  rfl

/-! ### `ENCFRAME` -/

/-- The block loop of `ENCFRAME` over a frame that fits, from where the frame starts (R181, R182). -/
theorem encframe_loop {blocks : List StreamBlock} (hw : NoWrap s) (hbs : s.blockSize ≠ 0#64)
    (hoff : s.aOff.toNat ≤ s.bufLen.toNat) (hbl : blocks = encodedFrame s)
    (hfits : 8 * s.aOff.toNat + (blockBits 0 blocks).length ≤ 8 * s.bufLen.toNat) :
    ∃ b, frameBlocks encFrameBlock s.frameLen.toNat (frameStart s) = .done ()
        { s with
          buf := b,
          pos := BitVec.ofNat 64 (8 * s.aOff.toNat) + BitVec.ofNat 64 (blockBits 0 blocks).length,
          prevW := BitVec.ofNat 7 (lastWidth 0 blocks),
          curW := if blocks = [] then s.curW else BitVec.ofNat 7 (lastWidth 0 blocks),
          consumed := s.frameLen,
          maxW := BitVec.ofNat 7 (widest s.maxW.toNat 0 blocks) } ∧
      OredAt s { s with buf := b } (8 * s.aOff.toNat) (blockBits 0 blocks) := by
  have hstart := frameStart_pos_toNat hw hoff
  obtain ⟨b, e, hored⟩ := encFrameBlocks_done s.frameLen.toNat (frameStart s) hw (blockSize_pos hbs)
    (Nat.zero_le _) (Nat.zero_le _) (Nat.sub_le _ _) blocks
    ((encodedBlocks_congr (s := frameStart s) (t := s) rfl rfl rfl rfl _ _ _).trans hbl.symm)
    (by rw [hstart]; exact hfits)
  rw [hstart] at hored
  exact ⟨b, e, ⟨hored.bit, hored.outside⟩⟩

/-- Settles O30: the loop leaves the cursor behind the last bit, and `frame_end()` aligns it. -/
theorem encframeWritesTheLayout : Obligations.EncframeWritesTheLayout := by
  intro s blocks hr hw hbs hoff hlen hbl hfits
  obtain ⟨b, e, hored⟩ := encframe_loop hw hbs hoff hbl hfits
  have hexec := runCommand_of_pass hr (encframeChecks_pass hbs hoff hlen) (runFrame encFrameBlock)
  rw [← exec_encframe, runFrame_of_done e rfl hfits hw] at hexec
  exact ⟨_, hexec, rfl, hored.of_buf_eq rfl⟩

/-! ### The frame an encoder makes -/

theorem formFor_eq_reuse_iff {w prev : Nat} : formFor w prev = .reuse ↔ w = prev := by
  unfold formFor
  split
  case isTrue h => exact iff_of_true rfl h
  case isFalse h =>
    refine iff_of_false ?_ h
    split
    · nofun
    · split <;> nofun

/-- Settles O31: the encoder's blocks cover the frame and are legal, and each header is the one its rule
chooses. -/
theorem encodedFrameIsLegalAndCanonical : Obligations.EncodedFrameIsLegalAndCanonical := by
  intro s hbs
  have hB := blockSize_pos hbs
  refine ⟨encodedBlocks_cover s hB _ 0 0 (Nat.zero_le _) (Nat.sub_le _ _), encodedBlocks_legal s _ 0 0,
    encodedBlocks_length s hB _ 0 0 (Nat.sub_le _ _), fun before b after h => ?_⟩
  obtain ⟨w, _, _, hw, hform, -⟩ := encodedBlocks_split s _ 0 0 before b after h
  have hw64 : w ≤ 64 := by rcases s.srcWidth_cases with h | h | h | h <;> omega
  rw [hform, formFor_width hw64]
  exact formFor_eq_reuse_iff

end Sys2Proof.Machine
end

section
/-! What `DECFRAME` and `SCANFRAME` make of a stream (43_frame_codec.md R181, R184, R186): both pass the same
legal blocks and come to the same position, where the frame ends or a reserved header stops it
(30_encoding.md R98). -/

namespace Sys2Proof.Machine

/-- The buffer holds these legal blocks, of `n` values in all, from byte `A_OFF` on (R91, R96, R98). -/
structure StreamAt (s : State) (n : Nat) (blocks : List StreamBlock) : Prop where
  noWrap : NoWrap s
  blockSize : s.blockSize ≠ 0#64
  offset : s.aOff.toNat ≤ s.bufLen.toNat
  cover : blocksCover s.blockSize.toNat n blocks = true
  legal : blocksLegal 0 blocks = true
  fits : 8 * s.aOff.toNat + (blockBits 0 blocks).length ≤ 8 * s.bufLen.toNat
  holds : holdsBits s (8 * s.aOff.toNat) (blockBits 0 blocks)

/-- The state in which a frame command stands behind these blocks, of `n` values in all, with the sink `vo`
(R180, R184, R186). -/
def behindBlocks (s : State) (n : Nat) (blocks : List StreamBlock) (vo : List (Nat × Word)) : State :=
  { s with
    vout := vo,
    pos := BitVec.ofNat 64 (8 * s.aOff.toNat) + BitVec.ofNat 64 (blockBits 0 blocks).length,
    prevW := BitVec.ofNat 7 (lastWidth 0 blocks),
    curW := if blocks = [] then s.curW else BitVec.ofNat 7 (lastWidth 0 blocks),
    consumed := BitVec.ofNat 64 n }

variable {s : State} {n : Nat} {blocks : List StreamBlock} {vo : List (Nat × Word)}

theorem StreamAt.behindBlocks_pos (h : StreamAt s n blocks) :
    (behindBlocks s n blocks vo).pos.toNat = 8 * s.aOff.toNat + (blockBits 0 blocks).length := by
  have hw := h.noWrap
  have hfits := h.fits
  simp only [behindBlocks, BitVec.toNat_add, BitVec.toNat_ofNat]
  omega

theorem behindBlocks_consumed (hn : n ≤ s.frameLen.toNat) :
    (behindBlocks s n blocks vo).consumed.toNat = n := by
  have := s.frameLen.isLt
  simp only [behindBlocks, BitVec.toNat_ofNat]
  omega

/-! ### The loops over whole blocks -/

/-- The loop of `DECFRAME` passes whole blocks and stores what they decode to (R184). -/
theorem StreamAt.decframe_loop (h : StreamAt s n blocks) (hn : n ≤ s.frameLen.toNat)
    (hwhole : n = s.frameLen.toNat ∨ n % s.blockSize.toNat = 0) :
    ∃ vo fuel, frameBlocks decFrameBlock s.frameLen.toNat (frameStart s) =
        frameBlocks decFrameBlock fuel (behindBlocks s n blocks vo) ∧
      StoredAt s { s with vout := vo } 0 (decodedElements s 0 blocks) ∧ s.frameLen.toNat - n ≤ fuel := by
  have hstart := frameStart_pos_toNat h.noWrap h.offset
  obtain ⟨vo, fuel, e, hstored, hfuel⟩ := decFrameBlocks_prefix s.frameLen.toNat blocks n (frameStart s) h.noWrap
    (Nat.zero_le _) (Nat.zero_le _) (Nat.sub_le _ _) hn hwhole (blockSize_pos h.blockSize) h.cover h.legal
    (by rw [hstart]; exact h.fits) (by rw [hstart]; exact (holdsBits_congr rfl).mp h.holds)
  rw [frameStart_consumed, BitVec.zero_add] at e
  rw [decodedElements_congr (s := frameStart s) (t := s) rfl] at hstored
  simp only [frameStart_consumed, BitVec.toNat_zero, Nat.zero_add] at hfuel
  exact ⟨vo, fuel, e, ⟨hstored.cells⟩, hfuel⟩

/-- The loop of `SCANFRAME` passes whole blocks (R186). -/
theorem StreamAt.scanframe_loop (h : StreamAt s n blocks) (hn : n ≤ s.frameLen.toNat)
    (hwhole : n = s.frameLen.toNat ∨ n % s.blockSize.toNat = 0) :
    ∃ fuel, frameBlocks scanFrameBlock s.frameLen.toNat (frameStart s) =
        frameBlocks scanFrameBlock fuel (behindBlocks s n blocks s.vout) ∧ s.frameLen.toNat - n ≤ fuel := by
  have hstart := frameStart_pos_toNat h.noWrap h.offset
  obtain ⟨fuel, e, hfuel⟩ := scanFrameBlocks_prefix s.frameLen.toNat blocks n (frameStart s) h.noWrap
    (Nat.zero_le _) (Nat.zero_le _) (Nat.sub_le _ _) hn hwhole (blockSize_pos h.blockSize) h.cover h.legal
    (by rw [hstart]; exact h.fits) (by rw [hstart]; exact (holdsBits_congr rfl).mp h.holds)
  rw [frameStart_consumed, BitVec.zero_add] at e
  simp only [frameStart_consumed, BitVec.toNat_zero, Nat.zero_add] at hfuel
  exact ⟨fuel, e, hfuel⟩

/-! ### The end of the frame -/

/-- A frame command ends behind the blocks of its frame: `POS` is aligned, `NEXT_OFF` reports it and
`CONSUMED` is `FRAME_LEN` (R180, R181). -/
theorem StreamAt.runFrame_complete (h : StreamAt s s.frameLen.toNat blocks)
    {block : Nat → State → Run Unit} {fuel : Nat}
    (e : frameBlocks block s.frameLen.toNat (frameStart s) =
      frameBlocks block fuel (behindBlocks s s.frameLen.toNat blocks vo)) :
    (runFrame block s).state = { s with
      vout := vo,
      pos := BitVec.ofNat 64 (8 * (s.aOff.toNat + ((blockBits 0 blocks).length + 7) / 8)),
      nextOff := BitVec.ofNat 64 (s.aOff.toNat + ((blockBits 0 blocks).length + 7) / 8),
      prevW := BitVec.ofNat 7 (lastWidth 0 blocks),
      curW := if blocks = [] then s.curW else BitVec.ofNat 7 (lastWidth 0 blocks),
      consumed := s.frameLen } := by
  have hend : ¬(behindBlocks s s.frameLen.toNat blocks vo).consumed.toNat < s.frameLen.toNat := by
    rw [behindBlocks_consumed (Nat.le_refl _)]
    exact Nat.lt_irrefl _
  have hall : BitVec.ofNat 64 s.frameLen.toNat = s.frameLen := by simp
  rw [frameBlocks_end block fuel hend] at e
  rw [runFrame_of_done e rfl h.fits h.noWrap]
  simp only [behindBlocks, hall]

/-- Settles O34: the loop stores the blocks of the frame and ends behind them. -/
theorem decframeDecodesTheLayout : Obligations.DecframeDecodesTheLayout := by
  intro s blocks hr hw hbs hoff hsign hlen hcover hlegal hfits hholds
  have hstream : StreamAt s s.frameLen.toNat blocks := ⟨hw, hbs, hoff, hcover, hlegal, hfits, hholds⟩
  obtain ⟨vo, fuel, e, hstored, -⟩ := hstream.decframe_loop (Nat.le_refl _) (.inl rfl)
  have hexec := runCommand_of_pass hr (decframeChecks_pass hbs hoff hsign hlen) (runFrame decFrameBlock)
  rw [← exec_decframe, hstream.runFrame_complete e] at hexec
  exact ⟨_, hexec, rfl, hstored.of_vout_eq rfl⟩

/-- Settles O35: the loop passes the blocks of the frame and ends behind them. -/
theorem scanframeSkipsTheLayout : Obligations.ScanframeSkipsTheLayout := by
  intro s blocks hr hw hbs hoff hcover hlegal hfits hholds
  have hstream : StreamAt s s.frameLen.toNat blocks := ⟨hw, hbs, hoff, hcover, hlegal, hfits, hholds⟩
  obtain ⟨fuel, e, -⟩ := hstream.scanframe_loop (Nat.le_refl _) (.inl rfl)
  rw [exec_scanframe, runCommand_of_pass hr (scanframeChecks_pass hbs hoff), hstream.runFrame_complete e]

/-! ### A reserved header -/

/-- A reserved header behind the blocks stops header decoding (R98, R162). -/
theorem StreamAt.decHeader_behindBlocks (h : StreamAt s n blocks) {c : BitVec 6} (hc : 55 ≤ c.toNat)
    (hfits : 8 * s.aOff.toNat + (blockBits 0 blocks).length + 12 ≤ 8 * s.bufLen.toNat)
    (hholds : holdsBits s (8 * s.aOff.toNat + (blockBits 0 blocks).length)
      (HeaderForm.bits (.abs11Illegal c))) :
    decHeader (behindBlocks s n blocks vo) =
      .raised (raiseFault .widthOutOfRange (advance 12 (behindBlocks s n blocks vo))) := by
  refine decHeader_reserved hc h.noWrap ?_ ?_
  · rw [h.behindBlocks_pos]
    exact hfits
  · rw [h.behindBlocks_pos]
    exact (holdsBits_congr rfl).mp hholds

/-- A frame command whose block raises a fault behind blocks that leave values to come ends there, without
`frame_end()` (R181, R229). -/
theorem runFrame_raised {block : Nat → State → Run Unit} {fuel : Nat} {t : State} (hn : n < s.frameLen.toNat)
    (hfuel : s.frameLen.toNat - n ≤ fuel)
    (e : frameBlocks block s.frameLen.toNat (frameStart s) =
      frameBlocks block fuel (behindBlocks s n blocks vo))
    (hblock : ∀ k, block k (behindBlocks s n blocks vo) = .raised t) : (runFrame block s).state = t := by
  obtain ⟨fuel, rfl⟩ : ∃ f, fuel = f + 1 := ⟨fuel - 1, by omega⟩
  have hmore : (behindBlocks s n blocks vo).consumed.toNat < (behindBlocks s n blocks vo).frameLen.toNat := by
    rw [behindBlocks_consumed hn.le]
    exact hn
  rw [runFrame, e, frameBlocks, if_pos hmore, hblock]
  rfl

/-- Where a reserved header behind the blocks leaves the machine (R98, R224). -/
theorem raiseFault_behindBlocks :
    raiseFault .widthOutOfRange (advance 12 (behindBlocks s n blocks vo)) = faultedWith 6#8
      { s with
        vout := vo,
        pos := BitVec.ofNat 64 (8 * s.aOff.toNat + (blockBits 0 blocks).length + 12),
        prevW := BitVec.ofNat 7 (lastWidth 0 blocks),
        curW := if blocks = [] then s.curW else BitVec.ofNat 7 (lastWidth 0 blocks),
        consumed := BitVec.ofNat 64 n } := by
  rw [BitVec.ofNat_add, BitVec.ofNat_add]
  rfl

/-- Settles O36: both loops come to the reserved header, and header decoding stops there. -/
theorem framesStopAtAReservedHeader : Obligations.FramesStopAtAReservedHeader := by
  intro s blocks c n hr hw hbs hoff hc hn hcover hwhole hlegal hfits hbits
  obtain ⟨hholds, hheader⟩ := holdsBits_append.mp hbits
  have hstream : StreamAt s n blocks := ⟨hw, hbs, hoff, hcover, hlegal, by omega, hholds⟩
  refine ⟨?_, fun hsign hlen => ?_⟩
  · obtain ⟨fuel, e, hfuel⟩ := hstream.scanframe_loop hn.le (.inr hwhole)
    rw [exec_scanframe, runCommand_of_pass hr (scanframeChecks_pass hbs hoff), runFrame_raised hn hfuel e
      fun k => by rw [scanFrameBlock, hstream.decHeader_behindBlocks hc hfits hheader, Run.bind_raised]]
    exact congrArg _ raiseFault_behindBlocks
  · obtain ⟨vo, fuel, e, hstored, hfuel⟩ := hstream.decframe_loop hn.le (.inr hwhole)
    have hexec := runCommand_of_pass hr (decframeChecks_pass hbs hoff hsign hlen) (runFrame decFrameBlock)
    rw [← exec_decframe, runFrame_raised hn hfuel e
      fun k => by rw [decFrameBlock, hstream.decHeader_behindBlocks hc hfits hheader, Run.bind_raised],
      raiseFault_behindBlocks] at hexec
    exact ⟨_, hexec, rfl, hstored.of_vout_eq rfl⟩

end Sys2Proof.Machine
end

section
/-! The commands on the bit cursor (40_bit_cursor.md R121 to R126): each is its checks, one operation at `POS`,
and what that operation leaves in the state. -/

namespace Sys2Proof.Machine

variable {s : State} {n : Nat}

/-! ### The check on `A_N` -/

/-- A command that checks `A_N` alone refuses a width above 64, whatever it would do (R223). -/
theorem runCommand_of_badWidth (hr : Running s) (h : 64 < s.aN.toNat) (body : State → Run Unit) :
    runCommand [badWidth s] body s = .next (faultedWith 7#8 s) := by
  rw [badWidth_fail h]
  exact runCommand_of_check hr (k := .badArgument) rfl body

/-- It runs for a width up to 64 (R223). -/
theorem runCommand_of_goodWidth (hr : Running s) (h : s.aN.toNat ≤ 64) (body : State → Run Unit) :
    runCommand [badWidth s] body s = .next (body s).state := by
  rw [badWidth_pass h]
  exact runCommand_of_pass hr rfl body

/-! ### Reading a field into `R_VAL` -/

theorem readResult_of_fits (h : Fits s n) :
    (readResult n s).state = { s with
      rVal := BitVec.ofNat 64 (memRead s s.pos.toNat n), pos := s.pos + BitVec.ofNat 64 n } := by
  rw [readResult, readField_of_fits h]
  rfl

theorem readResult_of_not_fits (h : ¬Fits s n) : (readResult n s).state = faultedWith 4#8 s := by
  rw [readResult, readField_of_not_fits h]
  rfl

/-- Reading a field neither uses nor changes `A_N`: the width is what it was told (R122). -/
theorem readResult_ignores_aN (n : Nat) (s : State) (b : Byte) :
    (readResult n s).state = { (readResult n { s with aN := b }).state with aN := s.aN } := by
  by_cases h : Fits s n
  · have hsame : memRead { s with aN := b } s.pos.toNat n = memRead s s.pos.toNat n :=
      memRead_of_buf_eq (by rfl) _ _
    rw [readResult_of_fits h, readResult_of_fits (s := { s with aN := b }) h, hsame]
  · rw [readResult_of_not_fits h, readResult_of_not_fits (s := { s with aN := b }) h]
    rfl

/-- The bits of a field of at most 64 bits in a register: those of the buffer, then zeros (R35, R60). -/
theorem ofNat64_memRead_getLsbD (s : State) (p : Nat) (h64 : n ≤ 64) (i : Nat) :
    (BitVec.ofNat 64 (memRead s p n)).getLsbD i = (decide (i < n) && s.bufBit (p + i)) := by
  have hrange : (i < 64 ∧ i < n) ↔ i < n := by omega
  rw [BitVec.getLsbD_ofNat, memRead_testBit, ← Bool.and_assoc, ← Bool.decide_and, decide_eq_decide.mpr hrange]

/-- A field of one bit is that bit (R60). -/
theorem ofNat64_memRead_one (s : State) (p : Nat) :
    BitVec.ofNat 64 (memRead s p 1) = if s.bufBit p then 1#64 else 0#64 := by
  rw [memRead, memRead]
  cases s.bufBit p <;> rfl

/-- Settles O5: past the check, `RDBITS` is `readResult` of `A_N` bits. -/
theorem rdbitsReadsAField : Obligations.RdbitsReadsAField := by
  refine ⟨rfl, fun s hr => ⟨fun h => ?_, fun h64 hout => ?_, fun h64 hfits => ?_⟩⟩
  · rw [exec_rdbits, runCommand_of_badWidth hr h]
  · rw [exec_rdbits, runCommand_of_goodWidth hr h64, State.opN, readResult_of_not_fits hout]
  · refine ⟨_, ofNat64_memRead_getLsbD s s.pos.toNat h64, ?_⟩
    rw [exec_rdbits, runCommand_of_goodWidth hr h64, State.opN, readResult_of_fits hfits]

/-- `RDBIT` is `readResult` of one bit, with no check before it (R122). -/
theorem exec_rdbit_of_running (hr : Running s) : exec .rdbit s = .next (readResult 1 s).state := by
  rw [exec_rdbit, runCommand_of_pass hr firstFailing_nil]

/-- Settles O6: `RDBITS` with 1 in `A_N` passes its check and is the same `readResult`. -/
theorem rdbitReadsOneBit : Obligations.RdbitReadsOneBit := by
  refine ⟨rfl, fun s hr =>
    ⟨fun hfits => ?_, fun hout => ?_, (readResult 1 { s with aN := 1#8 }).state, ?_, ?_⟩⟩
  · rw [exec_rdbit_of_running hr, readResult_of_fits hfits, ofNat64_memRead_one]
  · rw [exec_rdbit_of_running hr, readResult_of_not_fits hout]
  · exact runCommand_of_goodWidth (s := { s with aN := 1#8 }) hr (by decide : (1#8).toNat ≤ 64) _
  · rw [exec_rdbit_of_running hr, readResult_ignores_aN 1 s 1#8]

/-! ### Writing a field -/

/-- ORing in the low `n` bits of a word, bit by bit (R61). -/
theorem OredAt.low_bit {t : State} {p : Nat} {x : Word} (h : OredAt s t p (fieldBits n (x.toNat % 2 ^ n)))
    (q : Nat) : t.bufBit q = (s.bufBit q || (decide (p ≤ q ∧ q < p + n) && x.getLsbD (q - p))) := by
  have hrange : (p ≤ q ∧ q < p + n) ↔ (p ≤ q ∧ q - p < n) := by omega
  rw [h.bit, fieldBits_getD, Nat.testBit_mod_two_pow, decide_eq_decide.mpr hrange, Bool.decide_and,
    BitVec.getLsbD]
  simp only [Bool.and_assoc, Bool.and_self_left]

/-- The bytes a field of bits does not touch, by their numbers (R61). -/
theorem OredAt.untouched {t : State} {p v : Nat} (h : OredAt s t p (fieldBits n v)) {j : Nat}
    (hj : ¬(0 < n ∧ p / 8 ≤ j ∧ j ≤ (p + n - 1) / 8)) :
    Memory.read? t.buf j = Memory.read? s.buf j := by
  refine h.outside j fun hin => hj ?_
  rw [fieldBits_length] at hin
  omega

/-- Settles O7: past the check, `WRBITS` is `write_field` of the low bits of `A_VAL`. -/
theorem wrbitsOrsAField : Obligations.WrbitsOrsAField := by
  refine ⟨rfl, fun s hr => ⟨fun h => ?_, fun h64 hout => ?_, fun h64 hfits => ?_⟩⟩
  · rw [exec_wrbits, runCommand_of_badWidth hr h]
  · rw [exec_wrbits, runCommand_of_goodWidth hr h64, State.opN, writeField_of_not_fits hout]
    rfl
  · have hlow : s.aVal.toNat % 2 ^ s.aN.toNat < 2 ^ s.aN.toNat := Nat.mod_lt _ (by positivity)
    obtain ⟨b, hdone, hored⟩ := writeField_done hlow hfits
    refine ⟨{ s with buf := b, pos := s.pos + BitVec.ofNat 64 s.aN.toNat }, ?_, rfl, hored.low_bit,
      fun _ => hored.untouched⟩
    rw [exec_wrbits, runCommand_of_goodWidth hr h64, State.opN, hdone, Run.state_done]

/-! ### Placing and reporting the cursor -/

/-- Settles O8: a 64-bit register holds the whole of `POS`. -/
theorem posbitsReportsThePosition : Obligations.PosbitsReportsThePosition := by
  refine ⟨rfl, fun s hr => ?_⟩
  have hwhole : BitVec.ofNat 64 s.pos.toNat = s.pos := by rw [BitVec.ofNat_toNat, BitVec.setWidth_eq]
  rw [exec_posbits, runCommand_of_pass hr firstFailing_nil, Run.state_done, setResult, hwhole]

/-- No multiple of 8 from the position on is below the aligned position (R125). -/
theorem alignUp_least {p q : Nat} (hq : q % 8 = 0) (h : p ≤ q) : alignUp p ≤ q := by
  have hmul : 8 * (q / 8) = q := by omega
  rw [← hmul] at h ⊢
  exact alignUp_le h

/-- Up to the last multiple of 8 that `POS` can hold, aligning does not wrap (R32, R125). -/
theorem alignPos_pos_toNat (h : s.pos.toNat ≤ 2 ^ 64 - 8) : (alignPos s).pos.toNat = alignUp s.pos.toNat := by
  have hle := alignUp_least (by decide) h
  rw [alignPos_pos, BitVec.toNat_ofNat, Nat.mod_eq_of_lt (by omega)]

/-- Settles O9: `POS` becomes `alignUp` of itself, the least multiple of 8 not below it. -/
theorem alignRoundsThePositionUp : Obligations.AlignRoundsThePositionUp := by
  refine ⟨rfl, fun s hr hpos => ⟨(alignPos s).pos, ?_, ?_⟩⟩
  · rw [exec_align, runCommand_of_pass hr firstFailing_nil]
    rfl
  · obtain ⟨hmul, hle, -⟩ := alignUp_spec s.pos.toNat
    rw [alignPos_pos_toNat hpos]
    exact ⟨rfl, hmul, hle, fun _ => alignUp_least, alignUp_le⟩

/-- A byte offset inside the buffer is a bit position that does not wrap (R32, R126). -/
theorem seekPos_pos_toNat (hw : NoWrap s) (h : s.aOff.toNat ≤ s.bufLen.toNat) :
    (seekPos s).pos.toNat = 8 * s.aOff.toNat := by
  rw [seekPos_pos, ← frameStart_pos, frameStart_pos_toNat hw h]

/-- Settles O10: past the check on `A_OFF`, `SEEK` is `seekPos`. -/
theorem seekPlacesTheCursor : Obligations.SeekPlacesTheCursor := by
  refine ⟨rfl, fun s hr hw =>
    ⟨fun hout => ?_, fun hin => ⟨(seekPos s).pos, ?_, seekPos_pos_toNat hw hin⟩⟩⟩
  · rw [exec_seek, badOffset_fail hout]
    exact runCommand_of_check hr (k := .badArgument) rfl _
  · rw [exec_seek, badOffset_pass hin, runCommand_of_pass hr rfl]
    rfl

end Sys2Proof.Machine
end

section
/-! The block codec (41_block_codec.md R140 to R146): the width of a block and what it holds, decoded values, the
checks of the block commands, their overruns, and the round trip of a block. -/

namespace Sys2Proof.Machine

variable {s : State}

/-! ### The width of a block -/

theorem blockWidth_of_signed (hs : s.signedMode = true) (idx k : Nat) :
    blockWidth s idx k =
      if maxMagnitude s idx k = 0 then 0 else min (1 + bitlen (maxMagnitude s idx k)) s.srcWidth := by
  simp [blockWidth, hs]

theorem blockWidth_of_unsigned (hs : s.signedMode = false) (idx k : Nat) :
    blockWidth s idx k = bitlen (maxMagnitude s idx k) := by
  simp [blockWidth, hs]

theorem maxMagnitude_eq_zero_iff (s : State) (idx k : Nat) :
    maxMagnitude s idx k = 0 ↔ ∀ i, i < k → s.sourceValue (idx + i) = 0 := by
  constructor
  · intro h i hi
    have hle := le_maxMagnitude s idx k i hi
    omega
  · intro h
    exact Nat.le_zero.mp (maxMagnitude_le s idx k 0 fun i hi => by simp [h i hi])

/-- The greatest magnitude, as R140 has it, is 0 for no value and the magnitude of a value otherwise. -/
theorem maxMagnitude_eq_zero_or_attained (s : State) (idx k : Nat) :
    maxMagnitude s idx k = 0 ∨
      ∃ i, i < k ∧ (s.sourceValue (idx + i)).natAbs = maxMagnitude s idx k := by
  rcases Nat.eq_zero_or_pos k with rfl | hk
  · exact .inl rfl
  · exact .inr (maxMagnitude_attained s idx k hk)

/-- Only zeros need no bits (R140). -/
theorem blockWidth_eq_zero_iff (s : State) (idx k : Nat) :
    blockWidth s idx k = 0 ↔ maxMagnitude s idx k = 0 := by
  cases hs : s.signedMode with
  | false => rw [blockWidth_of_unsigned hs, bitlen_eq_zero]
  | true =>
    rw [blockWidth_of_signed hs]
    by_cases hm : maxMagnitude s idx k = 0
    · rw [if_pos hm]
      exact iff_of_true rfl hm
    · rw [if_neg hm]
      refine iff_of_false ?_ hm
      rcases s.srcWidth_cases with h | h | h | h <;> omega

/-- A signed value other than 0 needs its sign bit beside a bit of its magnitude (R140). -/
theorem blockWidth_ne_one_of_signed (hs : s.signedMode = true) (idx k : Nat) : blockWidth s idx k ≠ 1 := by
  rw [blockWidth_of_signed hs]
  by_cases hm : maxMagnitude s idx k = 0
  · rw [if_pos hm]
    decide
  · rw [if_neg hm]
    have hbits : bitlen (maxMagnitude s idx k) ≠ 0 := fun h => hm (bitlen_eq_zero.mp h)
    rcases s.srcWidth_cases with h | h | h | h <;> omega

/-- `pat_N` keeps a number of `N` bits (R6). -/
theorem pat_of_nonneg {n : Nat} {v : Int} (h0 : 0 ≤ v) (h : v < 2 ^ n) : (pat n v : Int) = v := by
  lift v to Nat using h0
  rw [pat_natCast, Nat.mod_eq_of_lt (by exact_mod_cast h)]

/-- Settles O15: a field as wide as the block's width, read back in the mode of the source, is the value. -/
theorem blockWidthHoldsEveryValue : Obligations.BlockWidthHoldsEveryValue := by
  refine fun s idx k => ⟨blockWidth_le_srcWidth s idx k, fun hs => blockWidth_ne_one_of_signed hs idx k,
    (blockWidth_eq_zero_iff s idx k).trans (maxMagnitude_eq_zero_iff s idx k), fun i hi w hw hpos => ?_⟩
  obtain ⟨hsigned, hunsigned⟩ := sourceValue_fits_blockWidth s idx k i hi hw
  cases hs : s.signedMode with
  | true =>
    obtain ⟨hlo, hhi, -⟩ := hsigned hs
    exact sint_pat hpos hlo hhi
  | false =>
    obtain ⟨hlo, hhi⟩ := hunsigned hs
    exact pat_of_nonneg hlo hhi

/-- Settles O14: `M` is `maxMagnitude` of the block. -/
theorem blkwidthComputesTheWidth : Obligations.BlkwidthComputesTheWidth := by
  refine ⟨rfl, fun s hr => ⟨fun hbs => ?_, fun hbs hk => ?_, fun hbs hk hidx => ?_, fun hbs hk hidx => ?_⟩⟩
  · rw [exec_blkwidth, badBlockSize_fail hbs]
    exact runCommand_of_check hr (k := .badConfig) rfl _
  · rw [exec_blkwidth, badBlockSize_pass hbs, badCount_fail hk]
    exact runCommand_of_check hr (k := .badArgument) rfl _
  · rw [exec_blkwidth, badBlockSize_pass hbs, badCount_pass hk, blockTooLong_fail hidx]
    exact runCommand_of_check hr (k := .sizeMismatch) rfl _
  · refine ⟨maxMagnitude s s.opIdx s.opK, le_maxMagnitude s s.opIdx s.opK,
      maxMagnitude_eq_zero_or_attained s s.opIdx s.opK, ?_⟩
    rw [exec_blkwidth, badBlockSize_pass hbs, badCount_pass hk, blockTooLong_pass hidx,
      runCommand_of_pass hr rfl]
    rfl

/-! ### Decoded values -/

/-- A signed field is sign-extended and clamped to the range of the sink (R144). -/
theorem sint_decValue_of_signed (hs : s.signedMode = true) (f w : Nat) :
    sint s.tgtWidth (decValue s f w) =
      clamp (sint w f) (-(2 ^ (s.tgtWidth - 1))) (2 ^ (s.tgtWidth - 1) - 1) := by
  have hT : 0 < s.tgtWidth := by rcases s.tgtWidth_cases with h | h | h | h <;> omega
  have hpow : (0 : Int) < 2 ^ (s.tgtWidth - 1) := by positivity
  obtain ⟨hlo, hhi⟩ := clamp_range (v := sint w f)
    (show -(2 ^ (s.tgtWidth - 1)) ≤ (2 : Int) ^ (s.tgtWidth - 1) - 1 by omega)
  rw [decValue, if_pos hs]
  exact sint_pat hT hlo (by omega)

/-- A signed field no wider than the sink is in its range (R144). -/
theorem clamp_sint_of_le {f w T : Nat} (hw : 0 < w) (hf : f < 2 ^ w) (hT : w ≤ T) :
    clamp (sint w f) (-(2 ^ (T - 1))) (2 ^ (T - 1) - 1) = sint w f := by
  obtain ⟨hlo, hhi⟩ := sint_range hw hf
  have hpow : (2 : Int) ^ (w - 1) ≤ 2 ^ (T - 1) := pow_le_pow_right₀ (by decide) (by omega)
  exact clamp_of_mem (by omega) (by omega)

/-- An unsigned field whose bits do not fit the sink becomes the sink's maximum (R144). -/
theorem decValue_saturates (hs : s.signedMode = false) {f : Nat} (hf : 2 ^ s.tgtWidth ≤ f) (w : Nat) :
    decValue s f w = if s.tgtSigned then 2 ^ (s.tgtWidth - 1) - 1 else 2 ^ s.tgtWidth - 1 := by
  have hwide : s.tgtWidth < bitlen f := Nat.lt_of_not_le fun h => absurd (bitlen_le_iff.mp h) (by omega)
  simp [decValue, hs, hwide]

/-- Settles O21: the signed branch clamps, the unsigned one compares the field's bits with the sink's. -/
theorem decodedValuesSaturate : Obligations.DecodedValuesSaturate := fun s f w hw hf =>
  ⟨decValue_lt s f w, fun hs => sint_decValue_of_signed hs f w,
    fun hs hT => (sint_decValue_of_signed hs f w).trans (clamp_sint_of_le hw hf hT),
    fun hs hfit => decValue_unsigned hs hfit, fun hs hwide => decValue_saturates hs hwide w⟩

/-! ### The checks -/

/-- The two checks of a block command on its operands share a fault, so their order cannot be seen (R223). -/
theorem firstFailing_badArgument (h : 64 < s.aN.toNat ∨ s.blockSize.toNat < s.aK.toNat)
    (rest : List (Bool × FaultKind)) :
    firstFailing (badWidth s :: badCount s :: rest) = some .badArgument := by
  rcases Nat.lt_or_ge 64 s.aN.toNat with hn | hn
  · rw [badWidth_fail hn]
    rfl
  · rw [badWidth_pass hn, badCount_fail (h.resolve_left (by omega))]
    rfl

theorem exec_encblk_of_check (hr : Running s) (k : FaultKind)
    (h : firstFailing (encblkChecks s) = some k) : exec .encblk s = .next (faultedWith k.code s) :=
  runCommand_of_check hr h _

theorem exec_decblk_of_check (hr : Running s) (k : FaultKind)
    (h : firstFailing (decblkChecks s) = some k) : exec .decblk s = .next (faultedWith k.code s) :=
  runCommand_of_check hr h _

/-- Settles O20: in each case the checks before the failing one pass. -/
theorem blockCommandCheckOrder : Obligations.BlockCommandCheckOrder := by
  refine fun s hr => ⟨fun hbs => ?_, fun hbs harg => ?_, fun hbs hn hk hsigned htgt => ?_,
    fun hbs hn hk hidx => ⟨?_, fun hsign => ?_⟩⟩
  · exact ⟨exec_encblk_of_check hr .badConfig (by simp [encblkChecks, badBlockSize_fail hbs]),
      exec_decblk_of_check hr .badConfig (by simp [decblkChecks, badBlockSize_fail hbs])⟩
  · refine ⟨exec_encblk_of_check hr .badArgument ?_, exec_decblk_of_check hr .badArgument ?_⟩
    · rw [encblkChecks, badBlockSize_pass hbs]
      exact firstFailing_badArgument harg _
    · rw [decblkChecks, badBlockSize_pass hbs]
      exact firstFailing_badArgument harg _
  · exact exec_decblk_of_check hr .signednessMismatch (by
      simp [decblkChecks, badBlockSize_pass hbs, badWidth_pass hn, badCount_pass hk,
        signedIntoUnsigned_fail hsigned htgt])
  · exact exec_encblk_of_check hr .sizeMismatch (by
      simp [encblkChecks, badBlockSize_pass hbs, badWidth_pass hn, badCount_pass hk, blockTooLong_fail hidx])
  · exact exec_decblk_of_check hr .sizeMismatch (by
      simp [decblkChecks, badBlockSize_pass hbs, badWidth_pass hn, badCount_pass hk,
        signedIntoUnsigned_pass hsign, blockTooLong_fail hidx])

/-! ### Overruns -/

/-- Settles O17: past the checks `ENCBLK` writes fields until one does not fit. -/
theorem encblkOverrunKeepsWholeFields : Obligations.EncblkOverrunKeepsWholeFields := by
  intro s m hr hw hbs hn hk hidx hn0 hm hfits hout
  obtain ⟨b, e, hored⟩ := encFields_overrun s.opN s.opIdx s.opK m s hw hm hfits hout
  refine ⟨faultedWith 5#8 { s with buf := b, pos := s.pos + BitVec.ofNat 64 (m * s.opN) }, ?_, rfl,
    hored.of_buf_eq rfl⟩
  rw [exec_encblk, runCommand_of_pass hr (encblkChecks_pass hbs hn hk hidx), encBlock,
    if_neg (c := s.opN = 0) hn0, e]
  rfl

/-- Settles O19: past the checks `DECBLK` stores elements until a field is cut off. -/
theorem decblkOverrunKeepsWholeElements : Obligations.DecblkOverrunKeepsWholeElements := by
  intro s m hr hw hbs hn hk hsign hidx hn0 hm hfits hout
  obtain ⟨vo, e, hstored⟩ := decBlock_overrun s.opN hn0 s.opIdx s.opK m s hw hm hfits hout
  refine ⟨faultedWith 4#8 { s with vout := vo, pos := s.pos + BitVec.ofNat 64 (m * s.opN) }, ?_, rfl,
    hstored.of_vout_eq rfl⟩
  rw [exec_decblk, runCommand_of_pass hr (decblkChecks_pass hbs hn hk hsign hidx), e]
  rfl

/-! ### The round trip -/

/-- `DECBLK` where the buffer holds the fields an encoder made of `VIN`: each cell of the sink reads as the
decoded field (R30, R144, R145). -/
theorem exec_decblk_of_encoded (hr : Running s) (hw : NoWrap s) (hbs : s.blockSize ≠ 0#64)
    (hn : s.aN.toNat ≤ 64) (hk : s.aK.toNat ≤ s.blockSize.toNat)
    (hsign : s.signedMode = true → s.tgtSigned = true) (hidx : s.aIdx.toNat + s.aK.toNat ≤ Config.valCap)
    (hfits : s.opN = 0 ∨ s.opK = 0 ∨ Fits s (s.opK * s.opN))
    (hholds : holdsBits s s.pos.toNat (payloadBits s.opN (encodedFields s s.opN s.opIdx s.opK))) :
    ∃ u, exec .decblk s = .next u ∧ u.faulted = false ∧ u.pos = s.pos + BitVec.ofNat 64 (s.opK * s.opN) ∧
      ∀ i, i < s.opK → u.sinkValue (s.opIdx + i) =
        if s.tgtSigned then
          sint s.tgtWidth (decodedElement s s.opN (pat s.opN (s.sourceValue (s.opIdx + i))))
        else (decodedElement s s.opN (pat s.opN (s.sourceValue (s.opIdx + i))) : Int) := by
  obtain ⟨vo, e, hstored⟩ := decBlock_done s.opIdx s.opN (encodedFields s s.opN s.opIdx s.opK) s hw
    (encodedFields_lt s _ _ _) (by rwa [encodedFields_length]) hholds
  rw [encodedFields_length] at e
  refine ⟨{ s with vout := vo, pos := s.pos + BitVec.ofNat 64 (s.opK * s.opN) }, ?_, hr, rfl, fun i hi =>
    sinkValue_of_cell ?_ (decodedElement_lt s _ _)⟩
  · rw [exec_decblk, runCommand_of_pass hr (decblkChecks_pass hbs hn hk hsign hidx), e]
    rfl
  · rw [hstored.cells, List.length_map, encodedFields_length, if_pos (by omega), Nat.add_sub_cancel_left]
    simp [encodedFields, hi]

/-- A sink that can hold signed values is signed (R146). -/
theorem tgtSigned_of_sinkHolds {p q : Prop}
    (h : s.tgtSigned = s.signedMode ∧ p ∨ s.signedMode = false ∧ s.tgtSigned = true ∧ q)
    (hs : s.signedMode = true) : s.tgtSigned = true := by
  rcases h with ⟨hsame, -⟩ | ⟨-, hsigned, -⟩
  · exact hsame.trans hs
  · exact hsigned

/-- Settles O22: `ENCBLK` leaves its fields in the buffer, `DECBLK` decodes just these, and each decodes to the
value it was made of. -/
theorem blockRoundTrip : Obligations.BlockRoundTrip := by
  intro s hr hw hbs hn hk hidx hfits hzero hwidth hsink
  obtain ⟨t, henc, ht, hored⟩ := encblkWritesTheFields s hr hw hbs hn hk hidx hfits
  have hholds := hored.holds (by rwa [payloadBits_length, encodedFields_length])
  obtain ⟨b, rfl⟩ : ∃ b, t = { s with
    buf := b, pos := s.pos + BitVec.ofNat 64 (s.aK.toNat * s.aN.toNat) } := ⟨_, ht⟩
  obtain ⟨u, hdec, hrunning, hpos, hcells⟩ := exec_decblk_of_encoded (s := { s with buf := b })
    hr hw hbs hn hk (tgtSigned_of_sinkHolds hsink) hidx hfits hholds
  exact ⟨_, u, henc, hdec, hr, hrunning, hpos, fun i hi =>
    (hcells i hi).trans (decoded_value s s.aIdx.toNat s.aK.toNat i s.aN.toNat hi hwidth hsink)⟩

end Sys2Proof.Machine
end

section
/-! The header code (42_header_code.md R160 to R166) and what it costs a frame (43_frame_codec.md R188): the header
the encoder chooses is the one its rule names, `DECHDR` reads it back, and headers and payloads add up to the
size of a frame. -/

namespace Sys2Proof.Machine

variable {s : State} {w : Nat}

/-! ### The form the encoder chooses, as its rule writes it -/

/-- The header `H` and its length `L` case by case (R160, R164). -/
theorem formFor_value_length (hw : w ≤ 64) (prev : Nat) :
    ((formFor w prev).value, (formFor w prev).length) =
      if w = prev then (1, 1)
      else if w < 7 then (2 * w, 4)
      else if w < 10 then (0x0E + 16 * (w - 7), 6)
      else (0x3E + 64 * (w - 10), 12) := by
  unfold formFor
  split
  case isTrue => rfl
  case isFalse =>
    split
    case isTrue habs3 => simp [HeaderForm.value, HeaderForm.length, Nat.mod_eq_of_lt (show w < 8 by omega)]
    case isFalse =>
      split
      case isTrue habs5 =>
        simp [HeaderForm.value, HeaderForm.length, Nat.mod_eq_of_lt (show w - 7 < 4 by omega)]
      case isFalse =>
        simp [HeaderForm.value, HeaderForm.length, Nat.mod_eq_of_lt (show w - 10 < 64 by omega)]

theorem formFor_wellFormed (hw : w ≤ 64) (prev : Nat) : (formFor w prev).wellFormed = true :=
  legal_wellFormed (formFor_legal hw prev)

/-- No two headers have the same bits, because no header begins another one (R166). -/
theorem form_eq_of_bits_eq {f g : HeaderForm} (hf : f.wellFormed = true) (hg : g.wellFormed = true)
    (h : f.bits = g.bits) : f = g :=
  headerDecodesBeforeAnyBits.2 f g hf hg (h ▸ List.prefix_refl f.bits)

/-- Settles O4: the bits determine the form, and the form gives the width back. -/
theorem headersOfDifferentWidthsDiffer : Obligations.HeadersOfDifferentWidthsDiffer := by
  refine fun prev w hw =>
    ⟨(HeaderForm.bits_length _).trans (formFor_length w prev), fun v hv hbits => ?_⟩
  have hform := form_eq_of_bits_eq (formFor_wellFormed hw prev) (formFor_wellFormed hv prev) hbits
  calc
    w = (formFor w prev).width prev := (formFor_width hw prev).symm
    _ = (formFor v prev).width prev := by rw [hform]
    _ = v := formFor_width hv prev

/-! ### `ENCHDR` -/

/-- `ENCHDR` of a header inside the buffer: its bits are ORed in, and both width registers are the width (R160,
R161). -/
theorem exec_enchdr_of_fits (hr : Running s) (h64 : s.aN.toNat ≤ 64)
    (hfits : Fits s (hdrLen s.aN.toNat s.prevW.toNat)) :
    ∃ b, exec .enchdr s = .next
        { s with
          buf := b, pos := s.pos + BitVec.ofNat 64 (hdrLen s.aN.toNat s.prevW.toNat),
          prevW := BitVec.ofNat 7 s.aN.toNat, curW := BitVec.ofNat 7 s.aN.toNat } ∧
      OredAt s { s with buf := b } s.pos.toNat (formFor s.aN.toNat s.prevW.toNat).bits := by
  obtain ⟨b, hdone, hored⟩ := encHeader_done hfits
  refine ⟨b, ?_, hored⟩
  rw [exec_enchdr, runCommand_of_goodWidth hr h64, State.opN, hdone, Run.state_done]

/-- `ENCHDR` of a header beyond the buffer writes nothing of it (R161). -/
theorem exec_enchdr_of_not_fits (hr : Running s) (h64 : s.aN.toNat ≤ 64)
    (hout : ¬Fits s (hdrLen s.aN.toNat s.prevW.toNat)) : exec .enchdr s = .next (faultedWith 5#8 s) := by
  rw [exec_enchdr, runCommand_of_goodWidth hr h64, State.opN, encHeader_raised hout]
  rfl

/-- Settles O23: `H` and `L` are the value and the length of the form the encoder chooses. -/
theorem enchdrWritesTheHeader : Obligations.EnchdrWritesTheHeader := by
  refine ⟨rfl, fun s w H L hr hw hHL => ?_⟩
  subst hw
  have hform (h64 : s.aN.toNat ≤ 64) : H = (formFor s.aN.toNat s.prevW.toNat).value ∧
      L = hdrLen s.aN.toNat s.prevW.toNat := by
    rw [← formFor_length]
    exact Prod.mk.inj (hHL.trans (formFor_value_length h64 _).symm)
  refine ⟨fun h => ?_, fun h64 hout => ?_, fun h64 hfits => ?_⟩
  · rw [exec_enchdr, runCommand_of_badWidth hr h]
  · obtain ⟨-, rfl⟩ := hform h64
    exact exec_enchdr_of_not_fits hr h64 hout
  · obtain ⟨rfl, rfl⟩ := hform h64
    obtain ⟨b, hexec, hored⟩ := exec_enchdr_of_fits hr h64 hfits
    rw [HeaderForm.bits, formFor_length] at hored
    exact ⟨_, hexec, rfl, hored.of_buf_eq rfl⟩

/-! ### The round trip -/

/-- Settles O29: `ENCHDR` leaves the bits of the chosen form in the buffer, `DECHDR` decodes just these, and the
form gives its width back. -/
theorem headerRoundTrip : Obligations.HeaderRoundTrip := by
  intro s hr hw h64 hfits hzero
  obtain ⟨b, henc, hored⟩ := exec_enchdr_of_fits hr h64 hfits
  rw [← formFor_length] at henc hfits hzero ⊢
  have hholds := hored.holds (by rwa [HeaderForm.bits_length])
  have hdec := dechdrDecodesTheHeader { s with buf := b, curW := BitVec.ofNat 7 s.aN.toNat }
    (formFor s.aN.toNat s.prevW.toNat) hr hw (formFor_legal h64 _) hfits ((holdsBits_congr rfl).mp hholds)
  rw [formFor_width h64] at hdec
  have hprev : (BitVec.ofNat 7 s.aN.toNat).toNat = s.aN.toNat :=
    Nat.mod_eq_of_lt (by omega)
  have hval : (BitVec.ofNat 64 s.aN.toNat).toNat = s.aN.toNat :=
    Nat.mod_eq_of_lt (by omega)
  exact ⟨_, _, henc, hdec, hr, hr, hval, hprev, hprev, rfl, rfl⟩

/-! ### The size of a frame -/

/-- One more block of a stream adds its header and its fields (R92, R188). -/
theorem blockBits_length_append_singleton (prev : Nat) (before : List StreamBlock) (b : StreamBlock) :
    (blockBits prev (before ++ [b])).length = (blockBits prev before).length + b.form.length +
      b.fields.length * b.form.width (lastWidth prev before) := by
  rw [blockBits_append, List.length_append, blockBits_length_cons, blockBits, List.length_nil, Nat.add_zero,
    Nat.add_assoc]

/-- The header of each block of an encoder has the length of R164 for its width and the width before it. -/
theorem encodedFrame_form_length {before after : List StreamBlock} {b : StreamBlock}
    (h : encodedFrame s = before ++ b :: after) :
    b.form.length = hdrLen (b.form.width (lastWidth 0 before)) (lastWidth 0 before) := by
  obtain ⟨w, _, _, hw, hform, -⟩ := encodedBlocks_split s _ 0 0 before b after h
  have hw64 : w ≤ 64 := by rcases s.srcWidth_cases with h | h | h | h <;> omega
  rw [hform, formFor_width hw64, formFor_length]

/-- Settles O33: a block needs at most `S` bits for each value and the longest header of its class, and there are
as many blocks as pieces of the frame. -/
theorem frameSizeIsBounded : Obligations.FrameSizeIsBounded := by
  refine fun s hbs => ⟨?_, fun before b after h => ?_⟩
  · have hB := blockSize_pos hbs
    have hsize := encodedBlocks_size s hB s.frameLen.toNat 0 0 (Nat.sub_le _ _)
    rw [encodedBlocks_length s hB s.frameLen.toNat 0 0 (Nat.sub_le _ _), Nat.sub_zero] at hsize
    exact Nat.div_le_div_right (Nat.add_le_add_right hsize 7)
  · rw [blockBits_length_append_singleton, encodedFrame_form_length h]

end Sys2Proof.Machine
end

section
/-! The round trip of a frame (43_frame_codec.md R189): what `ENCFRAME` leaves in the buffer is what `DECFRAME`
decodes. -/

namespace Sys2Proof.Machine

variable {s : State}

/-! ### The round trip -/

/-- The frame an encoder makes depends on `VIN`, `CFG`, `BLOCK_SIZE` and `FRAME_LEN` alone (R189). -/
theorem encodedFrame_congr {s t : State} (hv : s.vin = t.vin) (hc : s.cfg = t.cfg)
    (hb : s.blockSize = t.blockSize) (hf : s.frameLen = t.frameLen) : encodedFrame s = encodedFrame t := by
  rw [encodedFrame, encodedFrame, hf]
  exact encodedBlocks_congr hv hc hb hf _ _ _

/-- The sink patterns of the frame an encoder makes read back as the values it was made of (R146, R189). -/
theorem encodedFrame_element_value (hbs : s.blockSize ≠ 0#64) (hsigned : s.tgtSigned = s.signedMode)
    (hwidth : s.srcWidth ≤ s.tgtWidth) {i : Nat} (hi : i < s.frameLen.toNat) :
    ∃ x, i < (decodedElements s 0 (encodedFrame s)).length ∧
      (decodedElements s 0 (encodedFrame s)).getD i 0 = x ∧ x < 2 ^ s.tgtWidth ∧
      (if s.tgtSigned then sint s.tgtWidth x else (x : Int)) = s.sourceValue i := by
  obtain ⟨hcount, helement⟩ :=
    encodedBlocks_elements s (blockSize_pos hbs) s.frameLen.toNat 0 0 (Nat.sub_le _ _)
  obtain ⟨idx, j, k, hj, hsum, he⟩ := helement i hi
  refine ⟨_, hcount.symm ▸ hi, he, decodedElement_lt s _ _, ?_⟩
  rw [decoded_value s idx k j _ hj (Nat.le_refl _) (.inl ⟨hsigned, .inl hwidth⟩), hsum, Nat.zero_add]

/-- `DECFRAME` where the buffer holds the frame an encoder makes of `VIN`: every value comes back (R184, R189). -/
theorem exec_decframe_of_encoded {blocks : List StreamBlock} (hbl : blocks = encodedFrame s) (hr : Running s)
    (hw : NoWrap s) (hbs : s.blockSize ≠ 0#64) (hoff : s.aOff.toNat ≤ s.bufLen.toNat)
    (hlen : s.frameLen.toNat ≤ Config.valCap) (hsigned : s.tgtSigned = s.signedMode)
    (hwidth : s.srcWidth ≤ s.tgtWidth)
    (hfits : 8 * s.aOff.toNat + (blockBits 0 blocks).length ≤ 8 * s.bufLen.toNat)
    (hholds : holdsBits s (8 * s.aOff.toNat) (blockBits 0 blocks)) :
    ∃ u, exec .decframe s = .next u ∧ u.faulted = false ∧
      u.nextOff = BitVec.ofNat 64 (s.aOff.toNat + ((blockBits 0 blocks).length + 7) / 8) ∧
      ∀ i, i < s.frameLen.toNat → u.sinkValue i = s.sourceValue i := by
  obtain ⟨hcover, hlegal, -⟩ := encodedFrameIsLegalAndCanonical s hbs
  rw [← hbl] at hcover hlegal
  obtain ⟨u, hexec, hu, hstored⟩ := decframeDecodesTheLayout s blocks hr hw hbs hoff hsigned.trans hlen
    hcover hlegal hfits hholds
  generalize u.vout = vo at hu
  subst hu
  refine ⟨_, hexec, hr, rfl, fun i hi => ?_⟩
  obtain ⟨x, hi', hx, hlt, hvalue⟩ := encodedFrame_element_value hbs hsigned hwidth hi
  rw [← hbl] at hi' hx
  refine Eq.trans (sinkValue_of_cell ?_ hlt) hvalue
  exact (hstored.cells i).trans (by rw [if_pos (by omega), Nat.sub_zero, hx])

/-- Settles O38: `ENCFRAME` leaves the bits of its frame in the buffer and the source as it was, so `DECFRAME`
decodes just these. -/
theorem frameRoundTrip : Obligations.FrameRoundTrip := by
  intro s hr hw hbs hoff hlen hsigned hwidth hfits hzero
  generalize hbl : encodedFrame s = blocks at hfits
  obtain ⟨t, henc, ht, hored⟩ := encframeWritesTheLayout s blocks hr hw hbs hoff hlen hbl.symm hfits
  have hholds := hored.holds fun i hi => hzero _ (by omega) (by omega)
  have hsame : blocks = encodedFrame t := by
    rw [← hbl, ht]
    exact encodedFrame_congr rfl rfl rfl rfl
  generalize t.buf = b at ht
  subst ht
  obtain ⟨u, hdec, hu, hnext, hvalues⟩ :=
    exec_decframe_of_encoded hsame hr hw hbs hoff hlen hsigned hwidth hfits hholds
  exact ⟨_, u, henc, hdec, hr, hu, hnext, hvalues⟩

end Sys2Proof.Machine
end

section
/-! The checks of the frame commands (60_exceptions.md R223) and what `DECFRAME` and `SCANFRAME` do not look at
(43_frame_codec.md R181, R184, R186, R190). -/

namespace Sys2Proof.Machine

variable {s : State}

/-! ### The checks -/

theorem exec_encframe_of_check (hr : Running s) (k : FaultKind) (h : firstFailing (encframeChecks s) = some k) :
    exec .encframe s = .next (faultedWith k.code s) :=
  runCommand_of_check hr h _

theorem exec_decframe_of_check (hr : Running s) (k : FaultKind) (h : firstFailing (decframeChecks s) = some k) :
    exec .decframe s = .next (faultedWith k.code s) :=
  runCommand_of_check hr h _

theorem exec_scanframe_of_check (hr : Running s) (k : FaultKind)
    (h : firstFailing (scanframeChecks s) = some k) : exec .scanframe s = .next (faultedWith k.code s) :=
  runCommand_of_check hr h _

/-- Settles O40: in each case the checks before the failing one pass. -/
theorem frameCommandCheckOrder : Obligations.FrameCommandCheckOrder := by
  refine fun s hr => ⟨fun hbs => ?_, fun hbs hoff => ?_, fun hbs hoff =>
    ⟨fun hsigned htgt => ?_, fun hlen => ⟨?_, fun hsign => ?_⟩⟩⟩
  · exact ⟨exec_encframe_of_check hr .badConfig (by simp [encframeChecks, badBlockSize_fail hbs]),
      exec_decframe_of_check hr .badConfig (by simp [decframeChecks, badBlockSize_fail hbs]),
      exec_scanframe_of_check hr .badConfig (by simp [scanframeChecks, badBlockSize_fail hbs])⟩
  · have hb := badBlockSize_pass hbs
    have ho := badOffset_fail hoff
    exact ⟨exec_encframe_of_check hr .badArgument (by simp [encframeChecks, hb, ho]),
      exec_decframe_of_check hr .badArgument (by simp [decframeChecks, hb, ho]),
      exec_scanframe_of_check hr .badArgument (by simp [scanframeChecks, hb, ho])⟩
  · exact exec_decframe_of_check hr .signednessMismatch (by
      simp [decframeChecks, badBlockSize_pass hbs, badOffset_pass hoff, signedIntoUnsigned_fail hsigned htgt])
  · exact exec_encframe_of_check hr .sizeMismatch (by
      simp [encframeChecks, badBlockSize_pass hbs, badOffset_pass hoff, frameTooLong_fail hlen])
  · exact exec_decframe_of_check hr .sizeMismatch (by
      simp [decframeChecks, badBlockSize_pass hbs, badOffset_pass hoff, signedIntoUnsigned_pass hsign,
        frameTooLong_fail hlen])

/-! ### What the decoders do not look at -/

/-- A frame command commutes with a change of state if its loop and `frame_end()` do (R181). -/
theorem runFrame_mapState {f : State → State} {block : Nat → State → Run Unit} {s s' : State}
    (hstart : frameStart s' = f (frameStart s)) (hlen : s'.frameLen = s.frameLen)
    (hloop : frameBlocks block s.frameLen.toNat (f (frameStart s)) =
      (frameBlocks block s.frameLen.toNat (frameStart s)).mapState f)
    (hend : ∀ u, frameEnd (f u) = f (frameEnd u)) : (runFrame block s').state = f (runFrame block s).state := by
  have hrun : runFrame block s' = (runFrame block s).mapState f := by
    rw [runFrame, runFrame, hlen, hstart]
    exact Run.bind_mapState hloop fun _ u _ => congrArg (Run.done ()) (hend u)
  rw [hrun, Run.mapState_state]

/-- A command that passes its checks in two states ends in states that differ as its body makes them (R223). -/
theorem exec_mapState {i : Instr} {checks : State → List (Bool × FaultKind)} {body : State → Run Unit}
    {f : State → State} {s s' t : State} (hi : ∀ s, exec i s = runCommand (checks s) body s)
    (hr : Running s) (hr' : Running s') (hpass : firstFailing (checks s) = none)
    (hpass' : firstFailing (checks s') = none) (hbody : (body s').state = f (body s).state)
    (hexec : exec i s = .next t) : exec i s' = .next (f t) := by
  rw [hi, runCommand_of_pass hr hpass] at hexec
  cases hexec
  rw [hi, runCommand_of_pass hr' hpass', hbody]

/-- Settles O41: the frame starts in the same state but for the values and classes, and the loop carries these
along. -/
theorem scanframeIgnoresValuesAndClasses : Obligations.ScanframeIgnoresValuesAndClasses := by
  intro s t cfg aN vin vout maxW prevW pos consumed aVal aK aIdx hr hchecks hexec
  have hloop := scanBlocks_otherValues { s with
    cfg := cfg, vin := vin, vout := vout, maxW := maxW, aVal := aVal, aN := aN, aK := aK, aIdx := aIdx }
  refine exec_mapState exec_scanframe hr ?_ hchecks ?_
    (runFrame_mapState ?_ ?_ (hloop _ (frameStart s)) fun _ => rfl) hexec
  · exact hr
  · exact hchecks
  · rfl
  · rfl

/-- The checks of `DECFRAME` do not look at `VIN`, `MAX_W`, `SRC_CLASS` or what an earlier command left (R184). -/
theorem decframeChecks_pass_congr {s t : State} (hcfg : t.cfg &&& 0xF9#8 = s.cfg &&& 0xF9#8)
    (hsize : t.blockSize = s.blockSize) (hoff : t.aOff = s.aOff) (hbuf : t.bufLen = s.bufLen)
    (hlen : t.frameLen = s.frameLen) (hpass : firstFailing (decframeChecks s) = none) :
    firstFailing (decframeChecks t) = none := by
  obtain ⟨hmode, htgt, -⟩ := decode_cfg_congr hcfg
  rw [← hpass]
  simp only [decframeChecks, badBlockSize, badOffset, signedIntoUnsigned, frameTooLong, State.signedMode,
    State.tgtSigned, hmode, htgt, hsize, hoff, hbuf, hlen]

/-- Settles O42: the frame starts in the same state but for the source, and the loop carries this along. -/
theorem decframeIgnoresTheSource : Obligations.DecframeIgnoresTheSource := by
  intro s t cfg vin maxW prevW pos consumed hr hchecks hcfg hexec
  have hloop := decBlocks_otherSource vin maxW s.frameLen.toNat (frameStart s) hcfg
  refine exec_mapState exec_decframe hr ?_ hchecks ?_
    (runFrame_mapState ?_ ?_ hloop fun _ => rfl) hexec
  · exact hr
  · exact decframeChecks_pass_congr hcfg rfl rfl rfl rfl hchecks
  · rfl
  · rfl

end Sys2Proof.Machine
end

section
/-! Scan and decode agree (43_frame_codec.md R187): block by block the loops of `DECFRAME` and `SCANFRAME` raise the
same fault or come to states that differ in the sink alone. -/

namespace Sys2Proof.Machine

variable {s : State} {vo : List (Nat × Word)}

/-- `s` with another sink. -/
def withSink (vo : List (Nat × Word)) (s : State) : State := { s with vout := vo }

/-- Two runs agree but for the sink: both complete, or both raise a fault with the same code (R187). -/
def AgreeButSink (r q : Run Unit) : Prop :=
  match r, q with
  | .done _ t, .done _ u => ∃ vo, t = withSink vo u
  | .raised t, .raised u => t.faulted = true ∧ u.faulted = true ∧ t.err = u.err
  | _, _ => False

theorem agreeButSink_raised {t u : State} (k : FaultKind) :
    AgreeButSink (.raised (raiseFault k t)) (.raised (raiseFault k u)) :=
  ⟨raiseFault_faulted k t, raiseFault_faulted k u, rfl⟩

/-- Sequences agree if their parts do. -/
theorem AgreeButSink.bind {r q : Run Unit} {f g : Unit → State → Run Unit} (h : AgreeButSink r q)
    (hfg : ∀ u vo, q = .done () u → AgreeButSink (f () (withSink vo u)) (g () u)) :
    AgreeButSink (r.bind f) (q.bind g) := by
  cases r with
  | done _ t =>
    cases q with
    | done _ u =>
      obtain ⟨vo, rfl⟩ := h
      exact hfg u vo rfl
    | raised u => exact h.elim
  | raised t =>
    cases q with
    | done _ u => exact h.elim
    | raised u => exact h

/-- What agreeing runs leave in the flags, and where they complete in the other registers (R187). -/
theorem AgreeButSink.state_eq {r q : Run Unit} (h : AgreeButSink r q) :
    r.state.faulted = q.state.faulted ∧ r.state.err = q.state.err ∧
      (r.state.faulted = false → ∃ vo, r.state = withSink vo q.state) := by
  cases r with
  | done _ t =>
    cases q with
    | done _ u =>
      obtain ⟨vo, rfl⟩ := h
      exact ⟨rfl, rfl, fun _ => ⟨vo, rfl⟩⟩
    | raised u => exact h.elim
  | raised t =>
    cases q with
    | done _ u => exact h.elim
    | raised u =>
      obtain ⟨ht, hu, herr⟩ := h
      exact ⟨ht.trans hu.symm, herr, fun hf => absurd (ht.symm.trans hf) (by decide)⟩

/-! ### One block -/

theorem decHeader_withSink (vo : List (Nat × Word)) (s : State) :
    decHeader (withSink vo s) = (decHeader s).mapState (withSink vo) := by
  apply decHeader_mapState <;> (intros; rfl)

/-- A fault in a header is one the core raises (R162, R224). -/
theorem decHeader_raised {t : State} (h : decHeader s = .raised t) : ∃ k u, t = raiseFault k u := by
  have hwithin := decHeader_within (E := fun _ => True) (fun _ _ _ _ => trivial) (fun _ _ _ _ => trivial)
    (s := s) trivial
  rw [h] at hwithin
  obtain ⟨k, -, u, -, e⟩ := hwithin
  exact ⟨k, u, e⟩

/-- A payload of `k` fields decodes exactly where a skip of `w * k` bits passes (R186, R187). -/
theorem decBlock_agrees_skipPayload (idx k w : Nat) (hw : NoWrap s) (hpos : s.pos.toNat ≤ 8 * s.bufLen.toNat) :
    AgreeButSink (decBlock idx k w (withSink vo s)) (skipPayload (w * k) s) := by
  rw [skipPayload, Nat.mul_comm w k]
  rcases decBlock_cases idx k w (withSink vo s) hw hpos with ⟨hfits, vo', e⟩ | ⟨hout, u, e⟩
  · rw [e, if_pos ((inBounds_iff s _).mpr hfits)]
    exact ⟨vo', rfl⟩
  · rw [e, if_neg fun h => hout ((inBounds_iff s _).mp h)]
    exact agreeButSink_raised .readOverrun

/-- A block decodes and scans alike: the headers are the same, and so are the ends of the payloads (R187). -/
theorem decFrameBlock_agrees (hw : NoWrap s) (k : Nat) :
    AgreeButSink (decFrameBlock k (withSink vo s)) (scanFrameBlock k s) := by
  rw [decFrameBlock, scanFrameBlock, decHeader_withSink]
  cases hheader : decHeader s with
  | done w t =>
    obtain ⟨hpos, hlen⟩ := decHeader_in_buffer hw hheader
    exact decBlock_agrees_skipPayload _ k w (by rwa [NoWrap, hlen]) hpos
  | raised t =>
    obtain ⟨f, u, rfl⟩ := decHeader_raised hheader
    exact agreeButSink_raised (t := withSink vo u) f

theorem scanFrameBlock_bufLen {k : Nat} {t : State} (h : scanFrameBlock k s = .done () t) :
    t.bufLen = s.bufLen := by
  have hread : ReadClosed fun t => t.bufLen = s.bufLen := fun _ _ h _ => h
  have hwithin : (scanFrameBlock k s).Within (fun t => t.bufLen = s.bufLen) [.readOverrun, .widthOutOfRange] :=
    (decHeader_within hread (fun _ _ h _ => h) rfl).bind fun w u _ hu =>
      (skipPayload_within hread hu _).mono (by simp)
  rwa [h] at hwithin

/-! ### The loop and the frame -/

theorem frameBlocks_of_more {block : Nat → State → Run Unit} (h : s.consumed.toNat < s.frameLen.toNat)
    (fuel : Nat) :
    frameBlocks block (fuel + 1) s =
      (block (blockCount s) s).bind fun _ t => frameBlocks block fuel (consume (blockCount s) t) := by
  rw [frameBlocks, if_pos h]

theorem frameBlocks_agree (fuel : Nat) (hw : NoWrap s) :
    AgreeButSink (frameBlocks decFrameBlock fuel (withSink vo s)) (frameBlocks scanFrameBlock fuel s) := by
  induction fuel generalizing s vo with
  | zero => exact ⟨vo, rfl⟩
  | succ fuel ih =>
    by_cases hmore : s.consumed.toNat < s.frameLen.toNat
    · rw [frameBlocks_of_more hmore, frameBlocks_of_more (s := withSink vo s) hmore]
      refine (decFrameBlock_agrees hw (blockCount s)).bind fun u vo' hu => ?_
      have hnext : NoWrap (consume (blockCount s) u) := by
        rwa [NoWrap, consume_bufLen, scanFrameBlock_bufLen hu]
      exact ih (vo := vo') hnext
    · rw [frameBlocks_end _ _ hmore, frameBlocks_end (s := withSink vo s) _ _ hmore]
      exact ⟨vo, rfl⟩

/-- `DECFRAME` and `SCANFRAME` past their checks (R187). -/
theorem runFrame_agree (hw : NoWrap s) : AgreeButSink (runFrame decFrameBlock s) (runFrame scanFrameBlock s) :=
  (frameBlocks_agree (s := frameStart s) (vo := s.vout) s.frameLen.toNat hw).bind fun _ vo _ => ⟨vo, rfl⟩

/-! ### The checks -/

theorem firstFailing_append (a b : List (Bool × FaultKind)) :
    firstFailing (a ++ b) = (firstFailing a).or (firstFailing b) := by
  induction a with
  | nil => rfl
  | cons c a ih =>
    obtain ⟨fails, k⟩ := c
    cases fails with
    | true => rfl
    | false => exact ih

/-- `DECFRAME` makes the checks of `SCANFRAME` first, then its own (R184, R186, R223). -/
theorem decframeChecks_eq (s : State) :
    decframeChecks s = scanframeChecks s ++ [signedIntoUnsigned s, frameTooLong s] := rfl

/-- When the checks that only `DECFRAME` makes pass (R187). -/
theorem decframeOwnChecks_pass_iff :
    firstFailing [signedIntoUnsigned s, frameTooLong s] = none ↔
      (s.signedMode = true → s.tgtSigned = true) ∧ s.frameLen.toNat ≤ Config.valCap := by
  rw [firstFailing_eq_none]
  simp [signedIntoUnsigned, frameTooLong]

/-- Settles O37: a failed check of both commands ends both alike, one of `DECFRAME` alone leaves it faulted, and
past the checks the runs agree. -/
theorem scanAndDecodeAgree : Obligations.ScanAndDecodeAgree := by
  intro s hr hw
  cases hscan : firstFailing (scanframeChecks s) with
  | some k =>
    have hdec : firstFailing (decframeChecks s) = some k := by
      rw [decframeChecks_eq, firstFailing_append, hscan, Option.some_or]
    refine ⟨_, _, runCommand_of_check hr hdec _, runCommand_of_check hr hscan _, fun _ => ?_, fun h => ?_⟩
    · exact ⟨rfl, rfl⟩
    · rw [raiseFault_faulted] at h
      cases h
  | none =>
    have hdec : firstFailing (decframeChecks s) = firstFailing [signedIntoUnsigned s, frameTooLong s] := by
      rw [decframeChecks_eq, firstFailing_append, hscan, Option.none_or]
    cases hown : firstFailing [signedIntoUnsigned s, frameTooLong s] with
    | some k =>
      refine ⟨_, _, runCommand_of_check hr (hdec.trans hown) _, runCommand_of_pass hr hscan _, fun h => ?_,
        fun h => ?_⟩
      · rw [decframeOwnChecks_pass_iff.mpr h] at hown
        cases hown
      · rw [raiseFault_faulted] at h
        cases h
    | none =>
      obtain ⟨hfaulted, herr, hcomplete⟩ := (runFrame_agree hw).state_eq
      obtain ⟨hsign, hlen⟩ := decframeOwnChecks_pass_iff.mp hown
      refine ⟨_, _, runCommand_of_pass hr (hdec.trans hown) _, runCommand_of_pass hr hscan _,
        fun _ => ⟨hfaulted, herr⟩, fun h => ?_⟩
      obtain ⟨vo, e⟩ := hcomplete h
      refine ⟨hsign, hlen, hfaulted.symm.trans h, ?_⟩
      rw [e]
      exact ⟨rfl, rfl, rfl, rfl, rfl⟩

end Sys2Proof.Machine
end

section
/-! The decoder's state machine (43_frame_codec.md R183) comes to the same end as the loops of `DECFRAME` and
`SCANFRAME`: two transitions pass one block, and the machine stays where it has ended. -/

namespace Sys2Proof.Machine

variable {c : DecoderCommand} {s : State}

/-! ### A block of the machine's command -/

/-- A block as the machine takes it: the header, then the payload (R183, R184, R186). -/
def decoderBlock (c : DecoderCommand) (k : Nat) (s : State) : Run Unit :=
  (decHeader s).bind fun w s1 => decoderPayload c w k s1

theorem decoderBlock_decframe : decoderBlock .decframe = decFrameBlock := rfl

theorem decoderBlock_scanframe : decoderBlock .scanframe = scanFrameBlock := rfl

/-- A payload keeps what passing bits and storing cells keep, or overruns (R184, R186). -/
theorem decoderPayload_within {E : State → Prop} (hE : ReadClosed E) (hV : ∀ lo hi, SinkClosed lo hi E)
    (hs : E s) (c : DecoderCommand) (w k : Nat) : (decoderPayload c w k s).Within E [.readOverrun] := by
  cases c with
  | decframe =>
    exact decBlock_within hE (hV s.consumed.toNat (s.consumed.toNat + k)) hs (Nat.le_refl _) (Nat.le_refl _)
  | scanframe => exact skipPayload_within hE hs _

theorem decHeader_onlyHeader {w : Nat} {t : State} (h : decHeader s = .done w t) : OnlyHeader s t := by
  have hwithin := decHeader_within (OnlyHeader.readClosed s) (OnlyHeader.widthClosed s) (OnlyHeader.refl s)
  rwa [h] at hwithin

theorem decoderPayload_onlySink {w k : Nat} {t : State} (h : decoderPayload c w k s = .done () t) :
    OnlySink s t := by
  have hwithin :=
    decoderPayload_within (OnlySink.readClosed s) (OnlySink.sinkClosed s) (OnlySink.refl s) c w k
  rwa [h] at hwithin

/-- A block changes neither the frame nor what is consumed of it (R180). -/
theorem decoderBlock_keeps_frame {k : Nat} {t : State} (h : decoderBlock c k s = .done () t) :
    t.blockSize = s.blockSize ∧ t.frameLen = s.frameLen ∧ t.consumed = s.consumed := by
  obtain ⟨w, u, hheader, hpayload⟩ := Run.bind_eq_done.mp h
  rw [decoderPayload_onlySink hpayload, decHeader_onlyHeader hheader]
  exact ⟨rfl, rfl, rfl⟩

/-! ### The transitions -/

/-- The machine between two blocks: it ends when every value is consumed (R183). -/
def decoderAt (s : State) : DecoderPhase × State :=
  (if s.frameLen.toNat ≤ s.consumed.toNat then .done else .readHeader, s)

theorem decoderStart_eq (s : State) : decoderStart s = decoderAt (frameStart s) := by
  simp [decoderStart, decoderAt]

theorem decoderAt_of_more (h : s.consumed.toNat < s.frameLen.toNat) : decoderAt s = (.readHeader, s) := by
  rw [decoderAt, if_neg (by omega)]

theorem decoderAt_of_consumed (h : ¬s.consumed.toNat < s.frameLen.toNat) : decoderAt s = (.done, s) := by
  rw [decoderAt, if_pos (by omega)]

/-- The count of a block is the same before and after its header (R180, R183). -/
theorem decoderNext_readHeader {w : Nat} {t : State} (h : decHeader s = .done w t) :
    decoderNext c (.readHeader, s) = (.readPayload w (blockCount s), t) := by
  have hcount : blockCount t = blockCount s := by
    rw [decHeader_onlyHeader h]
    rfl
  simp only [decoderNext, h, hcount]

theorem decoderNext_readHeader_raised {t : State} (h : decHeader s = .raised t) :
    decoderNext c (.readHeader, s) = (.faulted, t) := by
  simp only [decoderNext, h]

theorem decoderNext_readPayload {w k : Nat} {t : State} (h : decoderPayload c w k s = .done () t) :
    decoderNext c (.readPayload w k, s) = decoderAt (consume k t) := by
  simp only [decoderNext, h]
  rfl

theorem decoderNext_readPayload_raised {w k : Nat} {t : State} (h : decoderPayload c w k s = .raised t) :
    decoderNext c (.readPayload w k, s) = (.faulted, t) := by
  simp only [decoderNext, h]

/-! ### Runs of the machine -/

theorem decoderRun_complete (c : DecoderCommand) (n : Nat) (s : State) :
    decoderRun c n (.complete, s) = (.complete, s) := by
  induction n with
  | zero => rfl
  | succ n ih => exact ih

theorem decoderRun_faulted (c : DecoderCommand) (n : Nat) (s : State) :
    decoderRun c n (.faulted, s) = (.faulted, s) := by
  induction n with
  | zero => rfl
  | succ n ih => exact ih

/-- With no value left the machine's next transition is its last (R183). -/
theorem decoderRun_of_consumed (h : ¬s.consumed.toNat < s.frameLen.toNat) (n : Nat) :
    decoderRun c (n + 1) (decoderAt s) = (.complete, frameEnd s) := by
  rw [decoderAt_of_consumed h]
  exact decoderRun_complete c n (frameEnd s)

/-- Two transitions pass a block (R180, R183). -/
theorem decoderRun_of_block_done (hmore : s.consumed.toNat < s.frameLen.toNat) {t : State}
    (h : decoderBlock c (blockCount s) s = .done () t) (n : Nat) :
    decoderRun c (n + 2) (decoderAt s) = decoderRun c n (decoderAt (consume (blockCount s) t)) := by
  obtain ⟨w, u, hheader, hpayload⟩ := Run.bind_eq_done.mp h
  rw [decoderAt_of_more hmore, decoderRun, decoderNext_readHeader hheader, decoderRun,
    decoderNext_readPayload hpayload]

/-- A block that raises a fault ends the machine where it ends the loop (R183, R224). -/
theorem decoderRun_of_block_raised (hmore : s.consumed.toNat < s.frameLen.toNat) {t : State}
    (h : decoderBlock c (blockCount s) s = .raised t) (n : Nat) :
    decoderRun c (n + 2) (decoderAt s) = (.faulted, t) := by
  rw [decoderAt_of_more hmore, decoderRun]
  rcases Run.bind_eq_raised.mp h with hheader | ⟨w, u, hheader, hpayload⟩
  · rw [decoderNext_readHeader_raised hheader, decoderRun_faulted]
  · rw [decoderNext_readHeader hheader, decoderRun, decoderNext_readPayload_raised hpayload,
      decoderRun_faulted]

/-- How the machine ends where the loop of its command ends: past `frame_end()`, or faulted (R181, R183). -/
def decoderEnd (r : Run Unit) : DecoderPhase × State :=
  match r with
  | .done _ s => (.complete, frameEnd s)
  | .raised s => (.faulted, s)

/-- The machine ends as the loop of its command does, within two transitions for each value and one more. -/
theorem decoderRun_eq_decoderEnd (c : DecoderCommand) (fuel m : Nat) (s : State) (hB : 0 < s.blockSize.toNat)
    (hfuel : s.frameLen.toNat - s.consumed.toNat ≤ fuel) :
    decoderRun c (2 * fuel + m + 1) (decoderAt s) = decoderEnd (frameBlocks (decoderBlock c) fuel s) := by
  induction fuel generalizing s with
  | zero =>
    rw [decoderRun_of_consumed (by omega)]
    rfl
  | succ fuel ih =>
    by_cases hmore : s.consumed.toNat < s.frameLen.toNat
    · rw [show 2 * (fuel + 1) + m + 1 = 2 * fuel + m + 1 + 2 by omega, frameBlocks_of_more hmore]
      cases hblock : decoderBlock c (blockCount s) s with
      | raised t => exact decoderRun_of_block_raised hmore hblock _
      | done _ t =>
        obtain ⟨hsize, hlen, hcons⟩ := decoderBlock_keeps_frame hblock
        have hcount : 0 < blockCount s ∧ s.consumed.toNat + blockCount s ≤ s.frameLen.toNat := by
          unfold blockCount
          omega
        have hnext : (consume (blockCount s) t).consumed.toNat = s.consumed.toNat + blockCount s := by
          rw [consume_consumed, hcons, consumed_add hcount.2]
        rw [decoderRun_of_block_done hmore hblock]
        exact ih _ (by rwa [consume_blockSize, hsize]) (by rw [consume_frameLen, hlen, hnext]; omega)
    · rw [frameBlocks_end _ _ hmore]
      exact decoderRun_of_consumed hmore _

/-! ### The statement -/

/-- A frame command ends in the state its machine ends in (R181). -/
theorem runFrame_state_eq (block : Nat → State → Run Unit) (s : State) :
    (runFrame block s).state = (decoderEnd (frameBlocks block s.frameLen.toNat (frameStart s))).2 := by
  rw [runFrame]
  cases frameBlocks block s.frameLen.toNat (frameStart s) <;> rfl

/-- The loop of a decoder leaves the flags alone until it raises a fault (R224). -/
theorem decoderBlocks_within (c : DecoderCommand) (fuel : Nat) (s : State) :
    (frameBlocks (decoderBlock c) fuel s).Within (fun t => t.status = s.status)
      [.readOverrun, .widthOutOfRange] := by
  have hread : ReadClosed fun t => t.status = s.status := fun _ _ h _ => h
  have hwidth : WidthClosed fun t => t.status = s.status := fun _ _ h _ => h
  have hsink : ∀ lo hi, SinkClosed lo hi fun t => t.status = s.status := fun _ _ _ _ _ h _ _ => h
  refine frameBlocks_within (fun u hu _ => ?_) (fun _ _ h => h) fuel rfl
  exact (decHeader_within hread hwidth hu).bind fun w v _ hv =>
    (decoderPayload_within hread hsink hv c w _).mono (by simp)

/-- A run that begins unfaulted ends faulted exactly where it raised a fault (R183, R224). -/
theorem decoderEnd_phase {ks : List FaultKind} {r : Run Unit} (hr : Running s)
    (h : r.Within (fun t => t.status = s.status) ks) :
    (decoderEnd r).1 = if (decoderEnd r).2.faulted then .faulted else .complete := by
  cases r with
  | done _ t =>
    have hflag : (frameEnd t).faulted = false := (faulted_congr h).trans hr
    simp [decoderEnd, hflag]
  | raised t =>
    obtain ⟨k, -, u, -, rfl⟩ := h
    simp [decoderEnd]

/-- Settles O39: past its checks the command is the loop that the machine's run is, block by block. -/
theorem decoderMachineAgrees : Obligations.DecoderMachineAgrees := by
  intro s c i hr hi hbs hoff hchecks
  have hexec : exec i s = .next (runFrame (decoderBlock c) s).state := by
    subst hi
    cases c with
    | decframe =>
      obtain ⟨hsign, hlen⟩ := hchecks rfl
      rw [decoderBlock_decframe, exec_decframe, runCommand_of_pass hr (decframeChecks_pass hbs hoff hsign hlen)]
    | scanframe =>
      rw [decoderBlock_scanframe, exec_scanframe, runCommand_of_pass hr (scanframeChecks_pass hbs hoff)]
  have hrun := decoderRun_eq_decoderEnd c s.frameLen.toNat 1 (frameStart s) (blockSize_pos hbs) (Nat.sub_le _ _)
  rw [decoderStart_eq, hrun, hexec, runFrame_state_eq]
  exact ⟨rfl, decoderEnd_phase hr (decoderBlocks_within c s.frameLen.toNat (frameStart s))⟩

end Sys2Proof.Machine
end

section
/-! `ENCFRAME` at the end of the buffer (43_frame_codec.md R182, R229): whole blocks stay written, and of the block
that does not fit its header and the fields before the one that is cut off, or nothing. -/

namespace Sys2Proof.Machine

variable {s : State}

/-! ### The bits of blocks -/

theorem blockBits_singleton (prev : Nat) (b : StreamBlock) :
    blockBits prev [b] = b.form.bits ++ payloadBits (b.form.width prev) b.fields :=
  List.append_nil _

/-- No block of a stream is empty, because each has a header (R92). -/
theorem blockBits_length_eq_zero_iff {prev : Nat} {blocks : List StreamBlock} :
    (blockBits prev blocks).length = 0 ↔ blocks = [] := by
  cases blocks with
  | nil => exact iff_of_true rfl rfl
  | cons b rest =>
    have hpositive := b.form.length_pos
    rw [blockBits_length_cons]
    exact iff_of_false (by omega) nofun

theorem blockBits_singleton_length (prev : Nat) (b : StreamBlock) :
    (blockBits prev [b]).length = b.form.length + b.fields.length * b.form.width prev := by
  rw [blockBits_length_cons, blockBits, List.length_nil, Nat.add_zero]

/-- The bits of whole blocks and of the first part of the next (R91). -/
theorem blockBits_take (prev m : Nat) (before after : List StreamBlock) (b : StreamBlock)
    (hm : m ≤ (blockBits (lastWidth prev before) [b]).length) :
    (blockBits prev (before ++ b :: after)).take ((blockBits prev before).length + m) =
      blockBits prev before ++ (blockBits (lastWidth prev before) [b]).take m := by
  rw [blockBits_append, List.take_length_add_append, ← List.singleton_append, blockBits_append,
    List.take_append_of_le_length hm]

/-! ### A block that does not fit -/

/-- Where fields of `w` bits stop fitting: `j` of them do and the next does not (R229). -/
theorem exists_whole_fields {room k w : Nat} (h : room < k * w) :
    ∃ j, j < k ∧ j * w ≤ room ∧ room < j * w + w := by
  have hw : 0 < w := Nat.pos_of_ne_zero fun h0 => by simp [h0] at h
  exact ⟨room / w, (Nat.div_lt_iff_lt_mul hw).mpr h, Nat.div_mul_le_self room w, Nat.lt_div_mul_add hw⟩

/-- The width of the block that `ENCFRAME` makes where it stands (R140, R182). -/
def nextWidth (s : State) : Nat := blockWidth s s.consumed.toNat (blockCount s)

/-- The block that `ENCFRAME` makes where it stands (R180, R182). -/
def nextBlock (s : State) : StreamBlock :=
  ⟨formFor (nextWidth s) s.prevW.toNat, encodedFields s (nextWidth s) s.consumed.toNat (blockCount s)⟩

theorem nextBlock_width (s : State) : (nextBlock s).form.width s.prevW.toNat = nextWidth s :=
  formFor_width (blockWidth_le_64 s _ _) _

theorem nextBlock_form_length (s : State) : (nextBlock s).form.length = hdrLen (nextWidth s) s.prevW.toNat :=
  formFor_length _ _

theorem nextBlock_fields_length (s : State) : (nextBlock s).fields.length = blockCount s :=
  encodedFields_length _ _ _ _

/-- The header of the next block and its first fields (R92). -/
theorem nextBlock_bits_take {j : Nat} (hj : j ≤ blockCount s) :
    (blockBits s.prevW.toNat [nextBlock s]).take ((nextBlock s).form.length + j * nextWidth s) =
      (nextBlock s).form.bits ++
        payloadBits (nextWidth s) (encodedFields s (nextWidth s) s.consumed.toNat j) := by
  rw [blockBits_singleton, ← HeaderForm.bits_length, List.take_length_add_append, nextBlock_width]
  exact congrArg _ (payloadBits_take s _ _ hj)

/-- The next block is the first of those still to come (R91, R182). -/
theorem nextBlock_of_encodedBlocks {fuel : Nat} {b : StreamBlock} {after : List StreamBlock}
    (h : encodedBlocks s fuel s.consumed.toNat s.prevW.toNat = b :: after) :
    (∃ fuel', fuel = fuel' + 1) ∧ s.consumed.toNat < s.frameLen.toNat ∧ nextBlock s = b := by
  cases fuel with
  | zero => cases h
  | succ fuel =>
    rw [encodedBlocks] at h
    split at h
    case isFalse => cases h
    case isTrue hmore =>
      obtain ⟨hblock, -⟩ := List.cons.inj h
      exact ⟨⟨fuel, rfl⟩, hmore, hblock⟩

/-- How much of a block behind the width `prev` is written where `room` bits are left: `m` bits, the width being
`v` after them. Nothing, if its header does not fit; else the header and the fields before the first that does not
(R182, R229). -/
def CutAt (b : StreamBlock) (prev room m v : Nat) : Prop :=
  m = 0 ∧ v = prev ∧ room < b.form.length ∨
    v = b.form.width prev ∧ ∃ j, j < b.fields.length ∧ m = b.form.length + j * v ∧ m ≤ room ∧ room < m + v

theorem CutAt.le_room {b : StreamBlock} {prev room m v : Nat} (h : CutAt b prev room m v) : m ≤ room := by
  rcases h with ⟨rfl, -, -⟩ | ⟨-, j, -, -, hm, -⟩
  · exact Nat.zero_le _
  · exact hm

/-- Where nothing of the block is written, the width stays (R160). -/
theorem CutAt.width_of_zero {b : StreamBlock} {prev room v : Nat} (h : CutAt b prev room 0 v) : v = prev := by
  have hpositive := b.form.length_pos
  rcases h with ⟨-, hv, -⟩ | ⟨-, j, -, hm, -, -⟩
  · exact hv
  · omega

/-- The state that a block of `ENCFRAME` leaves of which `m` bits were written, the width being `v` (R182,
R229). -/
def blockCutAt (s : State) (m v : Nat) (b : List Host.Cell) : State :=
  { s with
    buf := b, pos := s.pos + BitVec.ofNat 64 m, prevW := BitVec.ofNat 7 v,
    curW := if m = 0 then s.curW else BitVec.ofNat 7 v }

/-- A header that does not fit leaves its block unwritten (R160, R182). -/
theorem encFrameBlock_header_raised (h : ¬s.pos.toNat + (nextBlock s).form.length ≤ 8 * s.bufLen.toNat) :
    encFrameBlock (blockCount s) s = .raised (raiseFault .writeOverrun (blockCutAt s 0 s.prevW.toNat s.buf)) := by
  rw [nextBlock_form_length] at h
  have hstate : blockCutAt s 0 s.prevW.toNat s.buf = s := by simp [blockCutAt]
  rw [hstate, encFrameBlock, ← nextWidth, encHeader_raised h, Run.bind_raised]

/-- A block whose header fits and whose field `j` does not keeps the header and the fields before it (R143, R182,
R229). -/
theorem encFrameBlock_payload_raised {j : Nat} (hcap : NoWrap s) (hj : j < blockCount s)
    (hfits : s.pos.toNat + ((nextBlock s).form.length + j * nextWidth s) ≤ 8 * s.bufLen.toNat)
    (hout : ¬s.pos.toNat + ((nextBlock s).form.length + j * nextWidth s + nextWidth s) ≤ 8 * s.bufLen.toNat) :
    ∃ b, encFrameBlock (blockCount s) s = .raised (raiseFault .writeOverrun
        (blockCutAt s ((nextBlock s).form.length + j * nextWidth s) (nextWidth s) b)) ∧
      OredAt s { s with buf := b } s.pos.toNat
        ((blockBits s.prevW.toNat [nextBlock s]).take ((nextBlock s).form.length + j * nextWidth s)) := by
  rw [nextBlock_bits_take hj.le]
  have hlen := nextBlock_form_length s
  have hpositive := (nextBlock s).form.length_pos
  have hcur : (nextBlock s).form.length + j * nextWidth s ≠ 0 := by omega
  have hw0 : nextWidth s ≠ 0 := fun h0 => by
    rw [h0] at hfits hout
    exact hout hfits
  obtain ⟨b1, e1, o1⟩ := encHeader_done (s := s) (w := nextWidth s) (by omega)
  rw [← hlen] at e1
  have hpos : (s.pos + BitVec.ofNat 64 (nextBlock s).form.length).toNat =
      s.pos.toNat + (nextBlock s).form.length := toNat_pos_add (by omega)
  obtain ⟨b2, e2, o2⟩ := encFields_overrun (nextWidth s) s.consumed.toNat (blockCount s) j
    { s with
      buf := b1, pos := s.pos + BitVec.ofNat 64 (nextBlock s).form.length,
      prevW := BitVec.ofNat 7 (nextWidth s), curW := BitVec.ofNat 7 (nextWidth s) }
    hcap hj (.inr (by simp only [hpos]; omega)) (by simp only [hpos]; omega)
  refine ⟨b2, ?_, OredAt.trans o1 ?_⟩
  · rw [encFrameBlock, ← nextWidth, e1, Run.bind_done, encBlock, if_neg hw0, e2, Run.bind_raised, pos_add_add,
      blockCutAt, if_neg hcur]
  · rw [HeaderForm.bits_length]
    simp only [hpos] at o2
    exact ⟨o2.bit, o2.outside⟩

/-- A block of `ENCFRAME` that does not fit (R182, R229). -/
theorem encFrameBlock_overrun (hcap : NoWrap s) (hpos : s.pos.toNat ≤ 8 * s.bufLen.toNat)
    (hout : 8 * s.bufLen.toNat < s.pos.toNat + (blockBits s.prevW.toNat [nextBlock s]).length) :
    ∃ b m v, CutAt (nextBlock s) s.prevW.toNat (8 * s.bufLen.toNat - s.pos.toNat) m v ∧
      encFrameBlock (blockCount s) s = .raised (raiseFault .writeOverrun (blockCutAt s m v b)) ∧
      OredAt s { s with buf := b } s.pos.toNat ((blockBits s.prevW.toNat [nextBlock s]).take m) := by
  by_cases hheader : s.pos.toNat + (nextBlock s).form.length ≤ 8 * s.bufLen.toNat
  · rw [blockBits_singleton_length, nextBlock_width, nextBlock_fields_length] at hout
    obtain ⟨j, hj, hfits, hcut⟩ := exists_whole_fields
      (room := 8 * s.bufLen.toNat - s.pos.toNat - (nextBlock s).form.length) (k := blockCount s)
      (w := nextWidth s) (by omega)
    obtain ⟨b, e, hored⟩ := encFrameBlock_payload_raised hcap hj (by omega) (by omega)
    exact ⟨b, _, _, .inr ⟨(nextBlock_width s).symm, j, (nextBlock_fields_length s).symm ▸ hj, rfl, by omega,
      by omega⟩, e, hored⟩
  · exact ⟨s.buf, 0, s.prevW.toNat, .inl ⟨rfl, rfl, by omega⟩, encFrameBlock_header_raised hheader,
      OredAt.refl s _⟩

/-! ### The loop before it -/

/-- The state in which `ENCFRAME` stands behind these blocks, with the buffer `buf` (R182, R185). -/
def behindEncoded (s : State) (before : List StreamBlock) (buf : List Host.Cell) : State :=
  { s with
    buf := buf,
    pos := BitVec.ofNat 64 (8 * s.aOff.toNat) + BitVec.ofNat 64 (blockBits 0 before).length,
    prevW := BitVec.ofNat 7 (lastWidth 0 before),
    curW := if before = [] then s.curW else BitVec.ofNat 7 (lastWidth 0 before),
    consumed := BitVec.ofNat 64 (before.map (·.fields.length)).sum,
    maxW := BitVec.ofNat 7 (widest s.maxW.toNat 0 before) }

theorem behindEncoded_bufLen (s : State) (before : List StreamBlock) (buf : List Host.Cell) :
    (behindEncoded s before buf).bufLen = s.bufLen := rfl

theorem behindEncoded_pos {before : List StreamBlock} (hw : NoWrap s) (buf : List Host.Cell)
    (hfits : 8 * s.aOff.toNat + (blockBits 0 before).length ≤ 8 * s.bufLen.toNat) :
    (behindEncoded s before buf).pos.toNat = 8 * s.aOff.toNat + (blockBits 0 before).length := by
  simp only [behindEncoded, BitVec.toNat_add, BitVec.toNat_ofNat]
  omega

/-- The loop of `ENCFRAME` passes the blocks that fit, and the next block it makes is the next of the frame
(R180, R182). -/
theorem encframe_loop_behind {before after : List StreamBlock} {b : StreamBlock} (hw : NoWrap s)
    (hbs : s.blockSize ≠ 0#64) (hoff : s.aOff.toNat ≤ s.bufLen.toNat)
    (hbl : encodedFrame s = before ++ b :: after)
    (hfits : 8 * s.aOff.toNat + (blockBits 0 before).length ≤ 8 * s.bufLen.toNat) :
    ∃ buf fuel, frameBlocks encFrameBlock s.frameLen.toNat (frameStart s) =
        frameBlocks encFrameBlock (fuel + 1) (behindEncoded s before buf) ∧
      OredAt s { s with buf := buf } (8 * s.aOff.toNat) (blockBits 0 before) ∧
      (behindEncoded s before buf).consumed.toNat < s.frameLen.toNat ∧
      (behindEncoded s before buf).prevW.toNat = lastWidth 0 before ∧
      nextBlock (behindEncoded s before buf) = b := by
  have hstart := frameStart_pos_toNat hw hoff
  obtain ⟨buf, fuel, e, hored, -, hrest, hlast, hsum⟩ := encFrameBlocks_prefix s.frameLen.toNat
    (frameStart s) hw (Nat.zero_le _) (Nat.sub_le _ _) (blockSize_pos hbs) before (b :: after)
    ((encodedBlocks_congr (s := frameStart s) (t := s) rfl rfl rfl rfl _ _ _).trans hbl)
    (by rw [hstart]; exact hfits)
  rw [frameStart_consumed, BitVec.zero_add] at e
  simp only [frameStart_consumed, frameStart_prevW, BitVec.toNat_zero, Nat.zero_add, hstart]
    at hored hrest hlast hsum
  have hconsumed : (behindEncoded s before buf).consumed.toNat = (before.map (·.fields.length)).sum := by
    have hle : (before.map (·.fields.length)).sum ≤ s.frameLen.toNat := by
      rcases hsum with rfl | h
      · exact Nat.zero_le _
      · exact h
    exact Nat.mod_eq_of_lt (hle.trans_lt s.frameLen.isLt)
  have hprev : (behindEncoded s before buf).prevW.toNat = lastWidth 0 before := ofNat7_toNat (by omega)
  have hnext : encodedBlocks (behindEncoded s before buf) fuel (behindEncoded s before buf).consumed.toNat
      (behindEncoded s before buf).prevW.toNat = b :: after := by
    rw [hconsumed, hprev]
    exact (encodedBlocks_congr (s := behindEncoded s before buf) (t := frameStart s) rfl rfl rfl rfl _ _ _).trans
      hrest
  obtain ⟨⟨fuel, rfl⟩, hmore, hblock⟩ := nextBlock_of_encodedBlocks hnext
  exact ⟨buf, fuel, e, ⟨hored.bit, hored.outside⟩, hmore, hprev, hblock⟩

/-! ### The statement -/

/-- Where a block that is cut off behind whole blocks leaves the registers (R182, R229). -/
theorem blockCutAt_behindEncoded {before : List StreamBlock} {m v : Nat} (buf buf' : List Host.Cell)
    (hv : m = 0 → v = lastWidth 0 before) :
    blockCutAt (behindEncoded s before buf) m v buf' = { s with
      buf := buf',
      pos := BitVec.ofNat 64 (8 * s.aOff.toNat + ((blockBits 0 before).length + m)),
      prevW := BitVec.ofNat 7 v,
      curW := if (blockBits 0 before).length + m = 0 then s.curW else BitVec.ofNat 7 v,
      consumed := BitVec.ofNat 64 (before.map (·.fields.length)).sum,
      maxW := BitVec.ofNat 7 (widest s.maxW.toNat 0 before) } := by
  have hcur : (blockCutAt (behindEncoded s before buf) m v buf').curW =
      if (blockBits 0 before).length + m = 0 then s.curW else BitVec.ofNat 7 v := by
    by_cases hm : m = 0
    · subst hm
      simp only [blockCutAt, behindEncoded, Nat.add_zero, blockBits_length_eq_zero_iff, hv rfl, if_true]
    · rw [if_neg (by omega)]
      exact if_neg hm
  rw [← hcur, ← Nat.add_assoc, BitVec.ofNat_add, BitVec.ofNat_add]
  rfl

/-- Settles O32: the loop passes the blocks that fit, and the next one overruns. -/
theorem encframeOverrunKeepsWholeFields : Obligations.EncframeOverrunKeepsWholeFields := by
  intro s hr hw hbs hoff hlen hout
  obtain ⟨before, b, after, hbl, hfits, hcut⟩ :=
    blockBits_split 0 (encodedFrame s) (8 * s.bufLen.toNat - 8 * s.aOff.toNat) (by omega)
  rw [← blockBits_singleton_length] at hcut
  replace hfits : 8 * s.aOff.toNat + (blockBits 0 before).length ≤ 8 * s.bufLen.toNat := by omega
  obtain ⟨buf, fuel, e, hored, hmore, hprev, hnext⟩ := encframe_loop_behind hw hbs hoff hbl hfits
  have hpos := behindEncoded_pos hw buf hfits
  obtain ⟨buf', m, v, hcutAt, hraised, hored'⟩ := encFrameBlock_overrun (s := behindEncoded s before buf) hw
    (hpos.trans_le hfits)
    (by rw [hnext, hprev, hpos, behindEncoded_bufLen]; omega)
  rw [hnext, hprev, hpos] at hcutAt hored'
  rw [behindEncoded_bufLen] at hcutAt
  have hm := hcutAt.le_room
  have hexec : exec .encframe s = .next
      (faultedWith 5#8 (blockCutAt (behindEncoded s before buf) m v buf')) := by
    rw [exec_encframe, runCommand_of_pass hr (encframeChecks_pass hbs hoff hlen), runFrame, e,
      frameBlocks_of_more hmore, hraised]
    rfl
  refine ⟨before, after, b, (blockBits 0 before).length + m, v, _, hbl, hexec, ?_, by omega, ?_, ?_⟩
  · rcases hcutAt with ⟨rfl, hv, hheader⟩ | ⟨hv, j, hj, hbits, -, hfield⟩
    · exact .inl ⟨rfl, hv, by omega⟩
    · exact .inr ⟨hv, j, hj, by omega, by omega⟩
  · rw [blockCutAt_behindEncoded buf buf' fun h => by subst h; exact hcutAt.width_of_zero]
    rfl
  · rw [hbl, blockBits_take _ _ _ _ _ (by omega)]
    exact hored.trans ⟨hored'.bit, hored'.outside⟩

end Sys2Proof.Machine
end

section
/-! The hardware reset (60_exceptions.md R227, 70_reset_and_hazards.md R260): what a reset in the middle of a
command leaves of the memories follows from the ranges that the command could write. -/

namespace Sys2Proof.Machine

/-! ### The ranges a command could write -/

/-- A command that decodes to `i` was issued by the opcode that encodes `i` (R103). -/
theorem encode_of_decodeCommand_eq {c : Byte} {i : Instr} (h : decodeCommand c = i) : encode i = .command c :=
  h ▸ encode_decodeCommand c

/-- Only the four encodes could write the buffer (R68, U22). -/
theorem couldWriteBuf_of_not_encode {c : Byte} (hc : c ∉ [0x03#8, 0x11#8, 0x20#8, 0x30#8]) (s : State) :
    couldWriteBuf c s = (0, 0) := by
  unfold couldWriteBuf
  dsimp only
  split
  case h_5 => rfl
  all_goals
    cases encode_of_decodeCommand_eq ‹_›
    exact absurd hc (by decide)

/-- Only the two decodes could write the sink (R145, R184, U22). -/
theorem couldWriteVout_of_not_decode {c : Byte} (hc : c ∉ [0x12#8, 0x31#8]) (s : State) :
    couldWriteVout c s = (0, 0) := by
  unfold couldWriteVout
  split
  case h_3 => rfl
  all_goals
    cases encode_of_decodeCommand_eq ‹_›
    exact absurd hc (by decide)

/-- The number of a cell that is not in a range, which is its first cell and the count of its cells. -/
def OutsideRange (r : Nat × Nat) (a : Nat) : Prop := a < r.1 ∨ r.1 + r.2 ≤ a

/-- Every cell is outside the range of a command that could write nothing. -/
theorem outsideRange_zero (a : Nat) : OutsideRange (0, 0) a := .inr (Nat.zero_le a)

theorem outsideRange_ite {p : Prop} [Decidable p] {r r' : Nat × Nat} {a : Nat} (h : OutsideRange r a)
    (h' : OutsideRange r' a) : OutsideRange (if p then r else r') a := by
  split <;> assumption

/-- An encode at the cursor could write no byte before the cursor's. -/
theorem couldWriteBuf_outside_of_lt_pos {c : Byte} (hc : c ∈ [0x03#8, 0x11#8, 0x20#8]) {s : State} {j : Nat}
    (hj : j < s.pos.toNat / 8) : OutsideRange (couldWriteBuf c s) j := by
  have hrange : couldWriteBuf c s = if s.pos = (endState c s).pos then (0, 0)
      else (s.pos.toNat / 8, ((endState c s).pos.toNat + 7) / 8 - s.pos.toNat / 8) := by
    simp only [List.mem_cons, List.not_mem_nil, or_false] at hc
    obtain rfl | rfl | rfl := hc <;> rfl
  rw [hrange]
  exact outsideRange_ite (outsideRange_zero j) (.inl hj)

/-- `ENCFRAME` could write no byte before the frame's first (R181). -/
theorem couldWriteBuf_encframe_outside {s : State} {j : Nat} (hj : j < s.aOff.toNat) :
    OutsideRange (couldWriteBuf 0x30#8 s) j :=
  outsideRange_ite (p := starts (encframeChecks s) s = true) (.inl hj) (outsideRange_zero j)

/-- `DECBLK` could write the block's cells alone (R145). -/
theorem couldWriteVout_decblk_outside {s : State} {a : Nat}
    (ha : a < s.aIdx.toNat ∨ s.aIdx.toNat + s.aK.toNat ≤ a) : OutsideRange (couldWriteVout 0x12#8 s) a :=
  outsideRange_ite (p := starts (decblkChecks s) s = true) ha (outsideRange_zero a)

/-- `DECFRAME` could write the frame's cells alone (R184). -/
theorem couldWriteVout_decframe_outside {s : State} {a : Nat} (ha : s.frameLen.toNat ≤ a) :
    OutsideRange (couldWriteVout 0x31#8 s) a :=
  outsideRange_ite (p := starts (decframeChecks s) s = true) (.inr ((Nat.zero_add _).trans_le ha))
    (outsideRange_zero a)

/-! ### What the reset leaves -/

/-- The registers take their reset values; the source and what the host holds stay (R260, R261). -/
theorem resetDuring_eq (c : Byte) (s : State) :
    resetDuring c s = { State.reset with
      buf := (resetDuring c s).buf, vin := s.vin, vout := (resetDuring c s).vout, host := s.host,
      hostData := s.hostData, freeCount := (resetDuring c s).freeCount } := by
  unfold resetDuring
  rw [(freeVout_spec _ _ _).1, (freeBuf_spec _ _ _).1]
  rfl

/-- The sink takes no part in what becomes of the buffer. -/
theorem resetDuring_buf (c : Byte) (s : State) :
    (resetDuring c s).buf = (freeBuf (couldWriteBuf c s).1 (couldWriteBuf c s).2 s).buf := by
  unfold resetDuring
  rw [(freeVout_spec _ _ _).1]
  rfl

/-- A byte that the command could not write stays (R227). -/
theorem read?_resetDuring_buf {c : Byte} {s : State} {j : Nat}
    (hj : OutsideRange (couldWriteBuf c s) j) :
    Memory.read? (resetDuring c s).buf j = Memory.read? s.buf j := by
  obtain ⟨-, hread, -⟩ := freeBuf_spec (couldWriteBuf c s).2 (couldWriteBuf c s).1 s
  rw [resetDuring_buf]
  exact hread j hj

theorem freeBuf_vout (j count : Nat) (s : State) : (freeBuf j count s).vout = s.vout := by
  rw [(freeBuf_spec count j s).1]

/-- A cell that the command could not write stays (R227). -/
theorem read?_resetDuring_vout {c : Byte} {s : State} {a : Nat}
    (ha : OutsideRange (couldWriteVout c s) a) :
    Memory.read? (resetDuring c s).vout a = Memory.read? s.vout a := by
  obtain ⟨-, hread, -⟩ := freeVout_spec (couldWriteVout c s).2 (couldWriteVout c s).1
    (freeBuf (couldWriteBuf c s).1 (couldWriteBuf c s).2 s)
  rw [freeBuf_vout] at hread
  exact hread a ha

/-- A command that could write no byte leaves the buffer as it was, listing included. -/
theorem resetDuring_buf_of_not_encode {c : Byte} (hc : c ∉ [0x03#8, 0x11#8, 0x20#8, 0x30#8]) (s : State) :
    (resetDuring c s).buf = s.buf := by
  rw [resetDuring_buf, couldWriteBuf_of_not_encode hc]
  rfl

/-- A command that could write no cell leaves the sink as it was, listing included. -/
theorem resetDuring_vout_of_not_decode {c : Byte} (hc : c ∉ [0x12#8, 0x31#8]) (s : State) :
    (resetDuring c s).vout = s.vout := by
  unfold resetDuring
  rw [couldWriteVout_of_not_decode hc]
  exact freeBuf_vout _ _ s

/-! ### The statement -/

/-- Settles O59: a step makes the reset that waits, and each memory clause speaks of cells outside the range
the command could write. -/
theorem hardResetWins : Obligations.HardResetWins := by
  intro s c rest
  have hstep (a : HostAction) : step { s with host := a :: rest } = hostAct a { s with host := rest } :=
    step_of_host_cons rfl
  refine ⟨hstep .hardReset, resetDuring c { s with host := rest }, hstep (.hardResetDuring c),
    resetDuring_eq c _, fun hc => resetDuring_buf_of_not_encode hc _,
    fun hc => resetDuring_vout_of_not_decode hc _,
    fun hc j hj => read?_resetDuring_buf (couldWriteBuf_outside_of_lt_pos hc hj), ?_, ?_, ?_⟩
  · rintro rfl j hj
    exact read?_resetDuring_buf (couldWriteBuf_encframe_outside hj)
  · rintro rfl a ha
    exact read?_resetDuring_vout (couldWriteVout_decblk_outside ha)
  · rintro rfl a ha
    exact read?_resetDuring_vout (couldWriteVout_decframe_outside ha)

end Sys2Proof.Machine
end
